-- ==== Sys2Proof/Word.lean ====
section
/-! DEFINITION. The two word types of the block: a byte, and a run of stream bits in wire order. -/

namespace Sys2Proof

/-- One byte: the element of every memory, input and output buffer (20_memory R70). -/
abbrev Byte := BitVec 8

/-- Bits in wire order, the first bit on the wire first (00_scope R12). -/
abbrev Bits := List Bool

end Sys2Proof
end

