-- ==== Sys2Proof/Config.lean ====
section
/-! DEFINITION. What one machine fixes: the profiles, the parameters of 00_scope R9 that are OPEN, and the free values
behind a match finder other than the reference and behind an offset on which two rules differ. -/

namespace Sys2Proof

/-- The two profiles (00_scope R3); no other exists. -/
inductive Profile where
  | legacy
  | standard
  deriving DecidableEq, Repr

/-- The parameter `LEGACY_OFFSET_CODE` (00_scope R9, 30_encoding R104). -/
inductive OffsetCode where
  | doc
  | rfc2118
  deriving DecidableEq, Repr

/-- The parameter `MATCH_FINDER` (00_scope R9, 41_lz77_match_finder R184): the single-slot finder of the spec, or any
other finder that emits verified matches only. -/
inductive MatchFinder where
  | reference
  | other
  deriving DecidableEq, Repr

/-- The parameter `HASH16` (00_scope R9, 41_lz77_match_finder R170) as plain data: a byte-wise CRC-16 with initial value
all-ones, whose polynomial, direction and final XOR the source leaves open.
PRESUMED (log 16): that the admitted hashes are these. -/
structure HashParams where
  poly : BitVec 16
  reflected : Bool
  xorOut : BitVec 16
  deriving DecidableEq, Repr

/-- The OPEN parameters of 00_scope R9. They are constants of the machine: no step writes them (log 15). -/
structure Params where
  legacyOffsetCode : OffsetCode
  hash : HashParams
  finder : MatchFinder
  deriving DecidableEq, Repr

/-- The defaults of 00_scope R9: the document's offset code, the CRC-16 of decision D3, the reference finder. -/
def Params.default : Params where
  legacyOffsetCode := .doc
  hash := { poly := 0x8408#16, reflected := true, xorOut := 0#16 }
  finder := .reference

/-- FREE VALUE (log 17): the candidate index and length that a finder other than the reference proposes at its `n`-th
hashable position. It has no body, so nothing can be proved of it; the engine checks the proposal before it is used
(41_lz77_match_finder R184). -/
opaque Config.proposedMatch : Nat → Nat × Nat

/-- FREE VALUE (log 27): whether a copy-offset above 8191 of the RFC2118 code fails the check of 43 R247 even where it is not
above `CURSOR`, which is the offset 8192 at a LEGACY `CURSOR` of 8192. 30_encoding R104 says that it fails, the test of
43 R246 passes it, and no ruling of spec/ sets either aside. It has no body, so nothing can be proved of it. -/
opaque Config.offsetAbove8191Fails : Bool

end Sys2Proof
end

