-- ==== Sys2Proof/Syntax.lean ====
section
/-! DEFINITION. The instructions: one constructor for each of the 29 rows of spec/opcode_table.json. -/

namespace Sys2Proof

/-- An instruction. The token parts are read from a payload's bit stream (30_encoding R100 to R105), the commands from the
command port (30_encoding R110). A Match token is a copy-offset part followed by a length-of-match part (30_encoding R100),
so each `MATCH` row here is the copy-offset part and the `LOM` row that follows it is an instruction of its own (log 2). -/
inductive Instr where
  /-- `LIT.LO`: `0 vvvvvvv`. -/
  | litLo (v : BitVec 7)
  /-- `LIT.HI`: `10 vvvvvvv`. -/
  | litHi (v : BitVec 7)
  /-- `MATCH.O6`: `11111 oooooo`. -/
  | matchO6 (o : BitVec 6)
  /-- `MATCH.O8`: `11110 oooooooo`. -/
  | matchO8 (o : BitVec 8)
  /-- `MATCH.O11`: `1110` and 11 bits. -/
  | matchO11 (o : BitVec 11)
  /-- `MATCH.O16`: `110` and 16 bits. -/
  | matchO16 (o : BitVec 16)
  /-- `MATCH.O6L`: `1111 oooooo`, RFC2118 code. -/
  | matchO6L (o : BitVec 6)
  /-- `MATCH.O8L`: `1110 oooooooo`, RFC2118 code. -/
  | matchO8L (o : BitVec 8)
  /-- `MATCH.O13L`: `110` and 13 bits, RFC2118 code. -/
  | matchO13L (o : BitVec 13)
  /-- `LOM3`: `0`. -/
  | lom3
  /-- `LOM.C2` to `LOM.C15`: class `n` is `n - 1` one-bits, a zero-bit and `n` bits. -/
  | lomC2 (l : BitVec 2)
  | lomC3 (l : BitVec 3)
  | lomC4 (l : BitVec 4)
  | lomC5 (l : BitVec 5)
  | lomC6 (l : BitVec 6)
  | lomC7 (l : BitVec 7)
  | lomC8 (l : BitVec 8)
  | lomC9 (l : BitVec 9)
  | lomC10 (l : BitVec 10)
  | lomC11 (l : BitVec 11)
  | lomC12 (l : BitVec 12)
  | lomC13 (l : BitVec 13)
  | lomC14 (l : BitVec 14)
  | lomC15 (l : BitVec 15)
  /-- `LOM.RESERVED`: fifteen one-bits, the illegal length prefix. -/
  | lomReserved
  /-- `ENC_INIT profile`. -/
  | encInit (profile : Profile)
  /-- `ENC_COMPRESS chunk`. -/
  | encCompress (chunk : List Byte)
  /-- `DEC_INIT profile`. -/
  | decInit (profile : Profile)
  /-- `DEC_DECOMPRESS flags, payload`. -/
  | decDecompress (flags : Byte) (payload : List Byte)
  deriving DecidableEq, Repr

end Sys2Proof
end

