-- ==== Sys2Proof/WellFormed.lean ====
section
/-! DEFINITION. Which instructions are well formed: the field widths are the constructors' own types, and a payload must
fit the 32-bit length field. -/

namespace Sys2Proof

/-- `LEN` is a 32-bit count of payload bytes (30_encoding R113). -/
def lenFits (payload : List Byte) : Bool :=
  decide (payload.length < 2 ^ 32)

/-- A well-formed instruction: its payload, where it has one, fits `LEN` (30_encoding R113). -/
def Instr.wellFormed : Instr → Bool
  | .encCompress chunk => lenFits chunk
  | .decDecompress _ payload => lenFits payload
  | .litLo _ | .litHi _
  | .matchO6 _ | .matchO8 _ | .matchO11 _ | .matchO16 _ | .matchO6L _ | .matchO8L _ | .matchO13L _
  | .lom3 | .lomC2 _ | .lomC3 _ | .lomC4 _ | .lomC5 _ | .lomC6 _ | .lomC7 _ | .lomC8 _ | .lomC9 _ | .lomC10 _
  | .lomC11 _ | .lomC12 _ | .lomC13 _ | .lomC14 _ | .lomC15 _ | .lomReserved
  | .encInit _ | .decInit _ => true

end Sys2Proof
end

