-- ==== Sys2Proof/Decode.lean ====
section
/-! DEFINITION. Decoding and encoding: the bit and byte order of the block, the prefix code of the token stream, the
command word, the encoder written from the same tables, and the reading of one opcode-table word. -/

namespace Sys2Proof

/-! ### Bit and byte order -/

/-- The `w` low bits of `v`, most significant first: what `PutBits(v, w)` appends (42 R200). -/
def natBits : Nat → Nat → Bits
  | 0, _ => []
  | w + 1, v => v.testBit w :: natBits w v

/-- The unsigned number whose bits, most significant first, are given: the accumulation of `GetBits` (43 R231). -/
def bitsNat (bs : Bits) : Nat :=
  bs.foldl (fun acc b => 2 * acc + b.toNat) 0

/-- A value field in wire order, most significant bit first (20 R75). -/
def field {w : Nat} (v : BitVec w) : Bits :=
  natBits w v.toNat

/-- `GetBits(w)` on the bits that remain, or nothing where fewer than `w` remain (43 R231). -/
def getBits (w : Nat) (bs : Bits) : Option (BitVec w × Bits) :=
  if bs.length < w then none else some (BitVec.ofNat w (bitsNat (bs.take w)), bs.drop w)

/-- Stream bit `i` is bit `7 - (i mod 8)` of byte `i div 8` (00 R12, 20 R75). -/
def bytesBits (bytes : List Byte) : Bits :=
  bytes.flatMap (fun b => field b)

/-- A byte buffer that holds the bits MSB-first, its last byte padded with 0-bits (42 R200, R207). -/
def packBits : Bits → List Byte
  | [] => []
  | b0 :: b1 :: b2 :: b3 :: b4 :: b5 :: b6 :: b7 :: rest =>
    BitVec.ofNat 8 (bitsNat [b0, b1, b2, b3, b4, b5, b6, b7]) :: packBits rest
  | few => [BitVec.ofNat 8 (bitsNat (few ++ List.replicate (8 - few.length) false))]

/-- A 16-bit word as bytes, least significant first (30 R113). -/
def le16 (w : BitVec 16) : List Byte :=
  [w.extractLsb' 0 8, w.extractLsb' 8 8]

/-- `LEN` or `OUTLEN` as bytes, least significant first (30 R113). -/
def le32 (n : Nat) : List Byte :=
  [BitVec.ofNat 8 n, BitVec.ofNat 8 (n / 2 ^ 8), BitVec.ofNat 8 (n / 2 ^ 16), BitVec.ofNat 8 (n / 2 ^ 24)]

/-- The number four bytes carry, least significant byte first (30 R113). -/
def fromLe32 (b0 b1 b2 b3 : Byte) : Nat :=
  b0.toNat + b1.toNat * 2 ^ 8 + b2.toNat * 2 ^ 16 + b3.toNat * 2 ^ 24

/-! ### Why a read fails -/

/-- The named reasons for which the decoder gives no instruction. -/
inductive DecodeError where
  /-- The bits run out inside a token part (43 R233). -/
  | truncated
  /-- The command word has a bit set that must be 0 (30 R112). -/
  | reservedWord
  /-- The bytes are not a whole command: no word, or the length and payload do not match (log 6). -/
  | brokenTransaction
  deriving DecidableEq, Repr

/-! ### Token heads (30 R105, 43 R234, R241, R244) -/

/-- Attach a constructor to a field that was read. -/
def asInstr {w : Nat} (mk : BitVec w → Instr) (r : Option (BitVec w × Bits)) : Option (Instr × Bits) :=
  r.map (fun p => (mk p.1, p.2))

/-- `DECODE_OFFSET`, after the head `11` (43 R241). -/
def decodeOffsetDoc : Bits → Option (Instr × Bits)
  | false :: r => asInstr .matchO16 (getBits 16 r)
  | true :: false :: r => asInstr .matchO11 (getBits 11 r)
  | true :: true :: false :: r => asInstr .matchO8 (getBits 8 r)
  | true :: true :: true :: r => asInstr .matchO6 (getBits 6 r)
  | _ => none

/-- `DECODE_OFFSET_L`, after the head `11` (43 R244). -/
def decodeOffsetLegacy : Bits → Option (Instr × Bits)
  | false :: r => asInstr .matchO13L (getBits 13 r)
  | true :: false :: r => asInstr .matchO8L (getBits 8 r)
  | true :: true :: r => asInstr .matchO6L (getBits 6 r)
  | _ => none

/-- The copy-offset part, in the code the unit uses (30 R104). -/
def decodeOffset : OffsetCode → Bits → Option (Instr × Bits)
  | .doc => decodeOffsetDoc
  | .rfc2118 => decodeOffsetLegacy

/-- The head of a token: a literal, or the copy-offset part of a match (43 R234). Nothing where the bits run out. -/
def decodeHead (code : OffsetCode) : Bits → Option (Instr × Bits)
  | false :: r => asInstr .litLo (getBits 7 r)
  | true :: false :: r => asInstr .litHi (getBits 7 r)
  | true :: true :: r => decodeOffset code r
  | _ => none

/-! ### Length-of-match parts (30 R103, 43 R242, R243) -/

/-- Count one-bits up to the first zero-bit, which is consumed, or up to `limit` of them, as the loop of 43 R242 does. -/
def countOnes : Nat → Bits → Option (Nat × Bits)
  | 0, bs => some (0, bs)
  | _ + 1, [] => none
  | _ + 1, false :: r => some (0, r)
  | limit + 1, true :: r => (countOnes limit r).map (fun p => (p.1 + 1, p.2))

/-- The value of class `c + 1` after its unary code of `c` one-bits; fifteen one-bits are the reserved code (43 R243). -/
def decodeLomValue (c : Nat) (r : Bits) : Option (Instr × Bits) :=
  match c with
  | 0 => some (.lom3, r)
  | 1 => asInstr .lomC2 (getBits 2 r)
  | 2 => asInstr .lomC3 (getBits 3 r)
  | 3 => asInstr .lomC4 (getBits 4 r)
  | 4 => asInstr .lomC5 (getBits 5 r)
  | 5 => asInstr .lomC6 (getBits 6 r)
  | 6 => asInstr .lomC7 (getBits 7 r)
  | 7 => asInstr .lomC8 (getBits 8 r)
  | 8 => asInstr .lomC9 (getBits 9 r)
  | 9 => asInstr .lomC10 (getBits 10 r)
  | 10 => asInstr .lomC11 (getBits 11 r)
  | 11 => asInstr .lomC12 (getBits 12 r)
  | 12 => asInstr .lomC13 (getBits 13 r)
  | 13 => asInstr .lomC14 (getBits 14 r)
  | 14 => asInstr .lomC15 (getBits 15 r)
  | _ => some (.lomReserved, r)

/-- `DECODE_LOM` (43 R242). -/
def decodeLom (bs : Bits) : Option (Instr × Bits) :=
  (countOnes 15 bs).bind (fun p => decodeLomValue p.1 p.2)

/-! ### Command words (30 R110, R111) -/

/-- Which unit a command goes to (30 R112). -/
inductive Port where
  | enc
  | dec
  deriving DecidableEq, Repr

/-- The profile's code: 0 LEGACY, 1 STANDARD (10 R33, 30 R110). -/
def Profile.code : Profile → Bool
  | .legacy => false
  | .standard => true

/-- The profile a `PROF` bit names (30 R110). -/
def Profile.ofCode (b : Bool) : Profile :=
  if b then .standard else .legacy

/-- `OP = word[1:0]` (30 R110). -/
def opOf (lo : Byte) : BitVec 2 :=
  lo.extractLsb' 0 2

/-- `PROF = word[2]` (30 R110). -/
def profOf (lo : Byte) : Bool :=
  lo.getLsbD 2

/-- The unit that takes this operation: `OP[1]` is 0 for ENC and 1 for DEC (30 R110, R112). -/
def portOf (op : BitVec 2) : Port :=
  if op.getLsbD 1 then .dec else .enc

/-- The operations that carry a payload, and so no profile, are the two with `OP[0] = 1` (30 R110). -/
def hasPayload (op : BitVec 2) : Bool :=
  op.getLsbD 0

/-- No bit is set that must be 0: the reserved bits, `PROF` outside INIT, `FLG` outside DEC_DECOMPRESS (30 R110, R112). -/
def wordOk (lo hi : Byte) : Bool :=
  lo.extractLsb' 3 5 == 0#5 && !(hasPayload (opOf lo) && profOf lo) && (opOf lo == 3#2 || hi == 0#8)

/-- `LEN` and exactly `LEN` bytes (30 R110). -/
def payloadOf : List Byte → Option (List Byte)
  | b0 :: b1 :: b2 :: b3 :: bytes => if fromLe32 b0 b1 b2 b3 = bytes.length then some bytes else none
  | _ => none

/-- The command after its word: nothing follows an INIT, `LEN` and the payload follow the others (30 R110, R111). -/
def decodeOperands (lo hi : Byte) (rest : List Byte) : Option Instr :=
  match (opOf lo).toNat with
  | 0 => if rest = [] then some (.encInit (Profile.ofCode (profOf lo))) else none
  | 1 => (payloadOf rest).map .encCompress
  | 2 => if rest = [] then some (.decInit (Profile.ofCode (profOf lo))) else none
  | _ => (payloadOf rest).map (.decDecompress hi)

/-- One serialised command: the word least-significant byte first, then its operands (30 R110, R113). -/
def decodeCommand : List Byte → Except DecodeError Instr
  | lo :: hi :: rest =>
    if wordOk lo hi then
      match decodeOperands lo hi rest with
      | some i => .ok i
      | none => .error .brokenTransaction
    else .error .reservedWord
  | _ => .error .brokenTransaction

/-! ### One decoder over all contexts -/

/-- Where the bytes are read: the command port, a token's head in one of the two offset codes, or a length-of-match part.
The same bits mean different instructions in different contexts (43 R234, R242). -/
inductive Context where
  | command
  | head (code : OffsetCode)
  | lom
  deriving DecidableEq, Repr

/-- A stream context on the bits that remain. -/
def decodePart : Context → Bits → Option (Instr × Bits)
  | .command, _ => none
  | .head code, bs => decodeHead code bs
  | .lom, bs => decodeLom bs

/-- Decode any bytes in a context: the instruction and the stream bits left after it, or the named reason there is none. -/
def decode (c : Context) (bytes : List Byte) : Except DecodeError (Instr × Bits) :=
  match c with
  | .command => (decodeCommand bytes).map (fun i => (i, []))
  | .head code =>
    match decodeHead code (bytesBits bytes) with
    | some r => .ok r
    | none => .error .truncated
  | .lom =>
    match decodeLom (bytesBits bytes) with
    | some r => .ok r
    | none => .error .truncated

/-! ### The encoder, from the same tables (30 R101 to R104, R110) -/

/-- The unary class code of length-of-match class `n`: `n - 1` one-bits and a zero-bit (30 R103). -/
def lomClassCode (n : Nat) : Bits :=
  List.replicate (n - 1) true ++ [false]

/-- The bits of a token part in wire order (30 R101 to R104). A command has none. -/
def tokenBits : Instr → Bits
  | .litLo v => [false] ++ field v
  | .litHi v => [true, false] ++ field v
  | .matchO6 o => [true, true, true, true, true] ++ field o
  | .matchO8 o => [true, true, true, true, false] ++ field o
  | .matchO11 o => [true, true, true, false] ++ field o
  | .matchO16 o => [true, true, false] ++ field o
  | .matchO6L o => [true, true, true, true] ++ field o
  | .matchO8L o => [true, true, true, false] ++ field o
  | .matchO13L o => [true, true, false] ++ field o
  | .lom3 => [false]
  | .lomC2 l => lomClassCode 2 ++ field l
  | .lomC3 l => lomClassCode 3 ++ field l
  | .lomC4 l => lomClassCode 4 ++ field l
  | .lomC5 l => lomClassCode 5 ++ field l
  | .lomC6 l => lomClassCode 6 ++ field l
  | .lomC7 l => lomClassCode 7 ++ field l
  | .lomC8 l => lomClassCode 8 ++ field l
  | .lomC9 l => lomClassCode 9 ++ field l
  | .lomC10 l => lomClassCode 10 ++ field l
  | .lomC11 l => lomClassCode 11 ++ field l
  | .lomC12 l => lomClassCode 12 ++ field l
  | .lomC13 l => lomClassCode 13 ++ field l
  | .lomC14 l => lomClassCode 14 ++ field l
  | .lomC15 l => lomClassCode 15 ++ field l
  | .lomReserved => List.replicate 15 true
  | .encInit _ | .encCompress _ | .decInit _ | .decDecompress _ _ => []

/-- The number of stream bits of a token part (30 R101 to R104, R106). A command has none. -/
def Instr.width : Instr → Nat
  | .litLo _ => 8
  | .litHi _ => 9
  | .matchO6 _ => 11
  | .matchO8 _ => 13
  | .matchO11 _ => 15
  | .matchO16 _ => 19
  | .matchO6L _ => 10
  | .matchO8L _ => 12
  | .matchO13L _ => 16
  | .lom3 => 1
  | .lomC2 _ => 4
  | .lomC3 _ => 6
  | .lomC4 _ => 8
  | .lomC5 _ => 10
  | .lomC6 _ => 12
  | .lomC7 _ => 14
  | .lomC8 _ => 16
  | .lomC9 _ => 18
  | .lomC10 _ => 20
  | .lomC11 _ => 22
  | .lomC12 _ => 24
  | .lomC13 _ => 26
  | .lomC14 _ => 28
  | .lomC15 _ => 30
  | .lomReserved => 15
  | .encInit _ | .encCompress _ | .decInit _ | .decDecompress _ _ => 0

/-- The command word of 30 R110 and R111 (`PROF` is bit 2, `FLG` the high byte). A token part has none. -/
def commandWord : Instr → BitVec 16
  | .encInit p => if p.code then 0x0004#16 else 0x0000#16
  | .encCompress _ => 0x0001#16
  | .decInit p => if p.code then 0x0006#16 else 0x0002#16
  | .decDecompress flags _ => flags ++ 0x03#8
  | _ => 0#16

/-- `LEN` and the payload, where the command carries one (30 R110). -/
def payloadBytes : Instr → List Byte
  | .encCompress chunk => le32 chunk.length ++ chunk
  | .decDecompress _ payload => le32 payload.length ++ payload
  | _ => []

/-- A command as its serialised bytes (30 R110, R113). -/
def commandBytes (i : Instr) : List Byte :=
  le16 (commandWord i) ++ payloadBytes i

/-- The context an instruction is read in. -/
def Instr.context : Instr → Context
  | .litLo _ | .litHi _ | .matchO6 _ | .matchO8 _ | .matchO11 _ | .matchO16 _ => .head .doc
  | .matchO6L _ | .matchO8L _ | .matchO13L _ => .head .rfc2118
  | .lom3 | .lomC2 _ | .lomC3 _ | .lomC4 _ | .lomC5 _ | .lomC6 _ | .lomC7 _ | .lomC8 _ | .lomC9 _ | .lomC10 _
  | .lomC11 _ | .lomC12 _ | .lomC13 _ | .lomC14 _ | .lomC15 _ | .lomReserved => .lom
  | .encInit _ | .encCompress _ | .decInit _ | .decDecompress _ _ => .command

/-- The bytes of an instruction: a command serialised, a token part packed MSB-first and padded with 0-bits. -/
def encode (i : Instr) : List Byte :=
  match i.context with
  | .command => commandBytes i
  | .head _ | .lom => packBits (tokenBits i)

/-! ### One word of the opcode table (log 21) -/

/-- A part that takes exactly these bits in this context. -/
def exactPart (c : Context) (bs : Bits) : Option (Context × Instr) :=
  match decodePart c bs with
  | some (i, []) => some (c, i)
  | _ => none

/-- The serialised command whose word is `w` and whose operand words are zeros. -/
def tableCommandBytes (w : Nat) : List Byte :=
  le16 (BitVec.ofNat 16 w) ++ (if hasPayload (opOf (BitVec.ofNat 8 w)) then le32 0 else [])

/-- The command of a 16-bit table word. -/
def tableCommand (nbits w : Nat) : Option (Context × Instr) :=
  if nbits = 16 then
    match decodeCommand (tableCommandBytes w) with
    | .ok i => some (.command, i)
    | .error _ => none
  else none

/-- The context and instruction of a table row's word. A stream row's pattern is one number whose most significant bit is
first on the wire, so its bits are `natBits nbits w`; a command row is a 16-bit word. The row is the one that takes exactly
`nbits` bits: a length-of-match part, else a command, else a token head, the document's code before RFC2118's (log 21). -/
def tableRead (nbits w : Nat) : Option (Context × Instr) :=
  let bits := natBits nbits w
  (exactPart .lom bits).or <| (tableCommand nbits w).or <|
    (exactPart (.head .doc) bits).or (exactPart (.head .rfc2118) bits)

/-- The instruction this decoder reads from a word of `nbits` bits of spec/opcode_table.json. -/
def decodeTableWord (nbits w : Nat) : Option Instr :=
  (tableRead nbits w).map Prod.snd

end Sys2Proof
end

