-- ==== Sys2Proof/Machine/State.lean ====
section
/-! DEFINITION. The machine's state: one encoder unit, one decoder unit, the parameters and the host's two queues, as
plain data; the reasons a step can stop; and the state after power-on. -/

namespace Sys2Proof.Machine

/-- A History Buffer store: the bytes that have a value, as (index, byte) cells with strictly rising indices (20 R70). An
unlisted index has no value (20 R73, log 10). -/
abbrev Memory := List Host.Cell

/-- The HashSlot table: the slots with `VALID = 1`, as (hash, index) pairs with strictly rising hashes. An unlisted slot is
`EMPTY` (10 R37, log 14). -/
abbrev SlotTable := List (Nat × Nat)

/-- The History Buffer: the store and its write cursor (10 R35, R36, R42). -/
structure HistBuf where
  cursor : Nat
  mem : Memory
  deriving DecidableEq, Repr

/-- The session state machine's state (10 R34). -/
inductive Session where
  | fresh
  | active
  deriving DecidableEq, Repr

/-- Which part of a token the decoder reads next: a head, or the length-of-match part of a match (43 R234). -/
inductive Part where
  | head
  | lom
  deriving DecidableEq, Repr

/-- The encoder unit: its persistent registers (10 R32 to R39), then the working registers of one ENC_COMPRESS (10 R49). -/
structure EncUnit where
  /-- `ENC.READY` (10 R32). -/
  ready : Bool
  /-- `ENC.PROFILE` (10 R33). -/
  profile : Profile
  /-- `ENC.SESSION` (10 R34). -/
  session : Session
  /-- `ENC.CURSOR` and `ENC.HIST` (10 R35, R36). -/
  hb : HistBuf
  /-- `ENC.SLOT` (10 R37). -/
  slots : SlotTable
  /-- `ENC.STATUS` (10 R39). -/
  status : Byte
  /-- A command is running on the unit (60 R330, 70 R370). -/
  busy : Bool
  /-- `In`, the chunk; `inLen` is its length (20 R70). -/
  chunk : List Byte
  /-- `atf`: the history was reset in this command (44 R275, R276, R281). -/
  atFront : Bool
  /-- `START` (44 R277). -/
  start : Nat
  /-- `END` (44 R277). -/
  stop : Nat
  /-- `P`, the scan position (10 R31). -/
  pos : Nat
  /-- `HV`, the hash at `P` (41 R174). -/
  hv : BitVec 16
  /-- `CAND`, the slot content read at `P` (41 R174). -/
  cand : Option Nat
  /-- `L`, the length of the current match (41 R177). -/
  len : Nat
  /-- `OFF`, the copy-offset of the current match (41 R178). -/
  off : Nat
  /-- `OUT`, its first `OUTBITS` bits; `OUTBITS` is the length (42 R200, log 13). -/
  out : Bits
  /-- The MODEL's own counter: how many free choices a finder other than the reference has made (log 17). -/
  draws : Nat
  deriving DecidableEq, Repr

/-- The decoder unit: its persistent registers (10 R40 to R45), then the working registers of one DEC_DECOMPRESS (10 R49). -/
structure DecUnit where
  /-- `DEC.READY` (10 R40). -/
  ready : Bool
  /-- `DEC.PROFILE` (10 R41). -/
  profile : Profile
  /-- `DEC.CURSOR` and `DEC.HIST` (10 R42). -/
  hb : HistBuf
  /-- `DEC.STATUS` (10 R45). -/
  status : Byte
  /-- `DEC.FAULT_POS` (10 R45). -/
  faultPos : BitVec 35
  /-- A command is running on the unit (60 R330, 70 R370). -/
  busy : Bool
  /-- What the decoder reads next (43 R234). -/
  part : Part
  /-- `In`, the payload; `inLen` is its length (20 R70). -/
  input : List Byte
  /-- `BITPOS` (10 R31). -/
  bitPos : Nat
  /-- `TOKSTART` (43 R245). -/
  tokStart : Nat
  /-- `OUTSTART` (44 R285). -/
  outStart : Nat
  /-- `OFF` (43 R241). -/
  off : Nat
  /-- `L` (43 R242). -/
  len : Nat
  deriving DecidableEq, Repr

/-- When a transaction of the host arrives at its port (70 R370, log 4). -/
inductive Arrival where
  /-- The host waits until the unit runs no command, as 20 R85 asks of it. -/
  | whenIdle
  /-- After `n` more steps, whether or not the unit runs a command then. -/
  | after (n : Nat)
  deriving DecidableEq, Repr

/-- One command transaction: the port it is sent to and its serialised bytes (30 R110, R113). -/
structure HostCommand where
  port : Port
  arrival : Arrival
  bytes : List Byte
  deriving DecidableEq, Repr

/-- One response, as the bytes the port returns (30 R113). -/
structure Response where
  port : Port
  bytes : List Byte
  deriving DecidableEq, Repr

/-- The whole machine. -/
structure State where
  /-- The parameters of 00 R9. -/
  params : Params
  enc : EncUnit
  dec : DecUnit
  /-- Transactions the host has sent or will send, the next one first. -/
  inbox : List HostCommand
  /-- Responses, the oldest first. -/
  outbox : List Response
  deriving DecidableEq, Repr

/-- The reasons a step stops with a fault. -/
inductive Fault where
  /-- Raised by a match copy, a scan step or the output of a decoded packet that reads `Hist[i]` with `i ≥ CURSOR`, or a
  byte that has no value. SAFE: 20 R73 says that no rule makes such a read, and gives it no value (log 10). -/
  | staleHistory
  deriving DecidableEq, Repr

/-- The reasons a step refuses. -/
inductive Refusal where
  /-- Raised by an arm of `exec` whose instruction has no meaning yet. SAFE: nothing is claimed of it. No arm does so. -/
  | notModelled (mnemonic : String)
  /-- Raised by the command port for a transaction that is not a whole command (no word, or `LEN` and the payload do not
  match). SAFE: the spec gives no such transaction and no answer to it (log 6). -/
  | brokenTransaction
  deriving DecidableEq, Repr

/-- An encoder unit after power-on: `READY = 0` is the spec's (10 R54), no command runs (70 R360), and every other value is
a DESIGN CHOICE (log 8, log 9; unsafe): the spec calls these registers unspecified. -/
def EncUnit.powerOn : EncUnit where
  ready := false
  profile := .legacy
  session := .fresh
  hb := { cursor := 0, mem := [] }
  slots := []
  status := 0#8
  busy := false
  chunk := []
  atFront := false
  start := 0
  stop := 0
  pos := 0
  hv := 0#16
  cand := none
  len := 0
  off := 0
  out := []
  draws := 0

/-- A decoder unit after power-on, as `EncUnit.powerOn` (10 R54; log 8, log 9). -/
def DecUnit.powerOn : DecUnit where
  ready := false
  profile := .legacy
  hb := { cursor := 0, mem := [] }
  status := 0#8
  faultPos := 0#35
  busy := false
  part := .head
  input := []
  bitPos := 0
  tokStart := 0
  outStart := 0
  off := 0
  len := 0

/-- The machine after power-on (10 R54, 70 R360), with the default parameters of 00 R9 and nothing sent by the host. -/
def State.reset : State where
  params := Params.default
  enc := EncUnit.powerOn
  dec := DecUnit.powerOn
  inbox := []
  outbox := []

end Sys2Proof.Machine
end

