-- ==== Sys2Proof/Machine/Flags.lean ====
section
/-! DEFINITION. The two flag layouts: the FLAGS byte of a packet and the STATUS register of a unit. -/

namespace Sys2Proof.Machine

/-! ### The FLAGS byte (30 R107) -/

/-- A profile's code as the `TYPE` field, `T` (10 R33, 30 R107). -/
def typeOf (p : Profile) : BitVec 4 :=
  if p.code then 1#4 else 0#4

/-- `TYPE = FLAGS[3:0]` (30 R107). -/
def flagsType (f : Byte) : BitVec 4 :=
  f.extractLsb' 0 4

/-- `COMPRESSED = FLAGS[5]` (30 R107). -/
def flagCompressed (f : Byte) : Bool :=
  f.getLsbD 5

/-- `AT_FRONT = FLAGS[6]` (30 R107). -/
def flagAtFront (f : Byte) : Bool :=
  f.getLsbD 6

/-- `FLUSHED = FLAGS[7]` (30 R107). -/
def flagFlushed (f : Byte) : Bool :=
  f.getLsbD 7

/-- The FLAGS byte of a compressed result: `0x20 | (atf << 6) | T` (44 R280). -/
def flagsOfCompressed (atFront : Bool) (p : Profile) : Byte :=
  (if atFront then 0x60#8 else 0x20#8) ||| (typeOf p).setWidth 8

/-- The FLAGS byte of the expansion fallback: `0x80 | T` (44 R279). -/
def flagsOfFallback (p : Profile) : Byte :=
  0x80#8 ||| (typeOf p).setWidth 8

/-! ### The STATUS byte (10 R39, 60 R320) -/

/-- The errors and causes of 60 R320. -/
inductive DecError where
  | overflowLiteral
  | overflowMatch
  | truncated
  | offsetZero
  | offsetBeyondCursor
  | lomCode
  | otherProfile
  | unknownType
  deriving DecidableEq, Repr

/-- `CODE`: 1 Overflow, 2 MalformedToken, 3 ProfileMismatch (60 R320). -/
def DecError.code : DecError → BitVec 2
  | .overflowLiteral | .overflowMatch => 1#2
  | .truncated | .offsetZero | .offsetBeyondCursor | .lomCode => 2#2
  | .otherProfile | .unknownType => 3#2

/-- `CAUSE` within the code (60 R320). -/
def DecError.cause : DecError → BitVec 3
  | .overflowLiteral => 1#3
  | .overflowMatch => 2#3
  | .truncated => 1#3
  | .offsetZero => 2#3
  | .offsetBeyondCursor => 3#3
  | .lomCode => 4#3
  | .otherProfile => 1#3
  | .unknownType => 2#3

/-- `STATUS = {CAUSE[2:0], CODE[1:0]}` with `STATUS[7:5] = 0` (10 R39, 60 R320). -/
def DecError.status (e : DecError) : Byte :=
  0#3 ++ e.cause ++ e.code

/-- `CODE = STATUS[1:0]` (10 R39). -/
def statusCode (st : Byte) : BitVec 2 :=
  st.extractLsb' 0 2

/-- Which ProfileMismatch a wrong `TYPE` is (60 R323): it names the other profile, or none. -/
def mismatchOf (f : Byte) : DecError :=
  if (flagsType f).toNat < 2 then .otherProfile else .unknownType

end Sys2Proof.Machine
end

