-- ==== Sys2Proof/Machine/Operands.lean ====
section
/-! DEFINITION. Operand forms: the parameters a profile selects, the value each token field means, the form the encoder
chooses for a value, and the hash of three bytes. -/

namespace Sys2Proof.Machine

/-! ### What a profile selects -/

/-- `CAPACITY` (00 R9). -/
def capacity : Profile → Nat
  | .legacy => 8192
  | .standard => 65536

/-- The copy-offset code a unit uses: RFC2118's only in a LEGACY unit of a machine that selects it (30 R104). -/
def offsetCodeOf (params : Params) (p : Profile) : OffsetCode :=
  match p with
  | .legacy => params.legacyOffsetCode
  | .standard => .doc

/-- `ceil8(n)` (00 R13). -/
def ceil8 (n : Nat) : Nat :=
  (n + 7) / 8

/-! ### The value of a decoded field (30 R114) -/

/-- A literal's byte: `v`, or `0x80 + v`. -/
def loByte (v : BitVec 7) : Byte :=
  0#1 ++ v

/-- A high literal's byte: `0x80 + v`. -/
def hiByte (v : BitVec 7) : Byte :=
  1#1 ++ v

/-- A field plus its form's base, zero-extended. -/
def based {w : Nat} (base : Nat) (v : BitVec w) : Nat :=
  base + v.toNat

/-! ### The form the encoder chooses (30 R115, 42 R202, R205, R206) -/

/-- The literal form of a byte (42 R202). -/
def literalForm (c : Byte) : Instr :=
  if c.toNat < 0x80 then .litLo (c.extractLsb' 0 7) else .litHi (c.extractLsb' 0 7)

/-- The copy-offset form in the document's code (42 R205). -/
def offsetFormDoc (off : Nat) : Instr :=
  if off ≤ 63 then .matchO6 (BitVec.ofNat 6 off)
  else if off ≤ 319 then .matchO8 (BitVec.ofNat 8 (off - 64))
  else if off ≤ 2367 then .matchO11 (BitVec.ofNat 11 (off - 320))
  else .matchO16 (BitVec.ofNat 16 (off - 2368))

/-- The copy-offset form in RFC2118's code (42 R205). -/
def offsetFormLegacy (off : Nat) : Instr :=
  if off ≤ 63 then .matchO6L (BitVec.ofNat 6 off)
  else if off ≤ 319 then .matchO8L (BitVec.ofNat 8 (off - 64))
  else .matchO13L (BitVec.ofNat 13 (off - 320))

/-- The copy-offset form in the unit's code (42 R205). -/
def offsetForm : OffsetCode → Nat → Instr
  | .doc => offsetFormDoc
  | .rfc2118 => offsetFormLegacy

/-- The length-of-match form: `LOM3`, or the class of `floor_log2(L)` (42 R206). -/
def lengthForm (len : Nat) : Instr :=
  match Nat.log2 len with
  | 0 => .lom3
  | 1 => .lom3
  | 2 => .lomC2 (BitVec.ofNat 2 (len - 4))
  | 3 => .lomC3 (BitVec.ofNat 3 (len - 8))
  | 4 => .lomC4 (BitVec.ofNat 4 (len - 16))
  | 5 => .lomC5 (BitVec.ofNat 5 (len - 32))
  | 6 => .lomC6 (BitVec.ofNat 6 (len - 64))
  | 7 => .lomC7 (BitVec.ofNat 7 (len - 128))
  | 8 => .lomC8 (BitVec.ofNat 8 (len - 256))
  | 9 => .lomC9 (BitVec.ofNat 9 (len - 512))
  | 10 => .lomC10 (BitVec.ofNat 10 (len - 1024))
  | 11 => .lomC11 (BitVec.ofNat 11 (len - 2048))
  | 12 => .lomC12 (BitVec.ofNat 12 (len - 4096))
  | 13 => .lomC13 (BitVec.ofNat 13 (len - 8192))
  | 14 => .lomC14 (BitVec.ofNat 14 (len - 16384))
  | _ => .lomC15 (BitVec.ofNat 15 (len - 32768))

/-! ### HASH16 (41 R170, R171) -/

/-- One of the eight shifts that make a table entry, in the CRC's direction (41 R171). -/
def crcShift (h : HashParams) (c : BitVec 16) : BitVec 16 :=
  if h.reflected then (c >>> 1) ^^^ (if c.getLsbD 0 then h.poly else 0#16)
  else (c <<< 1) ^^^ (if c.getLsbD 15 then h.poly else 0#16)

/-- `CRC_TABLE[i]` (41 R171); the unreflected direction is the other reading of "polynomial table" (log 16). -/
def crcTable (h : HashParams) (i : Byte) : BitVec 16 :=
  Nat.repeat (crcShift h) 8 (if h.reflected then i.setWidth 16 else i.setWidth 16 <<< 8)

/-- "byte-wise update" (41 R170). -/
def crcUpdate (h : HashParams) (crc : BitVec 16) (x : Byte) : BitVec 16 :=
  if h.reflected then (crc >>> 8) ^^^ crcTable h ((crc ^^^ x.setWidth 16).setWidth 8)
  else (crc <<< 8) ^^^ crcTable h (((crc >>> 8) ^^^ x.setWidth 16).setWidth 8)

/-- `HASH16(a, b, c)` from the initial value all-ones (41 R170). -/
def hash16 (h : HashParams) (a b c : Byte) : BitVec 16 :=
  crcUpdate h (crcUpdate h (crcUpdate h 0xFFFF#16 a) b) c ^^^ h.xorOut

end Sys2Proof.Machine
end

