-- ==== Sys2Proof/Machine/Ops.lean ====
section
/-! DEFINITION. The named operations over memories and registers: sorted tables, the History Buffer, responses, and
raising an error with its one return. -/

namespace Sys2Proof.Machine

/-! ### Sorted tables: the History Buffer store and the slot table -/

/-- Read an index; nothing where it is not listed. -/
def tableGet {β : Type} : List (Nat × β) → Nat → Option β
  | [], _ => none
  | (k, v) :: rest, a => if k = a then some v else tableGet rest a

/-- Write an index, keeping the indices strictly rising. -/
def tablePut {β : Type} : List (Nat × β) → Nat → β → List (Nat × β)
  | [], a, v => [(a, v)]
  | (k, w) :: rest, a, v =>
    if a < k then (a, v) :: (k, w) :: rest
    else if a = k then (a, v) :: rest
    else (k, w) :: tablePut rest a v

/-- The canonical form: strictly rising indices, so that equal tables are equal lists. -/
abbrev tableWf {β : Type} (t : List (Nat × β)) : Prop :=
  t.Pairwise (fun x y => x.1 < y.1)

/-- The canonical form of a History Buffer store. No entry equals what an unlisted index reads as, since that is no value. -/
abbrev Memory.wf (m : Memory) : Prop :=
  tableWf m

/-! ### The History Buffer (40 R150 to R154) -/

/-- The write half of HB_APPEND, for a caller that has checked the room (40 R151). -/
def HistBuf.push (h : HistBuf) (b : Byte) : HistBuf :=
  { cursor := h.cursor + 1, mem := tablePut h.mem h.cursor b }

/-- HB_APPEND(b); nothing where capacity would be exceeded (40 R151). -/
def HistBuf.append (cap : Nat) (h : HistBuf) (b : Byte) : Option HistBuf :=
  if h.cursor + 1 > cap then none else some (h.push b)

/-- `n` HB_APPENDs in order, for a caller that has checked the room once (40 R151, R155). -/
def HistBuf.pushAll (h : HistBuf) (bytes : List Byte) : HistBuf :=
  bytes.foldl HistBuf.push h

/-- HB_RESET: the cursor becomes 0 and the bytes stay in place (10 R36, 40 R152). -/
def HistBuf.reset (h : HistBuf) : HistBuf :=
  { h with cursor := 0 }

/-- HB_READ(i): a byte below the cursor; an index at or above it has no value (40 R153, 20 R73). -/
def HistBuf.read (h : HistBuf) (i : Nat) : Option Byte :=
  if i < h.cursor then tableGet h.mem i else none

/-- `n` HB_READs from index `i` up (40 R153). -/
def HistBuf.readRange (h : HistBuf) : Nat → Nat → Option (List Byte)
  | _, 0 => some []
  | i, n + 1 =>
    match h.read i, h.readRange (i + 1) n with
    | some b, some bs => some (b :: bs)
    | _, _ => none

/-- HB_COPY(off, L), one byte at a time, each read after the write before it (40 R154). Its last argument is `L`. -/
def HistBuf.copy (off : Nat) (h : HistBuf) : Nat → Option HistBuf
  | 0 => some h
  | n + 1 =>
    match h.read (h.cursor - off) with
    | some b => (h.push b).copy off n
    | none => none

/-- HB_RESET in an encoder also empties every slot (40 R152). -/
def EncUnit.resetHistory (e : EncUnit) : EncUnit :=
  { e with hb := e.hb.reset, slots := [] }

/-- HB_RESET in a decoder (40 R152). -/
def DecUnit.resetHistory (d : DecUnit) : DecUnit :=
  { d with hb := d.hb.reset }

/-! ### Responses (30 R113) -/

/-- Return a response to the host. -/
def State.reply (s : State) (port : Port) (bytes : List Byte) : State :=
  { s with outbox := s.outbox ++ [{ port := port, bytes := bytes }] }

/-- `OUTLEN` and the output bytes (30 R113). -/
def outputBytes (out : List Byte) : List Byte :=
  le32 out.length ++ out

/-- An ENC_COMPRESS response: status 0, FLAGS, OUTLEN, output (30 R113, 60 R324). -/
def compressReply (flags : Byte) (out : List Byte) : List Byte :=
  0x00#8 :: flags :: outputBytes out

/-- A DEC_DECOMPRESS response on success: status 0, OUTLEN, output (30 R113). -/
def decompressReply (out : List Byte) : List Byte :=
  0x00#8 :: outputBytes out

/-- A refusal: one byte, and nothing else changes (60 R329, R330). -/
def State.refuse (s : State) (port : Port) (code : Byte) : State :=
  s.reply port [code]

/-! ### Raising an error and returning from one (60 R325, R326, R332) -/

/-- `raise E(cause)` in the decoder: it saves the STATUS byte and the fault position, ends the command, and answers the
STATUS byte alone. The History Buffer keeps what it held (60 R325, R326; log 11). -/
def State.raise (s : State) (e : DecError) (pos : Nat) : State :=
  State.reply
    { s with dec := { s.dec with status := e.status, faultPos := BitVec.ofNat 35 pos, busy := false } }
    .dec [e.status]

/-- An error raised while a token is decoded or executed records `TOKSTART` (43 R245, 60 R326). -/
def State.raiseToken (s : State) (e : DecError) : State :=
  s.raise e s.dec.tokStart

/-- DEC_INIT, the one return from an error and the decoder's reset (44 R272, 60 R332, 70 R361). -/
def DecUnit.init (d : DecUnit) (p : Profile) : DecUnit :=
  { d.resetHistory with ready := true, profile := p, status := 0#8, faultPos := 0#35, busy := false }

/-- ENC_INIT, the encoder's reset (44 R271, 70 R361). -/
def EncUnit.init (e : EncUnit) (p : Profile) : EncUnit :=
  { e.resetHistory with ready := true, profile := p, session := .fresh, status := 0#8, busy := false }

end Sys2Proof.Machine
end

