-- ==== Sys2Proof/Machine/Finder.lean ====
section
/-! DEFINITION. The match finder and the bitstream encoder: one scan position at a time (41 R173 to R184, 42 R200 to R209). -/

namespace Sys2Proof.Machine

/-! ### Emission (42 R202, R209) -/

/-- Append a token part's bits to `OUT` (42 R200, R201). -/
def EncUnit.put (e : EncUnit) (i : Instr) : EncUnit :=
  { e with out := e.out ++ tokenBits i }

/-- EMIT_LITERAL(c) (42 R202). -/
def EncUnit.emitLiteral (e : EncUnit) (c : Byte) : EncUnit :=
  e.put (literalForm c)

/-- EMIT_MATCH(off, L): the copy-offset part, then the length-of-match part (42 R209). -/
def EncUnit.emitMatch (e : EncUnit) (code : OffsetCode) (off len : Nat) : EncUnit :=
  (e.put (offsetForm code off)).put (lengthForm len)

/-! ### Reading the chunk and the candidate -/

/-- The hash of the three bytes at an index (41 R170, R174). -/
def HistBuf.hashAt (h : HistBuf) (hash : HashParams) (i : Nat) : Option (BitVec 16) :=
  match h.read i, h.read (i + 1), h.read (i + 2) with
  | some a, some b, some c => some (hash16 hash a b c)
  | _, _, _ => none

/-- Whether `n` bytes at two indices agree; with `n = 3` this is MF_VERIFY (41 R176). -/
def HistBuf.agree (h : HistBuf) (i j n : Nat) : Option Bool :=
  match h.readRange i n, h.readRange j n with
  | some x, some y => some (x == y)
  | _, _ => none

/-- MF_EXTEND: lengthen a match from `len` while the next bytes agree and lie before `stop` (41 R177). The first argument
bounds the loop. -/
def HistBuf.extend (h : HistBuf) (stop cand pos : Nat) : Nat → Nat → Option Nat
  | 0, len => some len
  | fuel + 1, len =>
    if pos + len < stop then
      match h.read (cand + len), h.read (pos + len) with
      | some x, some y => if x = y then h.extend stop cand pos fuel (len + 1) else some len
      | _, _ => none
    else some len

/-- MF_INSERT_INTERIOR: `n` positions from `q` up, in increasing order, those with three bytes left before `stop`
(41 R179). -/
def HistBuf.insertInterior (h : HistBuf) (hash : HashParams) (stop : Nat) : Nat → Nat → SlotTable → Option SlotTable
  | 0, _, slots => some slots
  | n + 1, q, slots =>
    if q + 3 ≤ stop then
      match h.hashAt hash q with
      | some hv => h.insertInterior hash stop n (q + 1) (tablePut slots hv.toNat q)
      | none => none
    else h.insertInterior hash stop n (q + 1) slots

/-! ### One position (41 R173 to R180) -/

/-- The position becomes a Literal (41 R175, R176, R180). Nothing where the byte has no value. -/
def EncUnit.literalHere (e : EncUnit) : Option EncUnit :=
  (e.hb.read e.pos).map (fun c => { e.emitLiteral c with pos := e.pos + 1 })

/-- MF_LOOKUP: read the slot, then write `P` into it (41 R174). -/
def EncUnit.lookup (e : EncUnit) (hash : HashParams) : Option EncUnit :=
  (e.hb.hashAt hash e.pos).map (fun hv =>
    { e with hv := hv, cand := tableGet e.slots hv.toNat, slots := tablePut e.slots hv.toNat e.pos })

/-- A match of length `len` with the candidate `c` is emitted and the position moves past it (41 R178, R181). -/
def EncUnit.takeMatch (e : EncUnit) (code : OffsetCode) (c len : Nat) : EncUnit :=
  { e.emitMatch code (e.pos - c) len with off := e.pos - c, len := len, pos := e.pos + len }

/-- MF_EXTEND, EMIT_MATCH and MF_INSERT_INTERIOR for a verified candidate (41 R177 to R179). -/
def EncUnit.matchHere (e : EncUnit) (params : Params) (c : Nat) : Option EncUnit :=
  match e.hb.extend e.stop c e.pos (e.stop - e.pos) 3 with
  | some len =>
    (e.hb.insertInterior params.hash e.stop (len - 1) (e.pos + 1) e.slots).map (fun slots =>
      { e.takeMatch (offsetCodeOf params e.profile) c len with slots := slots })
  | none => none

/-- The reference finder's decision after its lookup (41 R175, R176). -/
def EncUnit.choose (e : EncUnit) (params : Params) : Option EncUnit :=
  match e.cand with
  | none => e.literalHere
  | some c =>
    if e.pos < 2 then e.literalHere
    else
      match e.hb.agree c e.pos 3 with
      | some true => e.matchHere params c
      | some false => e.literalHere
      | none => none

/-- A hashable position under the reference finder (41 R181). -/
def EncUnit.scanReference (e : EncUnit) (params : Params) : Option EncUnit :=
  (e.lookup params.hash).bind (fun e => e.choose params)

/-- Whether a proposed match keeps the bounds of 41 R182 before its bytes are compared; the first two positions of an epoch
are Literals for every finder (41 R175). -/
def EncUnit.admissible (e : EncUnit) (c len : Nat) : Bool :=
  2 ≤ e.pos && c < e.pos && 3 ≤ len && e.pos + len ≤ e.stop

/-- A hashable position under a finder other than the reference: a freely proposed match is emitted where it is verified,
else a Literal (41 R184, log 17). -/
def EncUnit.scanOther (e : EncUnit) (params : Params) : Option EncUnit :=
  let proposal := Config.proposedMatch e.draws
  let e' := { e with draws := e.draws + 1 }
  if e.admissible proposal.1 proposal.2 then
    match e.hb.agree proposal.1 e.pos proposal.2 with
    | some true => some (e'.takeMatch (offsetCodeOf params e.profile) proposal.1 proposal.2)
    | some false => e'.literalHere
    | none => none
  else e'.literalHere

/-- One turn of MF_SCAN's loop (41 R181). Nothing where it reads a byte without a value, which no run does (20 R73). -/
def EncUnit.scanOne (e : EncUnit) (params : Params) : Option EncUnit :=
  if e.stop < e.pos + 3 then e.literalHere
  else
    match params.finder with
    | .reference => e.scanReference params
    | .other => e.scanOther params

end Sys2Proof.Machine
end

