-- ==== Sys2Proof/Machine/Commands.lean ====
section
/-! DEFINITION. The four host commands, and the end of an ENC_COMPRESS and of a DEC_DECOMPRESS (44 R270 to R289). -/

namespace Sys2Proof.Machine

/-! ### The encoder's commands -/

/-- ENC_INIT(profile) (44 R271). -/
def execEncInit (p : Profile) (s : State) : Host.Outcome State Fault Refusal :=
  .next (State.reply { s with enc := s.enc.init p } .enc [0x00#8])

/-- The expansion fallback: HB_RESET, SESSION FRESH, FLUSHED and a copy of the input (44 R274, R279). -/
def State.encFallback (s : State) (chunk : List Byte) : State :=
  State.reply
    { s with enc := { s.enc.resetHistory with session := .fresh, busy := false } }
    .enc (compressReply (flagsOfFallback s.enc.profile) chunk)

/-- The compressed result (44 R280). -/
def State.encResult (s : State) : State :=
  State.reply
    { s with enc := { s.enc with busy := false } }
    .enc (compressReply (flagsOfCompressed s.enc.atFront s.enc.profile) (packBits s.enc.out))

/-- FINISH and the expansion check (42 R207, 44 R279, R280). -/
def State.encFinish (s : State) : State :=
  if ceil8 s.enc.out.length ≥ s.enc.chunk.length then s.encFallback s.enc.chunk else s.encResult

/-- Whether this ENC_COMPRESS resets the history before it encodes: the Fresh start or the capacity check
(44 R275, R276). -/
def EncUnit.startsEpoch (e : EncUnit) (chunk : List Byte) : Bool :=
  e.session == .fresh || decide (e.hb.cursor + chunk.length > capacity e.profile)

/-- The reset decision, the load and the start of the scan (44 R275 to R278). -/
def EncUnit.load (e : EncUnit) (chunk : List Byte) : EncUnit :=
  let atf := e.startsEpoch chunk
  let e := if atf then e.resetHistory else e
  { e with
    session := .active, busy := true, chunk := chunk, atFront := atf
    start := e.hb.cursor, pos := e.hb.cursor, stop := e.hb.cursor + chunk.length
    hb := e.hb.pushAll chunk, out := [] }

/-- ENC_COMPRESS(chunk), up to the start of the scan, which the unit then runs position by position (44 R281, log 1). -/
def execEncCompress (chunk : List Byte) (s : State) : Host.Outcome State Fault Refusal :=
  if !s.enc.ready then .next (s.refuse .enc 0xE0#8)
  else if chunk.length > capacity s.enc.profile then .next (s.encFallback chunk)
  else .next { s with enc := s.enc.load chunk }

/-- What a running ENC_COMPRESS does next: one position, or the end of the command (41 R181, 44 R278 to R280). -/
def encAdvance (s : State) : Host.Outcome State Fault Refusal :=
  if s.enc.pos < s.enc.stop then
    match s.enc.scanOne s.params with
    | some e => .next { s with enc := e }
    | none => .fault .staleHistory
  else .next s.encFinish

/-! ### The decoder's commands -/

/-- DEC_INIT(profile) (44 R272, 60 R332). -/
def execDecInit (p : Profile) (s : State) : Host.Outcome State Fault Refusal :=
  .next (State.reply { s with dec := s.dec.init p } .dec [0x00#8])

/-- The reset decision, and `OUTSTART <- CURSOR` (44 R285). -/
def DecUnit.openPacket (d : DecUnit) (flags : Byte) : DecUnit :=
  let d := if flagAtFront flags || flagFlushed flags then d.resetHistory else d
  { d with outStart := d.hb.cursor }

/-- A FLUSHED payload is appended where it fits (44 R286). -/
def DecUnit.appendRaw (d : DecUnit) (payload : List Byte) : DecUnit :=
  if payload.length ≤ capacity d.profile then { d with hb := d.hb.pushAll payload } else d

/-- DECODE_STREAM starts: `BITPOS <- 0`, a token head is read first (43 R250). DESIGN CHOICE (log 26): `TOKSTART` is 0 until
the first token writes it (43 R245); 10 R49 leaves it undefined until then, and nothing reads it. -/
def DecUnit.startStream (d : DecUnit) (payload : List Byte) : DecUnit :=
  { d with busy := true, part := .head, input := payload, bitPos := 0, tokStart := 0 }

/-- A packet whose profile has been checked and which is not plain (44 R285 to R288). -/
def State.decPacket (s : State) (flags : Byte) (payload : List Byte) : State :=
  let d := s.dec.openPacket flags
  if flagFlushed flags then
    State.reply { s with dec := d.appendRaw payload } .dec (decompressReply payload)
  else if !flagCompressed flags then State.reply { s with dec := d } .dec (decompressReply payload)
  else { s with dec := d.startStream payload }

/-- DEC_DECOMPRESS(FLAGS, payload), up to the start of DECODE_STREAM, which the unit then runs part by part
(44 R289, log 1). -/
def execDecDecompress (flags : Byte) (payload : List Byte) (s : State) : Host.Outcome State Fault Refusal :=
  if !s.dec.ready then .next (s.refuse .dec 0xE0#8)
  else if statusCode s.dec.status ≠ 0#2 then .next (s.reply .dec [s.dec.status])
  else if !flagCompressed flags && !flagAtFront flags && !flagFlushed flags then
    .next (s.reply .dec (decompressReply payload))
  else if flagsType flags ≠ typeOf s.dec.profile then .next (s.raise (mismatchOf flags) 0)
  else .next (s.decPacket flags payload)

/-- The end of DECODE_STREAM: the bytes `Hist[OUTSTART .. CURSOR-1]` are the output (43 R250, R251). -/
def decFinish (s : State) : Host.Outcome State Fault Refusal :=
  match s.dec.hb.readRange s.dec.outStart (s.dec.hb.cursor - s.dec.outStart) with
  | some out => .next (State.reply { s with dec := { s.dec with busy := false } } .dec (decompressReply out))
  | none => .fault .staleHistory

end Sys2Proof.Machine
end

