-- ==== Sys2Proof/Machine/LengthOfMatch.lean ====
section
/-! DEFINITION. The length-of-match parts LOM3, LOM.C2 to LOM.C15 and LOM.RESERVED, and the execution of a match
(43 R242, R243, R246 to R249). -/

namespace Sys2Proof.Machine

/-- `L <- len`, after which the match is executed and a token head is read next (43 R234, R242). -/
def State.takeLength (s : State) (len : Nat) : State :=
  { s with dec := { s.dec with len := len, part := .head } }

/-- `OFF` is a value above 8191 of OFF13_L, of which 30 R104 says that it fails the check of 43 R247. -/
def State.offsetAbove8191 (s : State) : Bool :=
  offsetCodeOf s.params s.dec.profile == .rfc2118 && decide (8191 < s.dec.off)

/-- The check of 43 R247: `OFF > CURSOR`. For an OFF13_L value above 8191 that is not above `CURSOR`, 30 R104 says that it fails
and 43 R246 that it passes, so a FREE VALUE decides (log 27). -/
def State.offsetBeyond (s : State) : Bool :=
  decide (s.dec.hb.cursor < s.dec.off) || (s.offsetAbove8191 && Config.offsetAbove8191Fails)

/-- The error a match raises, in the order of 43 R246, if it raises one (43 R247, R248). -/
def State.matchError (s : State) (len : Nat) : Option DecError :=
  if s.dec.off = 0 then some .offsetZero
  else if s.offsetBeyond then some .offsetBeyondCursor
  else if s.dec.hb.cursor + len > capacity s.dec.profile then some .overflowMatch
  else none

/-- EXEC_MATCH(OFF, L): the checks of 43 R246, then HB_COPY (43 R249). -/
def executeMatch (len : Nat) (s : State) : Host.Outcome State Fault Refusal :=
  let t := s.takeLength len
  match s.matchError len with
  | some e => .next (t.raiseToken e)
  | none =>
    match s.dec.hb.copy s.dec.off len with
    | some hb => .next { t with dec := { t.dec with hb := hb } }
    | none => .fault .staleHistory

/-- LOM3: `L = 3` (43 R242). -/
def execLom3 (s : State) : Host.Outcome State Fault Refusal :=
  executeMatch 3 s

/-- LOM.C2: `L = 4 + v` (43 R242). -/
def execLomC2 (l : BitVec 2) (s : State) : Host.Outcome State Fault Refusal :=
  executeMatch (based 4 l) s

/-- LOM.C3: `L = 8 + v` (43 R242). -/
def execLomC3 (l : BitVec 3) (s : State) : Host.Outcome State Fault Refusal :=
  executeMatch (based 8 l) s

/-- LOM.C4: `L = 16 + v` (43 R242). -/
def execLomC4 (l : BitVec 4) (s : State) : Host.Outcome State Fault Refusal :=
  executeMatch (based 16 l) s

/-- LOM.C5: `L = 32 + v` (43 R242). -/
def execLomC5 (l : BitVec 5) (s : State) : Host.Outcome State Fault Refusal :=
  executeMatch (based 32 l) s

/-- LOM.C6: `L = 64 + v` (43 R242). -/
def execLomC6 (l : BitVec 6) (s : State) : Host.Outcome State Fault Refusal :=
  executeMatch (based 64 l) s

/-- LOM.C7: `L = 128 + v` (43 R242). -/
def execLomC7 (l : BitVec 7) (s : State) : Host.Outcome State Fault Refusal :=
  executeMatch (based 128 l) s

/-- LOM.C8: `L = 256 + v` (43 R242). -/
def execLomC8 (l : BitVec 8) (s : State) : Host.Outcome State Fault Refusal :=
  executeMatch (based 256 l) s

/-- LOM.C9: `L = 512 + v` (43 R242). -/
def execLomC9 (l : BitVec 9) (s : State) : Host.Outcome State Fault Refusal :=
  executeMatch (based 512 l) s

/-- LOM.C10: `L = 1024 + v` (43 R242). -/
def execLomC10 (l : BitVec 10) (s : State) : Host.Outcome State Fault Refusal :=
  executeMatch (based 1024 l) s

/-- LOM.C11: `L = 2048 + v` (43 R242). -/
def execLomC11 (l : BitVec 11) (s : State) : Host.Outcome State Fault Refusal :=
  executeMatch (based 2048 l) s

/-- LOM.C12: `L = 4096 + v` (43 R242). -/
def execLomC12 (l : BitVec 12) (s : State) : Host.Outcome State Fault Refusal :=
  executeMatch (based 4096 l) s

/-- LOM.C13: `L = 8192 + v` (43 R242). -/
def execLomC13 (l : BitVec 13) (s : State) : Host.Outcome State Fault Refusal :=
  executeMatch (based 8192 l) s

/-- LOM.C14: `L = 16384 + v` (43 R242). -/
def execLomC14 (l : BitVec 14) (s : State) : Host.Outcome State Fault Refusal :=
  executeMatch (based 16384 l) s

/-- LOM.C15: `L = 32768 + v` (43 R242). -/
def execLomC15 (l : BitVec 15) (s : State) : Host.Outcome State Fault Refusal :=
  executeMatch (based 32768 l) s

/-- LOM.RESERVED: fifteen one-bits raise MalformedToken(LOM_PREFIX) (43 R243). -/
def execLomReserved (s : State) : Host.Outcome State Fault Refusal :=
  .next (s.raiseToken .lomCode)

end Sys2Proof.Machine
end

