-- ==== Sys2Proof/Machine/Literal.lean ====
section
/-! DEFINITION. The literal tokens LIT.LO and LIT.HI (43 R235, R236). -/

namespace Sys2Proof.Machine

/-- Append a decoded byte, or raise Overflow(DEC_LITERAL) at `CURSOR = CAPACITY` (43 R235, R236). -/
def decodeLiteral (b : Byte) (s : State) : Host.Outcome State Fault Refusal :=
  match s.dec.hb.append (capacity s.dec.profile) b with
  | some hb => .next { s with dec := { s.dec with hb := hb } }
  | none => .next (s.raiseToken .overflowLiteral)

/-- LIT.LO appends `v` (43 R235). -/
def execLitLo (v : BitVec 7) (s : State) : Host.Outcome State Fault Refusal :=
  decodeLiteral (loByte v) s

/-- LIT.HI appends `0x80 + v` (43 R236). -/
def execLitHi (v : BitVec 7) (s : State) : Host.Outcome State Fault Refusal :=
  decodeLiteral (hiByte v) s

end Sys2Proof.Machine
end

