-- ==== Sys2Proof/Machine/MatchOffset.lean ====
section
/-! DEFINITION. The copy-offset parts of a match, MATCH.O6 to MATCH.O13L (43 R237 to R241, R244). -/

namespace Sys2Proof.Machine

/-- `OFF <- off`; the length-of-match part is read next (43 R234, R241). No check is made before that part has been read
(43 R246). -/
def takeOffset (off : Nat) (s : State) : Host.Outcome State Fault Refusal :=
  .next { s with dec := { s.dec with off := off, part := .lom } }

/-- MATCH.O6: `OFF = v` (43 R237). -/
def execMatchO6 (o : BitVec 6) (s : State) : Host.Outcome State Fault Refusal :=
  takeOffset (based 0 o) s

/-- MATCH.O8: `OFF = v + 64` (43 R238). -/
def execMatchO8 (o : BitVec 8) (s : State) : Host.Outcome State Fault Refusal :=
  takeOffset (based 64 o) s

/-- MATCH.O11: `OFF = v + 320` (43 R239). -/
def execMatchO11 (o : BitVec 11) (s : State) : Host.Outcome State Fault Refusal :=
  takeOffset (based 320 o) s

/-- MATCH.O16: `OFF = v + 2368` (43 R240). -/
def execMatchO16 (o : BitVec 16) (s : State) : Host.Outcome State Fault Refusal :=
  takeOffset (based 2368 o) s

/-- MATCH.O6L: `OFF = v` (43 R244). -/
def execMatchO6L (o : BitVec 6) (s : State) : Host.Outcome State Fault Refusal :=
  takeOffset (based 0 o) s

/-- MATCH.O8L: `OFF = v + 64` (43 R244). -/
def execMatchO8L (o : BitVec 8) (s : State) : Host.Outcome State Fault Refusal :=
  takeOffset (based 64 o) s

/-- MATCH.O13L: `OFF = v + 320` (43 R244). -/
def execMatchO13L (o : BitVec 13) (s : State) : Host.Outcome State Fault Refusal :=
  takeOffset (based 320 o) s

end Sys2Proof.Machine
end

