-- ==== Sys2Proof/Machine/Dispatch.lean ====
section
/-! DEFINITION. One arm per instruction. -/

namespace Sys2Proof.Machine

/-- The meaning of an instruction. -/
def exec (i : Instr) (s : State) : Host.Outcome State Fault Refusal :=
  match i with
  | .litLo v => Sys2Proof.Machine.execLitLo v s
  | .litHi v => Sys2Proof.Machine.execLitHi v s
  | .matchO6 o => Sys2Proof.Machine.execMatchO6 o s
  | .matchO8 o => Sys2Proof.Machine.execMatchO8 o s
  | .matchO11 o => Sys2Proof.Machine.execMatchO11 o s
  | .matchO16 o => Sys2Proof.Machine.execMatchO16 o s
  | .matchO6L o => Sys2Proof.Machine.execMatchO6L o s
  | .matchO8L o => Sys2Proof.Machine.execMatchO8L o s
  | .matchO13L o => Sys2Proof.Machine.execMatchO13L o s
  | .lom3 => Sys2Proof.Machine.execLom3 s
  | .lomC2 l => Sys2Proof.Machine.execLomC2 l s
  | .lomC3 l => Sys2Proof.Machine.execLomC3 l s
  | .lomC4 l => Sys2Proof.Machine.execLomC4 l s
  | .lomC5 l => Sys2Proof.Machine.execLomC5 l s
  | .lomC6 l => Sys2Proof.Machine.execLomC6 l s
  | .lomC7 l => Sys2Proof.Machine.execLomC7 l s
  | .lomC8 l => Sys2Proof.Machine.execLomC8 l s
  | .lomC9 l => Sys2Proof.Machine.execLomC9 l s
  | .lomC10 l => Sys2Proof.Machine.execLomC10 l s
  | .lomC11 l => Sys2Proof.Machine.execLomC11 l s
  | .lomC12 l => Sys2Proof.Machine.execLomC12 l s
  | .lomC13 l => Sys2Proof.Machine.execLomC13 l s
  | .lomC14 l => Sys2Proof.Machine.execLomC14 l s
  | .lomC15 l => Sys2Proof.Machine.execLomC15 l s
  | .lomReserved => Sys2Proof.Machine.execLomReserved s
  | .encInit p => Sys2Proof.Machine.execEncInit p s
  | .encCompress chunk => Sys2Proof.Machine.execEncCompress chunk s
  | .decInit p => Sys2Proof.Machine.execDecInit p s
  | .decDecompress flags payload => Sys2Proof.Machine.execDecDecompress flags payload s

end Sys2Proof.Machine
end

