-- ==== Sys2Proof/Machine/Fetch.lean ====
section
/-! DEFINITION. What the machine does next: take a transaction at a command port, read the next part of a token stream, or
move a running ENC_COMPRESS on (30 R112, 43 R232 to R234, 60 R328 to R330, 70 R370). -/

namespace Sys2Proof.Machine

/-- What a step does: it runs a decoded instruction from a state, or it settles at once. -/
inductive Action where
  | run (i : Instr) (s : State)
  | settle (o : Host.Outcome State Fault Refusal)

/-! ### The command ports -/

/-- Whether the unit behind a port runs a command (70 R370). -/
def State.busy (s : State) (port : Port) : Bool :=
  match port with
  | .enc => s.enc.busy
  | .dec => s.dec.busy

/-- A transaction that has arrived, already taken from the inbox: the refusals of 60 R330 in the order of its table, each
before the READY test that the commands themselves make, and otherwise the command. -/
def State.receive (s : State) (c : HostCommand) : Action :=
  match c.bytes with
  | lo :: hi :: _ =>
    if !wordOk lo hi then .settle (.next (s.refuse c.port 0xE1#8))
    else if portOf (opOf lo) ≠ c.port then .settle (.next (s.refuse c.port 0xE2#8))
    else if s.busy c.port then .settle (.next (s.refuse c.port 0xE3#8))
    else
      match decodeCommand c.bytes with
      | .ok i => .run i s
      | .error _ => .settle (.refused .brokenTransaction)
  | _ => .settle (.refused .brokenTransaction)

/-! ### The token stream -/

/-- The bits of the payload from `BITPOS` on (43 R230). -/
def DecUnit.bitsLeft (d : DecUnit) : Bits :=
  (bytesBits d.input).drop d.bitPos

/-- `BITPOS` moves past the part that was read (43 R231). -/
def State.passBits (s : State) (n : Nat) : State :=
  { s with dec := { s.dec with bitPos := s.dec.bitPos + n } }

/-- Run the part that was read, or raise TRUNCATED where the bits ran out inside it (43 R233). DESIGN CHOICE (log 28): `BITPOS`
then stays at the part's first bit, not past the bits that GetBits had already read; 10 R49 gives it no value once the command
has ended. -/
def State.runPart (s : State) (r : Option (Instr × Bits)) : Action :=
  match r with
  | some (i, _) => .run i (s.passBits i.width)
  | none => .settle (.next (s.raiseToken .truncated))

/-- `TOKSTART <- BITPOS` (43 R234, R245). -/
def State.startToken (s : State) : State :=
  { s with dec := { s.dec with tokStart := s.dec.bitPos } }

/-- The decoder's next part: a new token only while 8 or more bits remain (43 R232), else the end of the stream. -/
def State.fetchPart (s : State) : Action :=
  match s.dec.part with
  | .head =>
    if 8 * s.dec.input.length < s.dec.bitPos + 8 then .settle (decFinish s)
    else s.startToken.runPart (decodeHead (offsetCodeOf s.params s.dec.profile) s.dec.bitsLeft)
  | .lom => s.runPart (decodeLom s.dec.bitsLeft)

/-! ### Which comes next -/

/-- The running commands move on, the decoder's before the encoder's (log 20); an idle machine keeps its state (60 R340). -/
def State.advance (s : State) : Action :=
  if s.dec.busy then s.fetchPart
  else if s.enc.busy then .settle (encAdvance s)
  else .settle (.next s)

/-- Whether a transaction arrives now (log 4). -/
def HostCommand.due (c : HostCommand) (s : State) : Bool :=
  match c.arrival with
  | .whenIdle => !s.busy c.port
  | .after n => n == 0

/-- One step has passed for a transaction that has not arrived. -/
def HostCommand.tick (c : HostCommand) : HostCommand :=
  match c.arrival with
  | .whenIdle => c
  | .after n => { c with arrival := .after (n - 1) }

/-- What the machine does next. -/
def State.fetch (s : State) : Action :=
  match s.inbox with
  | c :: rest =>
    if c.due s then State.receive { s with inbox := rest } c
    else State.advance { s with inbox := c.tick :: rest }
  | [] => s.advance

end Sys2Proof.Machine
end

