-- ==== Sys2Proof/Machine/Step.lean ====
section
/-! DEFINITION. One step of the machine, and the placing of one opcode-table word where the next step fetches. -/

namespace Sys2Proof.Machine

/-- One step: what is fetched runs, or settles (00 R5, 70 R380). -/
def step (s : State) : Host.Outcome State Fault Refusal :=
  match s.fetch with
  | .run i t => exec i t
  | .settle o => o

/-- A part of a token stream placed as the running decoder's payload, with zero bytes behind it (log 21). -/
def State.withStream (s : State) (part : Part) (bits : Bits) : State :=
  { s with
    inbox := []
    dec := { s.dec with
      busy := true, part := part, bitPos := 0, input := packBits bits ++ [0#8, 0#8, 0#8, 0#8] } }

/-- The copy-offset code under which a token head is read: RFC2118's code needs a LEGACY unit (30 R104). -/
def State.withCode (s : State) (code : OffsetCode) : State :=
  { s with
    params := { s.params with legacyOffsetCode := code }
    dec := { s.dec with profile := if code = .rfc2118 then .legacy else s.dec.profile } }

/-- A command placed as the one transaction that arrives now at its idle unit (log 21). -/
def State.withCommand (s : State) (bytes : List Byte) (port : Port) : State :=
  { s with
    inbox := [{ port := port, arrival := .after 0, bytes := bytes }]
    enc := { s.enc with busy := s.enc.busy && port != .enc }
    dec := { s.dec with busy := s.dec.busy && port != .dec } }

/-- The state whose next step fetches and runs the instruction of this opcode-table word. -/
def State.withFetchWord (s : State) (nbits w : Nat) : State :=
  match tableRead nbits w with
  | some (.command, _) => s.withCommand (tableCommandBytes w) (portOf (opOf (BitVec.ofNat 8 w)))
  | some (.lom, _) => s.withStream .lom (natBits nbits w)
  | some (.head code, _) => (s.withCode code).withStream .head (natBits nbits w)
  | none => s.withStream .head (natBits nbits w)

end Sys2Proof.Machine
end

