-- ==== Sys2Proof/Safety.lean ====
section
/-! DEFINITION. What a good state is: the invariants of the History Buffers, the slot table, the status registers and the
working registers of a running command, and the lock-step of the two units. -/

namespace Sys2Proof.Machine

/-- A History Buffer in order: canonical store, a byte at every index below the cursor (20 R72), every index in the address
space (20 R70), and `CURSOR ≤ CAPACITY` (40 R156). -/
structure HistBuf.Good (h : HistBuf) (cap : Nat) : Prop where
  wf : Memory.wf h.mem
  filled : ∀ i, i < h.cursor → (tableGet h.mem i).isSome
  bounded : ∀ x ∈ h.mem, x.1 < 65536
  fits : h.cursor ≤ cap

/-- The slot table in order: canonical, hashes of 16 bits, and every index with three bytes before the cursor
(10 R37, R38). -/
structure SlotsGood (slots : SlotTable) (cursor : Nat) : Prop where
  wf : tableWf slots
  key : ∀ x ∈ slots, x.1 < 65536
  index : ∀ x ∈ slots, x.2 + 3 ≤ cursor

/-- The working registers of a running ENC_COMPRESS: the chunk stands at `START .. END-1` (44 R277), the scan position is
inside it (10 R31), every slot names an earlier position (41 R174), and no byte scanned so far cost more than nine bits
(10 R50). -/
structure EncUnit.Scanning (e : EncUnit) : Prop where
  ready : e.ready = true
  active : e.session = .active
  atEnd : e.stop = e.hb.cursor
  loaded : e.start + e.chunk.length = e.stop
  chunkBytes : e.hb.readRange e.start e.chunk.length = some e.chunk
  low : e.start ≤ e.pos
  high : e.pos ≤ e.stop
  earlier : ∀ x ∈ e.slots, x.2 < e.pos
  outBits : e.out.length ≤ 9 * (e.pos - e.start)

/-- An encoder unit in order: its History Buffer, its slots, `STATUS = 0` (10 R39, 60 R324), and a running command. -/
structure EncUnit.Good (e : EncUnit) : Prop where
  hist : e.hb.Good (capacity e.profile)
  slots : SlotsGood e.slots e.hb.cursor
  status : e.status = 0#8
  scan : e.busy = true → e.Scanning

/-- The working registers of a running DEC_DECOMPRESS: no fault, a payload that fits `LEN` (10 R51), and the bit cursor
inside it (10 R31). -/
structure DecUnit.Streaming (d : DecUnit) : Prop where
  ready : d.ready = true
  noFault : d.status = 0#8
  inputFits : d.input.length < 2 ^ 32
  outputStart : d.outStart ≤ d.hb.cursor
  bitPos : d.bitPos ≤ 8 * d.input.length
  tokStart : d.tokStart ≤ d.bitPos

/-- The STATUS values of 60 R320: success, or one of its errors. -/
def StatusLegal (st : Byte) : Prop :=
  st = 0#8 ∨ ∃ e : DecError, st = e.status

/-- A decoder unit in order: its History Buffer, a legal STATUS with `FAULT_POS = 0` while there is no fault, the widths of
`OFF` and `L` (10 R49), and a running command. -/
structure DecUnit.Good (d : DecUnit) : Prop where
  hist : d.hb.Good (capacity d.profile)
  status : StatusLegal d.status
  faultPos : d.status = 0#8 → d.faultPos = 0#35
  off : d.off ≤ 67903
  len : d.len ≤ 65535
  stream : d.busy = true → d.Streaming

/-- The machine's invariant. -/
structure Inv (s : State) : Prop where
  enc : s.enc.Good
  dec : s.dec.Good

/-- Two History Buffers that hold the same epoch: equal cursors and equal bytes below them (44 R291). -/
def HistBuf.SameEpoch (g h : HistBuf) : Prop :=
  g.cursor = h.cursor ∧ ∀ i, g.read i = h.read i

/-- The two ends of a channel in lock-step between packets: both initialised with one profile, no fault, no command
running, and equal histories where the encoder is ACTIVE (44 R291 item 1; a FRESH encoder resets both with its next packet,
70 R364). -/
structure LockStep (s : State) : Prop where
  encReady : s.enc.ready = true
  decReady : s.dec.ready = true
  profile : s.dec.profile = s.enc.profile
  noFault : s.dec.status = 0#8
  encIdle : s.enc.busy = false
  decIdle : s.dec.busy = false
  epoch : s.enc.session = .active → s.enc.hb.SameEpoch s.dec.hb

end Sys2Proof.Machine
end

