-- ==== Sys2Proof/Certificates/Slice0/Obligations.lean ====
section
/-! DEFINITION. The statements for the provers. Each docstring names the rule of spec/ it formalises, or says that it is
derived. `R<n>` is a numbered rule of spec/. -/

namespace Sys2Proof.Claims

open Sys2Proof Sys2Proof.Machine

/-! ### Words the statements share -/

/-- The length a length-of-match part names (R103, R114). -/
def LengthMeans : Instr → Nat → Prop
  | .lom3, n => n = 3
  | .lomC2 l, n => n = 4 + l.toNat
  | .lomC3 l, n => n = 8 + l.toNat
  | .lomC4 l, n => n = 16 + l.toNat
  | .lomC5 l, n => n = 32 + l.toNat
  | .lomC6 l, n => n = 64 + l.toNat
  | .lomC7 l, n => n = 128 + l.toNat
  | .lomC8 l, n => n = 256 + l.toNat
  | .lomC9 l, n => n = 512 + l.toNat
  | .lomC10 l, n => n = 1024 + l.toNat
  | .lomC11 l, n => n = 2048 + l.toNat
  | .lomC12 l, n => n = 4096 + l.toNat
  | .lomC13 l, n => n = 8192 + l.toNat
  | .lomC14 l, n => n = 16384 + l.toNat
  | .lomC15 l, n => n = 32768 + l.toNat
  | _, _ => False

/-- The copy-offset a copy-offset part names (R102, R104, R114). -/
def OffsetMeans : Instr → Nat → Prop
  | .matchO6 o, n => n = o.toNat
  | .matchO8 o, n => n = 64 + o.toNat
  | .matchO11 o, n => n = 320 + o.toNat
  | .matchO16 o, n => n = 2368 + o.toNat
  | .matchO6L o, n => n = o.toNat
  | .matchO8L o, n => n = 64 + o.toNat
  | .matchO13L o, n => n = 320 + o.toNat
  | _, _ => False

/-- The byte a literal names (R101, R114). -/
def LiteralMeans : Instr → Nat → Prop
  | .litLo v, n => n = v.toNat
  | .litHi v, n => n = 0x80 + v.toNat
  | _, _ => False

/-- A response of `port` is added to those returned before. -/
def answered (s : State) (port : Port) (bytes : List Byte) : List Response :=
  s.outbox ++ [{ port := port, bytes := bytes }]

/-- The host sends one command and waits for the unit to be idle. -/
def sends (s : State) (port : Port) (i : Instr) : State :=
  { s with inbox := [{ port := port, arrival := .whenIdle, bytes := encode i }] }

/-- The machine is left alone from `s` and reaches `t`, in at most `n` steps. -/
def ReachesWithin (n : Nat) (s t : State) : Prop :=
  ∃ k, k ≤ n ∧ Host.Core.run Sys2Proof.core k s = .next t

/-- The machine is left alone from `s` and reaches `t`. -/
def Reaches (s t : State) : Prop :=
  ∃ n, ReachesWithin n s t

/-- A state in which the encoder's next scan position is what the machine does next. -/
structure ScanNext (s : State) : Prop where
  inv : Inv s
  noCommand : s.inbox = []
  decIdle : s.dec.busy = false
  encBusy : s.enc.busy = true
  left : s.enc.pos < s.enc.stop

/-- A state in which the decoder's next token part is what the machine does next. -/
structure DecodeNext (s : State) : Prop where
  noCommand : s.inbox = []
  decBusy : s.dec.busy = true

/-- An error inside a token: STATUS, the token's start as fault position, the command ended, the STATUS byte alone
answered, and nothing else changed (R325, R326). -/
def tokenError (s : State) (st : Byte) : State :=
  { s with
    dec := { s.dec with status := st, faultPos := BitVec.ofNat 35 s.dec.tokStart, busy := false }
    outbox := answered s .dec [st] }

/-- The table of R171, row by row. -/
def crcTableRows : List (BitVec 16) :=
  [0x0000#16, 0x1189#16, 0x2312#16, 0x329B#16, 0x4624#16, 0x57AD#16, 0x6536#16, 0x74BF#16] ++
  [0x8C48#16, 0x9DC1#16, 0xAF5A#16, 0xBED3#16, 0xCA6C#16, 0xDBE5#16, 0xE97E#16, 0xF8F7#16] ++
  [0x1081#16, 0x0108#16, 0x3393#16, 0x221A#16, 0x56A5#16, 0x472C#16, 0x75B7#16, 0x643E#16] ++
  [0x9CC9#16, 0x8D40#16, 0xBFDB#16, 0xAE52#16, 0xDAED#16, 0xCB64#16, 0xF9FF#16, 0xE876#16] ++
  [0x2102#16, 0x308B#16, 0x0210#16, 0x1399#16, 0x6726#16, 0x76AF#16, 0x4434#16, 0x55BD#16] ++
  [0xAD4A#16, 0xBCC3#16, 0x8E58#16, 0x9FD1#16, 0xEB6E#16, 0xFAE7#16, 0xC87C#16, 0xD9F5#16] ++
  [0x3183#16, 0x200A#16, 0x1291#16, 0x0318#16, 0x77A7#16, 0x662E#16, 0x54B5#16, 0x453C#16] ++
  [0xBDCB#16, 0xAC42#16, 0x9ED9#16, 0x8F50#16, 0xFBEF#16, 0xEA66#16, 0xD8FD#16, 0xC974#16] ++
  [0x4204#16, 0x538D#16, 0x6116#16, 0x709F#16, 0x0420#16, 0x15A9#16, 0x2732#16, 0x36BB#16] ++
  [0xCE4C#16, 0xDFC5#16, 0xED5E#16, 0xFCD7#16, 0x8868#16, 0x99E1#16, 0xAB7A#16, 0xBAF3#16] ++
  [0x5285#16, 0x430C#16, 0x7197#16, 0x601E#16, 0x14A1#16, 0x0528#16, 0x37B3#16, 0x263A#16] ++
  [0xDECD#16, 0xCF44#16, 0xFDDF#16, 0xEC56#16, 0x98E9#16, 0x8960#16, 0xBBFB#16, 0xAA72#16] ++
  [0x6306#16, 0x728F#16, 0x4014#16, 0x519D#16, 0x2522#16, 0x34AB#16, 0x0630#16, 0x17B9#16] ++
  [0xEF4E#16, 0xFEC7#16, 0xCC5C#16, 0xDDD5#16, 0xA96A#16, 0xB8E3#16, 0x8A78#16, 0x9BF1#16] ++
  [0x7387#16, 0x620E#16, 0x5095#16, 0x411C#16, 0x35A3#16, 0x242A#16, 0x16B1#16, 0x0738#16] ++
  [0xFFCF#16, 0xEE46#16, 0xDCDD#16, 0xCD54#16, 0xB9EB#16, 0xA862#16, 0x9AF9#16, 0x8B70#16] ++
  [0x8408#16, 0x9581#16, 0xA71A#16, 0xB693#16, 0xC22C#16, 0xD3A5#16, 0xE13E#16, 0xF0B7#16] ++
  [0x0840#16, 0x19C9#16, 0x2B52#16, 0x3ADB#16, 0x4E64#16, 0x5FED#16, 0x6D76#16, 0x7CFF#16] ++
  [0x9489#16, 0x8500#16, 0xB79B#16, 0xA612#16, 0xD2AD#16, 0xC324#16, 0xF1BF#16, 0xE036#16] ++
  [0x18C1#16, 0x0948#16, 0x3BD3#16, 0x2A5A#16, 0x5EE5#16, 0x4F6C#16, 0x7DF7#16, 0x6C7E#16] ++
  [0xA50A#16, 0xB483#16, 0x8618#16, 0x9791#16, 0xE32E#16, 0xF2A7#16, 0xC03C#16, 0xD1B5#16] ++
  [0x2942#16, 0x38CB#16, 0x0A50#16, 0x1BD9#16, 0x6F66#16, 0x7EEF#16, 0x4C74#16, 0x5DFD#16] ++
  [0xB58B#16, 0xA402#16, 0x9699#16, 0x8710#16, 0xF3AF#16, 0xE226#16, 0xD0BD#16, 0xC134#16] ++
  [0x39C3#16, 0x284A#16, 0x1AD1#16, 0x0B58#16, 0x7FE7#16, 0x6E6E#16, 0x5CF5#16, 0x4D7C#16] ++
  [0xC60C#16, 0xD785#16, 0xE51E#16, 0xF497#16, 0x8028#16, 0x91A1#16, 0xA33A#16, 0xB2B3#16] ++
  [0x4A44#16, 0x5BCD#16, 0x6956#16, 0x78DF#16, 0x0C60#16, 0x1DE9#16, 0x2F72#16, 0x3EFB#16] ++
  [0xD68D#16, 0xC704#16, 0xF59F#16, 0xE416#16, 0x90A9#16, 0x8120#16, 0xB3BB#16, 0xA232#16] ++
  [0x5AC5#16, 0x4B4C#16, 0x79D7#16, 0x685E#16, 0x1CE1#16, 0x0D68#16, 0x3FF3#16, 0x2E7A#16] ++
  [0xE70E#16, 0xF687#16, 0xC41C#16, 0xD595#16, 0xA12A#16, 0xB0A3#16, 0x8238#16, 0x93B1#16] ++
  [0x6B46#16, 0x7ACF#16, 0x4854#16, 0x59DD#16, 0x2D62#16, 0x3CEB#16, 0x0E70#16, 0x1FF9#16] ++
  [0xF78F#16, 0xE606#16, 0xD49D#16, 0xC514#16, 0xB1AB#16, 0xA022#16, 0x92B9#16, 0x8330#16] ++
  [0x7BC7#16, 0x6A4E#16, 0x58D5#16, 0x495C#16, 0x3DE3#16, 0x2C6A#16, 0x1EF1#16, 0x0F78#16]

end Sys2Proof.Claims

open Sys2Proof Sys2Proof.Machine Sys2Proof.Claims

/-! ### Encoding and decoding -/

/-- Words written out bit by bit from the tables of R101 to R104 and R110, one or more of each family (tier 1, derived). -/
def Obligations.WrittenWordsDecode : Prop :=
  decodeHead .doc [false, true, false, false, false, false, false, true] = some (.litLo 0x41#7, []) ∧
  decodeHead .doc [true, false, true, true, false, true, false, false, true] = some (.litHi 0x69#7, []) ∧
  decodeHead .doc [true, true, true, true, true, false, false, false, false, true, true] = some (.matchO6 3#6, []) ∧
  decodeHead .rfc2118 [true, true, true, true, false, false, false, false, true, true] = some (.matchO6L 3#6, []) ∧
  decodeLom [false] = some (.lom3, []) ∧
  decodeLom [true, true, false, false, false, true] = some (.lomC3 1#3, []) ∧
  decodeCommand [0x04#8, 0x00#8] = .ok (.encInit .standard) ∧
  decodeCommand [0x03#8, 0x61#8, 0x01#8, 0x00#8, 0x00#8, 0x00#8, 0x41#8] = .ok (.decDecompress 0x61#8 [0x41#8])

/-- Every token part, with every operand, is read back from its own bits, whatever bits follow; the literals are read in
both offset codes (R101 to R105). -/
def Obligations.TokenPartsDecodeFromTheirBits : Prop :=
  ∀ (i : Instr) (rest : Bits),
    (i.context ≠ .command → decodePart i.context (tokenBits i ++ rest) = some (i, rest)) ∧
    (∀ n, LiteralMeans i n → ∀ code, decodeHead code (tokenBits i ++ rest) = some (i, rest))

/-- Every well-formed command is read back from its serialised bytes (R110, R111, R113). -/
def Obligations.CommandsDecodeFromTheirBytes : Prop :=
  ∀ i : Instr, i.wellFormed = true → i.context = .command → decode .command (encode i) = .ok (i, [])

/-- A token part that is read was written with exactly the bits of its own encoding, so each decoded value comes from
exactly one bit string (R115). -/
def Obligations.DecodedPartsComeFromOneBitString : Prop :=
  ∀ (c : Context) (bs rest : Bits) (i : Instr), decodePart c bs = some (i, rest) → bs = tokenBits i ++ rest

/-- The head code is complete: no head is illegal, so 19 bits always begin with a token head (R105). -/
def Obligations.EveryHeadIsLegal : Prop :=
  ∀ (code : OffsetCode) (bs : Bits), 19 ≤ bs.length → ∃ i rest, decodeHead code bs = some (i, rest)

/-- EMIT_LITERAL, EMIT_OFFSET and EMIT_LOM write the bits their rules' pseudocode writes (R202, R205, R206). -/
def Obligations.EmittedBitsFollowThePseudocode : Prop :=
  (∀ c : Byte, tokenBits (literalForm c) =
    if c.toNat < 0x80 then natBits 8 c.toNat else [true, false] ++ natBits 7 (c.toNat % 0x80)) ∧
  (∀ off : Nat, 1 ≤ off → off ≤ 65533 → tokenBits (offsetForm .doc off) =
    if off ≤ 63 then [true, true, true, true, true] ++ natBits 6 off
    else if off ≤ 319 then [true, true, true, true, false] ++ natBits 8 (off - 64)
    else if off ≤ 2367 then [true, true, true, false] ++ natBits 11 (off - 320)
    else [true, true, false] ++ natBits 16 (off - 2368)) ∧
  (∀ off : Nat, 1 ≤ off → off ≤ 8191 → tokenBits (offsetForm .rfc2118 off) =
    if off ≤ 63 then [true, true, true, true] ++ natBits 6 off
    else if off ≤ 319 then [true, true, true, false] ++ natBits 8 (off - 64)
    else [true, true, false] ++ natBits 13 (off - 320)) ∧
  (∀ len : Nat, 3 ≤ len → len ≤ 65535 → tokenBits (lengthForm len) =
    if len = 3 then [false]
    else natBits (Nat.log2 len) (2 ^ Nat.log2 len - 2) ++ natBits (Nat.log2 len) (len - 2 ^ Nat.log2 len))

/-- FINISH: `ceil8(OUTBITS)` bytes hold the bits MSB-first, and the fewer than 8 bits after them are 0 (R207). -/
def Obligations.FinishPadsWithZeroBits : Prop :=
  ∀ bs : Bits, (packBits bs).length = ceil8 bs.length ∧
    ∃ pad, pad < 8 ∧ bytesBits (packBits bs) = bs ++ List.replicate pad false

/-- HASH16 with its default parameter on the six triples of R172, which the spec derives from R170 and R171. -/
def Obligations.DefaultHashValues : Prop :=
  hash16 Params.default.hash 0x61#8 0x62#8 0x63#8 = 0x61DA#16 ∧
  hash16 Params.default.hash 0x62#8 0x63#8 0x61#8 = 0xB474#16 ∧
  hash16 Params.default.hash 0x63#8 0x61#8 0x62#8 = 0xEF83#16 ∧
  hash16 Params.default.hash 0x41#8 0x41#8 0x41#8 = 0x69AA#16 ∧
  hash16 Params.default.hash 0x00#8 0x00#8 0x00#8 = 0x3933#16 ∧
  hash16 Params.default.hash 0xFF#8 0xFF#8 0xFF#8 = 0x0F78#16

/-- The default CRC table is the table of R171, entry by entry. -/
def Obligations.DefaultCrcTable : Prop :=
  (List.range 256).map (fun i => crcTable Params.default.hash (BitVec.ofNat 8 i)) = crcTableRows

/-- The STATUS bytes of the error table (R320). -/
def Obligations.StatusByteOfEachError : Prop :=
  DecError.overflowLiteral.status = 0x05#8 ∧ DecError.overflowMatch.status = 0x09#8 ∧
  DecError.truncated.status = 0x06#8 ∧ DecError.offsetZero.status = 0x0A#8 ∧
  DecError.offsetBeyondCursor.status = 0x0E#8 ∧ DecError.lomCode.status = 0x12#8 ∧
  DecError.otherProfile.status = 0x07#8 ∧ DecError.unknownType.status = 0x0B#8

/-- The FLAGS bytes the encoder produces (R108): `0x20 | T`, `0x60 | T`, `0x80 | T` with `T` 0 or 1. -/
def Obligations.EncoderFlagsBytes : Prop :=
  flagsOfCompressed false .legacy = 0x20#8 ∧ flagsOfCompressed false .standard = 0x21#8 ∧
  flagsOfCompressed true .legacy = 0x60#8 ∧ flagsOfCompressed true .standard = 0x61#8 ∧
  flagsOfFallback .legacy = 0x80#8 ∧ flagsOfFallback .standard = 0x81#8

/-! ### Reset and the command ports -/

/-- After power-on both units have `READY = 0` and run no command (R54, R360). That nothing has been sent or answered
then is the model's choice (log 4, log 8). The other registers' values are the model's choice too (log 8, log 9) and are
not stated here. -/
def Obligations.PowerOnIsNotReady : Prop :=
  State.reset.enc.ready = false ∧ State.reset.dec.ready = false ∧
  State.reset.enc.busy = false ∧ State.reset.dec.busy = false ∧
  State.reset.inbox = [] ∧ State.reset.outbox = []

/-- A command that has arrived and that its unit takes is run by the step as `exec` of the decoded instruction, with the
transaction taken from the inbox. The inbox, and that a step takes one transaction from it, are the model's own (log 1,
log 4). -/
def Obligations.StepRunsTheDecodedCommand : Prop :=
  ∀ (s : State) (c : HostCommand) (rest : List HostCommand) (i : Instr),
    s.inbox = c :: rest → c.due s = true → decodeCommand c.bytes = .ok i →
    (c.port = .enc ∧ s.enc.busy = false ∧ ((∃ p, i = .encInit p) ∨ ∃ chunk, i = .encCompress chunk) ∨
     c.port = .dec ∧ s.dec.busy = false ∧ ((∃ p, i = .decInit p) ∨ ∃ f payload, i = .decDecompress f payload)) →
    step s = exec i { s with inbox := rest }

/-- While the decoder runs a packet and no transaction arrives, the step runs the part that the bits at `BITPOS` decode
to, with `BITPOS` moved past it, and `TOKSTART` set where a token begins. A transaction still to come counts the step.
One part to a step is the model's choice (log 1, log 2), which R380 allows; so are the inbox and its counted arrivals
(log 4), and that the decoder's command moves before a running encoder's (log 20). -/
def Obligations.StepRunsTheDecodedTokenPart : Prop :=
  ∀ (s : State) (later : List HostCommand) (i : Instr) (rest : Bits),
    s.dec.busy = true →
    (s.inbox = [] ∧ later = [] ∨ ∃ c cs, s.inbox = c :: cs ∧ c.due s = false ∧ later = c.tick :: cs) →
    (s.dec.part = .head → s.dec.bitPos + 8 ≤ 8 * s.dec.input.length →
      decodeHead (offsetCodeOf s.params s.dec.profile) ((bytesBits s.dec.input).drop s.dec.bitPos) = some (i, rest) →
      step s = exec i { s with
        inbox := later
        dec := { s.dec with tokStart := s.dec.bitPos, bitPos := s.dec.bitPos + i.width } }) ∧
    (s.dec.part = .lom →
      decodeLom ((bytesBits s.dec.input).drop s.dec.bitPos) = some (i, rest) →
      step s = exec i { s with inbox := later, dec := { s.dec with bitPos := s.dec.bitPos + i.width } })

/-- The refusals of R330 in the order of its table, each one byte that changes nothing else: reserved or misplaced bits
0xE1, the wrong unit 0xE2, a busy unit 0xE3. That a step takes the transaction from the inbox, and answers it before any
running command moves on, is the model's choice (log 1, log 4). -/
def Obligations.RefusalsInTheOrderOfTheTable : Prop :=
  ∀ (s : State) (c : HostCommand) (rest : List HostCommand) (lo hi : Byte) (more : List Byte),
    s.inbox = c :: rest → c.due s = true → c.bytes = lo :: hi :: more →
    let misplaced := lo.toNat / 8 ≠ 0 ∨ (lo.getLsbD 2 = true ∧ lo.getLsbD 0 = true) ∨ (hi ≠ 0#8 ∧ lo.toNat % 4 ≠ 3)
    let wrongUnit := (c.port = .enc ∧ lo.getLsbD 1 = true) ∨ (c.port = .dec ∧ lo.getLsbD 1 = false)
    let busy := (c.port = .enc ∧ s.enc.busy = true) ∨ (c.port = .dec ∧ s.dec.busy = true)
    let refused := fun code : Byte => { s with inbox := rest, outbox := answered s c.port [code] }
    (misplaced → step s = .next (refused 0xE1#8)) ∧
    (¬ misplaced → wrongUnit → step s = .next (refused 0xE2#8)) ∧
    (¬ misplaced → ¬ wrongUnit → busy → step s = .next (refused 0xE3#8))

/-- A unit with `READY = 0` refuses ENC_COMPRESS and DEC_DECOMPRESS with 0xE0 and changes nothing; the byte's three high
bits are 1, which those of no STATUS value are (R329). -/
def Obligations.UnreadyUnitsRefuse : Prop :=
  (∀ (s : State) (chunk : List Byte), s.enc.ready = false →
    exec (.encCompress chunk) s = .next { s with outbox := answered s .enc [0xE0#8] }) ∧
  (∀ (s : State) (flags : Byte) (payload : List Byte), s.dec.ready = false →
    exec (.decDecompress flags payload) s = .next { s with outbox := answered s .dec [0xE0#8] }) ∧
  (0xE0#8).toNat / 32 = 7 ∧ ∀ st : Byte, StatusLegal st → st.toNat / 32 = 0

/-- An idle machine keeps its state (R340). -/
def Obligations.IdleMachineKeepsItsState : Prop :=
  ∀ s : State, s.inbox = [] → s.enc.busy = false → s.dec.busy = false → step s = .next s

/-! ### INIT -/

/-- ENC_INIT completes from any state and leaves the encoder initialised, its bytes in place, and the decoder as it was
(R271, R361). That INIT also ends a running command is the model's choice (log 18): R330 refuses it before that. -/
def Obligations.EncInitInitialises : Prop :=
  ∀ (s : State) (p : Profile),
    exec (.encInit p) s = .next { s with
      enc := { s.enc with
        ready := true, profile := p, session := .fresh, status := 0#8, busy := false, slots := []
        hb := { cursor := 0, mem := s.enc.hb.mem } }
      outbox := answered s .enc [0x00#8] }

/-- DEC_INIT completes from any state, a faulted one too, and leaves the decoder initialised, its bytes in place, and
the encoder as it was (R272, R332, R361). That INIT also ends a running command is the model's choice (log 18): R330
refuses it before that. -/
def Obligations.DecInitInitialises : Prop :=
  ∀ (s : State) (p : Profile),
    exec (.decInit p) s = .next { s with
      dec := { s.dec with
        ready := true, profile := p, status := 0#8, faultPos := 0#35, busy := false
        hb := { cursor := 0, mem := s.dec.hb.mem } }
      outbox := answered s .dec [0x00#8] }

/-! ### ENC_COMPRESS -/

/-- A chunk longer than CAPACITY is not scanned: HB_RESET, SESSION FRESH, FLAGS `0x80 | T` and a copy of the input (R274). -/
def Obligations.OversizeChunkFallsBack : Prop :=
  ∀ (s : State) (chunk : List Byte), s.enc.ready = true → capacity s.enc.profile < chunk.length →
    exec (.encCompress chunk) s = .next { s with
      enc := { s.enc with hb := { cursor := 0, mem := s.enc.hb.mem }, slots := [], session := .fresh, busy := false }
      outbox := answered s .enc
        (0x00#8 :: (if s.enc.profile = .standard then 0x81#8 else 0x80#8) :: (le32 chunk.length ++ chunk)) }

/-- A chunk that fits is loaded: the history is reset exactly where the session is FRESH or the chunk would pass
CAPACITY, the chunk's bytes stand from START to END-1 and every other byte is as it was, and the scan starts with an
empty output (R275 to R278). That the load is a step of its own is the model's choice (log 1), which R380 allows. -/
def Obligations.ChunkIsLoadedBeforeTheScan : Prop :=
  ∀ (s : State) (chunk : List Byte), s.enc.ready = true → chunk.length ≤ capacity s.enc.profile →
    let atf := decide (s.enc.session = .fresh ∨ capacity s.enc.profile < s.enc.hb.cursor + chunk.length)
    let start := if atf then 0 else s.enc.hb.cursor
    ∃ hb : HistBuf,
      exec (.encCompress chunk) s = .next { s with
        enc := { s.enc with
          session := .active, busy := true, chunk := chunk, atFront := atf, start := start, pos := start
          stop := start + chunk.length, out := [], slots := if atf then [] else s.enc.slots, hb := hb } } ∧
      hb.cursor = start + chunk.length ∧
      (∀ k, k < chunk.length → tableGet hb.mem (start + k) = chunk[k]?) ∧
      (∀ a, a < start ∨ start + chunk.length ≤ a → tableGet hb.mem a = tableGet s.enc.hb.mem a)

/-- The capacity check is strict: in ACTIVE, a chunk that reaches CAPACITY exactly continues the epoch without AT_FRONT,
and one byte more starts a new epoch with AT_FRONT and an empty slot table (R276). That the load is a step of its own is
the model's choice (log 1), which R380 allows. -/
def Obligations.CapacityCheckIsStrict : Prop :=
  ∀ (s : State) (chunk : List Byte), s.enc.ready = true → s.enc.session = .active →
    chunk.length ≤ capacity s.enc.profile →
    (s.enc.hb.cursor + chunk.length = capacity s.enc.profile →
      ∃ t, exec (.encCompress chunk) s = .next t ∧ t.enc.atFront = false ∧ t.enc.start = s.enc.hb.cursor ∧
        t.enc.slots = s.enc.slots ∧ t.enc.hb.cursor = capacity s.enc.profile) ∧
    (s.enc.hb.cursor + chunk.length = capacity s.enc.profile + 1 →
      ∃ t, exec (.encCompress chunk) s = .next t ∧ t.enc.atFront = true ∧ t.enc.start = 0 ∧
        t.enc.slots = [] ∧ t.enc.hb.cursor = chunk.length)

/-- At the end of the scan the expansion check answers: the token stream where it is strictly smaller than the chunk,
else FLUSHED with a copy of the chunk, a reset history and SESSION FRESH (R279, R280). That the answer is a step of its
own is the model's choice (log 1), which R380 allows. That the working registers keep their values once the command has
ended is the model's choice (log 23). -/
def Obligations.ExpansionCheckAnswers : Prop :=
  ∀ s : State, s.inbox = [] → s.dec.busy = false → s.enc.busy = true → s.enc.pos = s.enc.stop →
    let t := if s.enc.profile = .standard then 0x01#8 else 0x00#8
    (ceil8 s.enc.out.length < s.enc.chunk.length →
      step s = .next { s with
        enc := { s.enc with busy := false }
        outbox := answered s .enc
          (0x00#8 :: (if s.enc.atFront then 0x60#8 ||| t else 0x20#8 ||| t) ::
            (le32 (ceil8 s.enc.out.length) ++ packBits s.enc.out)) }) ∧
    (s.enc.chunk.length ≤ ceil8 s.enc.out.length →
      step s = .next { s with
        enc := { s.enc with busy := false, session := .fresh, slots := [], hb := { cursor := 0, mem := s.enc.hb.mem } }
        outbox := answered s .enc
          (0x00#8 :: (0x80#8 ||| t) :: (le32 s.enc.chunk.length ++ s.enc.chunk)) })

/-- One turn of the scan, with any finder, emits the literal at the position or a match that keeps the bounds of R182
and copies bytes the history already has, and moves past it. `OFF` and `L` are the match's, and stay where a literal is
emitted. With the reference finder and three bytes left, `HV` and `CAND` are those of the position, and only slots of
positions the turn passed are written; otherwise `HV`, `CAND` and the slots stay. Every other register, the history, the
chunk and the decoder are as they were (R174, R179, R180, R181, R182, R184). One position to a step (log 1, which R380
allows), and that another finder leaves `HV`, `CAND` and the slots and advances a counter of its own choices (log 17),
are the model's choices. -/
def Obligations.ScanTurnEmitsALiteralOrAVerifiedMatch : Prop :=
  ∀ s : State, ScanNext s →
    ∃ e : EncUnit, step s = .next { s with enc := e } ∧
      e.hb = s.enc.hb ∧ e.chunk = s.enc.chunk ∧ e.start = s.enc.start ∧ e.stop = s.enc.stop ∧
      e.atFront = s.enc.atFront ∧ e.session = s.enc.session ∧ e.profile = s.enc.profile ∧ e.ready = s.enc.ready ∧
      e.status = s.enc.status ∧ e.busy = true ∧
      (s.params.finder = .other ∨ s.enc.stop < s.enc.pos + 3 →
        e.hv = s.enc.hv ∧ e.cand = s.enc.cand ∧ e.slots = s.enc.slots) ∧
      (s.params.finder = .reference → s.enc.pos + 3 ≤ s.enc.stop →
        s.enc.hb.hashAt s.params.hash s.enc.pos = some e.hv ∧ e.cand = tableGet s.enc.slots e.hv.toNat) ∧
      (∀ h : Nat, (∀ q g, s.enc.pos ≤ q → q < e.pos → q + 3 ≤ s.enc.stop →
          s.enc.hb.hashAt s.params.hash q = some g → g.toNat ≠ h) →
        tableGet e.slots h = tableGet s.enc.slots h) ∧
      e.draws = (if s.params.finder = .other ∧ s.enc.pos + 3 ≤ s.enc.stop then s.enc.draws + 1 else s.enc.draws) ∧
      ((∃ c, s.enc.hb.read s.enc.pos = some c ∧ e.pos = s.enc.pos + 1 ∧ e.off = s.enc.off ∧ e.len = s.enc.len ∧
          e.out = s.enc.out ++ tokenBits (literalForm c)) ∨
       (∃ off len, 2 ≤ s.enc.pos ∧ 1 ≤ off ∧ off ≤ s.enc.pos ∧ off + 3 ≤ capacity s.enc.profile ∧
          3 ≤ len ∧ len ≤ s.enc.stop - s.enc.pos ∧ s.enc.stop - s.enc.pos ≤ capacity s.enc.profile - 2 ∧
          e.pos = s.enc.pos + len ∧ e.off = off ∧ e.len = len ∧
          e.out = s.enc.out ++ tokenBits (offsetForm (offsetCodeOf s.params s.enc.profile) off) ++
            tokenBits (lengthForm len) ∧
          ∀ k, k < len → ∃ b, s.enc.hb.read (s.enc.pos + k - off) = some b ∧ s.enc.hb.read (s.enc.pos + k) = some b))

/-- The reference finder's literal turns at a hashable position: the slot of the three bytes is read, then holds the
position, every other slot is as it was, and the position becomes a literal where it is one of the first two of the
epoch, the slot was EMPTY, or the candidate's three bytes differ (R174, R175, R176). One position to a step is the
model's choice (log 1), which R380 allows. -/
def Obligations.ReferenceFinderLiteralTurn : Prop :=
  ∀ (s : State) (a b c : Byte), ScanNext s → s.params.finder = .reference → s.enc.pos + 3 ≤ s.enc.stop →
    s.enc.hb.read s.enc.pos = some a → s.enc.hb.read (s.enc.pos + 1) = some b → s.enc.hb.read (s.enc.pos + 2) = some c →
    let hv := hash16 s.params.hash a b c
    (s.enc.pos < 2 ∨ tableGet s.enc.slots hv.toNat = none ∨
      ∃ p, tableGet s.enc.slots hv.toNat = some p ∧ ∃ k, k < 3 ∧ s.enc.hb.read (p + k) ≠ s.enc.hb.read (s.enc.pos + k)) →
    ∃ slots : SlotTable,
      step s = .next { s with
        enc := { s.enc with
          hv := hv, cand := tableGet s.enc.slots hv.toNat, slots := slots, pos := s.enc.pos + 1
          out := s.enc.out ++ tokenBits (literalForm a) } } ∧
      ∀ h, tableGet slots h = if h = hv.toNat then some s.enc.pos else tableGet s.enc.slots h

/-- The reference finder's match turn: a verified candidate from position 2 on is extended as far as the bytes agree
inside the chunk, the match is emitted, and every position of the matched region with three bytes left stands in its
slot, the later one where two share a slot, and every other slot is as it was (R175 to R179). One position to a step is
the model's choice (log 1), which R380 allows. -/
def Obligations.ReferenceFinderMatchTurn : Prop :=
  ∀ (s : State) (hv : BitVec 16) (p : Nat), ScanNext s → s.params.finder = .reference →
    2 ≤ s.enc.pos → s.enc.pos + 3 ≤ s.enc.stop → s.enc.hb.hashAt s.params.hash s.enc.pos = some hv →
    tableGet s.enc.slots hv.toNat = some p →
    (∀ k, k < 3 → s.enc.hb.read (p + k) = s.enc.hb.read (s.enc.pos + k)) →
    ∃ (len : Nat) (slots : SlotTable),
      step s = .next { s with
        enc := { s.enc with
          hv := hv, cand := some p, off := s.enc.pos - p, len := len, pos := s.enc.pos + len, slots := slots
          out := s.enc.out ++ tokenBits (offsetForm (offsetCodeOf s.params s.enc.profile) (s.enc.pos - p)) ++
            tokenBits (lengthForm len) } } ∧
      3 ≤ len ∧ s.enc.pos + len ≤ s.enc.stop ∧
      (∀ k, k < len → s.enc.hb.read (p + k) = s.enc.hb.read (s.enc.pos + k)) ∧
      (s.enc.pos + len = s.enc.stop ∨ s.enc.hb.read (p + len) ≠ s.enc.hb.read (s.enc.pos + len)) ∧
      (∀ q h, s.enc.pos ≤ q → q < s.enc.pos + len → q + 3 ≤ s.enc.stop → s.enc.hb.hashAt s.params.hash q = some h →
        ∃ r, tableGet slots h.toNat = some r ∧ q ≤ r ∧ r < s.enc.pos + len ∧ r + 3 ≤ s.enc.stop ∧
          s.enc.hb.hashAt s.params.hash r = some h) ∧
      (∀ h : Nat, (∀ q g, s.enc.pos ≤ q → q < s.enc.pos + len → q + 3 ≤ s.enc.stop →
          s.enc.hb.hashAt s.params.hash q = some g → g.toNat ≠ h) →
        tableGet slots h = tableGet s.enc.slots h)

/-- A tail position, with fewer than three bytes left, becomes a literal and writes no slot (R180). One position to a
step is the model's choice (log 1), which R380 allows. -/
def Obligations.TailPositionIsALiteral : Prop :=
  ∀ (s : State) (c : Byte), ScanNext s → s.enc.stop < s.enc.pos + 3 → s.enc.hb.read s.enc.pos = some c →
    step s = .next { s with
      enc := { s.enc with pos := s.enc.pos + 1, out := s.enc.out ++ tokenBits (literalForm c) } }

/-- No step of the machine carries the bit counter of a running ENC_COMPRESS past its 20 bits, and none spends more than
9 bits per byte it covers (R50). One position to a step is the model's choice (log 1), which R380 allows. -/
def Obligations.OutBitsFitTwentyBits : Prop :=
  ∀ s t : State, Inv s → s.enc.busy = true → step s = .next t →
    t.enc.out.length < 2 ^ 20 ∧ t.enc.out.length + 9 * s.enc.pos ≤ s.enc.out.length + 9 * t.enc.pos

/-- A chunk of at most two bytes always falls back: the encoder answers FLUSHED with a copy of it and is FRESH with an
empty history (R281 corner cases, R295). The number of steps is the model's own (log 1). -/
def Obligations.ShortChunksFallBack : Prop :=
  ∀ (s : State) (chunk : List Byte), Inv s → s.enc.ready = true → s.enc.busy = false → s.dec.busy = false →
    chunk.length ≤ 2 →
    ∃ t, ReachesWithin 5 (sends s .enc (.encCompress chunk)) t ∧ t.enc.busy = false ∧ t.enc.session = .fresh ∧
      t.enc.hb.cursor = 0 ∧ t.enc.slots = [] ∧ t.dec = s.dec ∧
      t.outbox = answered s .enc
        (0x00#8 :: (if s.enc.profile = .standard then 0x81#8 else 0x80#8) :: (le32 chunk.length ++ chunk))

/-! ### The decoder's tokens -/

/-- A literal below CAPACITY appends its byte: the cursor moves by one, the byte stands at the old cursor, and every other
byte and register is as it was (R235, R236). -/
def Obligations.LiteralAppendsItsByte : Prop :=
  ∀ (s : State) (i : Instr) (n : Nat), LiteralMeans i n → s.dec.hb.cursor < capacity s.dec.profile →
    ∃ hb : HistBuf, exec i s = .next { s with dec := { s.dec with hb := hb } } ∧
      hb.cursor = s.dec.hb.cursor + 1 ∧
      ∀ a, tableGet hb.mem a = if a = s.dec.hb.cursor then some (BitVec.ofNat 8 n) else tableGet s.dec.hb.mem a

/-- A literal at `CURSOR = CAPACITY` raises Overflow(DEC_LITERAL) and writes no byte (R235, R236, R320, R325). That the
History Buffer and its cursor stay as they were after the error is the model's reading (log 11). That the working
registers keep their values once the command has ended is the model's choice (log 23). -/
def Obligations.LiteralAtCapacityOverflows : Prop :=
  ∀ (s : State) (i : Instr) (n : Nat), LiteralMeans i n → capacity s.dec.profile ≤ s.dec.hb.cursor →
    exec i s = .next (tokenError s 0x05#8)

/-- Each copy-offset part writes its operand into OFF, the length-of-match part comes next, and nothing else changes: no
check is made yet (R237 to R241, R244, R246). That the two parts of a match are two instructions is the model's choice
(log 2). -/
def Obligations.OffsetPartsWriteTheOffset : Prop :=
  ∀ (s : State) (i : Instr) (off : Nat), OffsetMeans i off →
    exec i s = .next { s with dec := { s.dec with off := off, part := .lom } }

/-- Each length-of-match part with operands in range completes the match: L is written, the cursor moves by L, each new
byte equals the byte OFF before it, every other byte and register is as it was, and a token head comes next (R242, R246,
R249). That the two parts of a match are two instructions is the model's choice (log 2). -/
def Obligations.LengthPartsCopyTheMatch : Prop :=
  ∀ (s : State) (i : Instr) (len : Nat), LengthMeans i len → s.dec.hb.Good (capacity s.dec.profile) →
    1 ≤ s.dec.off → s.dec.off ≤ s.dec.hb.cursor → s.dec.hb.cursor + len ≤ capacity s.dec.profile →
    ∃ hb : HistBuf,
      exec i s = .next { s with dec := { s.dec with len := len, part := .head, hb := hb } } ∧
      hb.cursor = s.dec.hb.cursor + len ∧
      (∀ k, k < len → ∃ b, tableGet hb.mem (s.dec.hb.cursor + k) = some b ∧
        tableGet hb.mem (s.dec.hb.cursor + k - s.dec.off) = some b) ∧
      (∀ a, a < s.dec.hb.cursor ∨ s.dec.hb.cursor + len ≤ a → tableGet hb.mem a = tableGet s.dec.hb.mem a)

/-- The errors of a match, the first that applies, with no byte written: OFFSET_ZERO, OFFSET_BEYOND_CURSOR,
Overflow(DEC_MATCH) (R246, R247, R248). That the two parts of a match are two instructions, and that the History Buffer
and its cursor stay as they were after the error, is the model's (log 2, log 11). For an OFF13_L offset above 8191 that
is not above the cursor, R104 gives OFFSET_BEYOND_CURSOR and R246 gives Overflow(DEC_MATCH), and the model leaves open
which it is (log 27). That the working registers keep their values once the command has ended is the model's choice (log
23). -/
def Obligations.MatchErrorsInOrder : Prop :=
  ∀ (s : State) (i : Instr) (len : Nat), LengthMeans i len →
    let t := { s with dec := { s.dec with len := len, part := .head } }
    (s.dec.off = 0 → exec i s = .next (tokenError t 0x0A#8)) ∧
    (s.dec.off ≠ 0 → s.dec.hb.cursor < s.dec.off → exec i s = .next (tokenError t 0x0E#8)) ∧
    (s.dec.off ≠ 0 → s.dec.off ≤ s.dec.hb.cursor → capacity s.dec.profile < s.dec.hb.cursor + len →
      (offsetCodeOf s.params s.dec.profile = .doc ∨ s.dec.off ≤ 8191) → exec i s = .next (tokenError t 0x09#8)) ∧
    (s.dec.off ≤ s.dec.hb.cursor → capacity s.dec.profile < s.dec.hb.cursor + len →
      offsetCodeOf s.params s.dec.profile = .rfc2118 → 8191 < s.dec.off →
      exec i s = .next (tokenError t (if Config.offsetAbove8191Fails then 0x0E#8 else 0x09#8)))

/-- A whole match token, its copy-offset part and then its length-of-match part, copies from `off` bytes back and
returns to the token head (R237 to R240, R244, R246, R249). That the two parts of a match are two instructions is the
model's choice (log 2). -/
def Obligations.MatchTokenCopiesFromItsOffset : Prop :=
  ∀ (s : State) (i j : Instr) (off len : Nat), OffsetMeans i off → LengthMeans j len →
    s.dec.hb.Good (capacity s.dec.profile) → 1 ≤ off → off ≤ s.dec.hb.cursor →
    s.dec.hb.cursor + len ≤ capacity s.dec.profile →
    ∃ (t : State) (hb : HistBuf), exec i s = .next t ∧
      exec j t = .next { s with dec := { s.dec with off := off, len := len, part := .head, hb := hb } } ∧
      hb.cursor = s.dec.hb.cursor + len ∧
      (∀ k, k < len → ∃ b, tableGet hb.mem (s.dec.hb.cursor + k) = some b ∧
        tableGet hb.mem (s.dec.hb.cursor + k - off) = some b) ∧
      (∀ a, a < s.dec.hb.cursor ∨ s.dec.hb.cursor + len ≤ a → tableGet hb.mem a = tableGet s.dec.hb.mem a)

/-- A self-overlapping copy at distance 1 repeats the last byte over the whole match (R154). That the length part is an
instruction of its own is the model's choice (log 2). -/
def Obligations.DistanceOneRepeatsTheLastByte : Prop :=
  ∀ (s : State) (i : Instr) (len : Nat) (b : Byte), LengthMeans i len → s.dec.hb.Good (capacity s.dec.profile) →
    s.dec.off = 1 → 1 ≤ s.dec.hb.cursor → tableGet s.dec.hb.mem (s.dec.hb.cursor - 1) = some b →
    s.dec.hb.cursor + len ≤ capacity s.dec.profile →
    ∃ t, exec i s = .next t ∧ ∀ k, k < len → tableGet t.dec.hb.mem (s.dec.hb.cursor + k) = some b

/-- Fifteen one-bits in a length-of-match part raise MalformedToken(LOM_PREFIX) (R243). That the History Buffer and its
cursor stay as they were after the error is the model's reading (log 11). That the working registers keep their values
once the command has ended is the model's choice (log 23). -/
def Obligations.ReservedLengthCodeRaises : Prop :=
  ∀ s : State, exec .lomReserved s = .next (tokenError s 0x12#8)

/-- A token that has started and whose bits run out raises MalformedToken(TRUNCATED) at the token's first bit, and
nothing is written: the bits left are a strict beginning of a token head, or of a length-of-match part (R231, R233).
That the parts are steps of their own, and that the History Buffer and its cursor stay as they were after the error, is
the model's (log 1, log 2, log 11), and so is that the decoder's command moves before a running encoder's (log 20). That
BITPOS is left at the part's first bit is the model's choice (log 28). That the working registers keep their values once
the command has ended is the model's choice (log 23). -/
def Obligations.TruncatedTokenRaises : Prop :=
  ∀ (s : State) (i : Instr) (missing : Bits), DecodeNext s → missing ≠ [] →
    tokenBits i = (bytesBits s.dec.input).drop s.dec.bitPos ++ missing →
    (s.dec.part = .head → s.dec.bitPos + 8 ≤ 8 * s.dec.input.length →
      ((∃ n, LiteralMeans i n) ∨ i.context = .head (offsetCodeOf s.params s.dec.profile)) →
      step s = .next (tokenError { s with dec := { s.dec with tokStart := s.dec.bitPos } } 0x06#8)) ∧
    (s.dec.part = .lom → i.context = .lom → step s = .next (tokenError s 0x06#8))

/-- When fewer than 8 bits remain where a token would start, decoding ends with success whatever those bits are, and the
answer is the bytes this packet appended (R232, R251). That the answer is a step of its own is the model's choice (log
1), which R380 allows, and so is that it comes before a running encoder's next step (log 20). That the working registers
keep their values once the command has ended is the model's choice (log 23). -/
def Obligations.StreamEndsInsideTheLastByte : Prop :=
  ∀ s : State, Inv s → DecodeNext s → s.dec.part = .head → 8 * s.dec.input.length < s.dec.bitPos + 8 →
    ∃ out : List Byte,
      step s = .next { s with
        dec := { s.dec with busy := false }
        outbox := answered s .dec (0x00#8 :: (le32 out.length ++ out)) } ∧
      out.length = s.dec.hb.cursor - s.dec.outStart ∧
      ∀ k, k < out.length → tableGet s.dec.hb.mem (s.dec.outStart + k) = out[k]?

/-! ### DEC_DECOMPRESS -/

/-- A plain packet is returned unchanged and nothing else changes, whatever its TYPE (R284). -/
def Obligations.PlainPacketPassesThrough : Prop :=
  ∀ (s : State) (flags : Byte) (payload : List Byte), s.dec.ready = true → statusCode s.dec.status = 0#2 →
    flags.toNat < 0x20 →
    exec (.decDecompress flags payload) s = .next { s with
      outbox := answered s .dec (0x00#8 :: (le32 payload.length ++ payload)) }

/-- A faulted decoder answers every packet, a plain one too, with its STATUS byte and changes nothing (R325). -/
def Obligations.FaultedDecoderAnswersItsStatus : Prop :=
  ∀ (s : State) (flags : Byte) (payload : List Byte), s.dec.ready = true → statusCode s.dec.status ≠ 0#2 →
    exec (.decDecompress flags payload) s = .next { s with outbox := answered s .dec [s.dec.status] }

/-- A packet that is not plain and whose TYPE is not the unit's profile code raises ProfileMismatch before anything else
changes: OTHER_PROFILE for the other code, UNKNOWN_TYPE for 2 to 15 (R283, R323). -/
def Obligations.WrongTypeRaisesProfileMismatch : Prop :=
  ∀ (s : State) (flags : Byte) (payload : List Byte), s.dec.ready = true → statusCode s.dec.status = 0#2 →
    0x20 ≤ flags.toNat → flags.toNat % 16 ≠ (if s.dec.profile = .standard then 1 else 0) →
    let st := if flags.toNat % 16 < 2 then 0x07#8 else 0x0B#8
    exec (.decDecompress flags payload) s = .next { s with
      dec := { s.dec with status := st, faultPos := 0#35, busy := false }
      outbox := answered s .dec [st] }

/-- A FLUSHED packet of the right TYPE resets the history, appends the payload where it fits CAPACITY and nothing where it
does not, and is answered with the payload (R285, R286). -/
def Obligations.FlushedPacketIsFoldedIntoHistory : Prop :=
  ∀ (s : State) (flags : Byte) (payload : List Byte), s.dec.ready = true → statusCode s.dec.status = 0#2 →
    0x80 ≤ flags.toNat → flags.toNat % 16 = (if s.dec.profile = .standard then 1 else 0) →
    ∃ hb : HistBuf,
      exec (.decDecompress flags payload) s = .next { s with
        dec := { s.dec with hb := hb, outStart := 0 }
        outbox := answered s .dec (0x00#8 :: (le32 payload.length ++ payload)) } ∧
      (payload.length ≤ capacity s.dec.profile → hb.cursor = payload.length ∧
        (∀ k, k < payload.length → tableGet hb.mem k = payload[k]?) ∧
        ∀ a, payload.length ≤ a → tableGet hb.mem a = tableGet s.dec.hb.mem a) ∧
      (capacity s.dec.profile < payload.length → hb.cursor = 0 ∧ hb.mem = s.dec.hb.mem)

/-- AT_FRONT alone resets the history, passes the payload through and appends nothing (R287). -/
def Obligations.AtFrontAlonePassesThrough : Prop :=
  ∀ (s : State) (flags : Byte) (payload : List Byte), s.dec.ready = true → statusCode s.dec.status = 0#2 →
    flags.toNat / 32 = 2 → flags.toNat % 16 = (if s.dec.profile = .standard then 1 else 0) →
    exec (.decDecompress flags payload) s = .next { s with
      dec := { s.dec with hb := { cursor := 0, mem := s.dec.hb.mem }, outStart := 0 }
      outbox := answered s .dec (0x00#8 :: (le32 payload.length ++ payload)) }

/-- A COMPRESSED packet of the right TYPE starts DECODE_STREAM at bit 0, against the continued epoch, or against an
empty one where AT_FRONT is set (R285, R288). That the packet is opened in a step of its own is the model's choice (log
1), which R380 allows, and so are the values of TOKSTART and of the part read next before the first token (log 26). -/
def Obligations.CompressedPacketStartsTheStream : Prop :=
  ∀ (s : State) (flags : Byte) (payload : List Byte), s.dec.ready = true → statusCode s.dec.status = 0#2 →
    (flags.toNat / 32 = 1 ∨ flags.toNat / 32 = 3) →
    flags.toNat % 16 = (if s.dec.profile = .standard then 1 else 0) →
    let cursor := if flags.toNat / 32 = 3 then 0 else s.dec.hb.cursor
    exec (.decDecompress flags payload) s = .next { s with
      dec := { s.dec with
        hb := { cursor := cursor, mem := s.dec.hb.mem }, outStart := cursor, busy := true, part := .head
        input := payload, bitPos := 0, tokStart := 0 } }

/-! ### The whole machine -/

/-- The state after power-on meets the invariant. The registers other than READY have the model's values there (log 8,
log 9): the spec gives none. -/
def Obligations.PowerOnMeetsTheInvariant : Prop :=
  Inv State.reset

/-- Every step keeps the invariant: canonical stores with a byte at every index below the cursor, `CURSOR ≤ CAPACITY`,
canonical slots that name positions with three bytes, `ENC.STATUS = 0`, a legal `DEC.STATUS`, and the ranges of the working
registers (R31, R35 to R39, R50, R72, R156, R320). -/
def Obligations.StepKeepsTheInvariant : Prop :=
  ∀ s t : State, Inv s → step s = .next t → Inv t

/-- No step from a good state reads a history byte at or above the cursor, so none faults; the only stop is a
transaction that is not a whole command (R73). The stop at a broken transaction is the model's choice (log 6). -/
def Obligations.GoodStatesNeverFault : Prop :=
  ∀ s : State, Inv s → (∃ t, step s = .next t) ∨ step s = .refused .brokenTransaction

/-- Every well-formed instruction, run from a good state, answers a next state. For the two long commands the next state
is that of the command begun (log 1), and EveryChunkEnds and EveryPacketEnds say that it ends. -/
def Obligations.EveryInstructionCompletes : Prop :=
  ∀ (s : State) (i : Instr), Inv s → i.wellFormed = true → ∃ t, exec i s = .next t ∧ Inv t

/-- The units share no state: an ENC command leaves the decoder as it was, and a token or a DEC command leaves the encoder
as it was (R4, R338, R361). That no instruction changes the parameters of R9 or takes from the inbox is about the model's own
state: the parameters stand in State (log 15), and the inbox is its queue of the host's transactions (log 4). -/
def Obligations.UnitsShareNoState : Prop :=
  ∀ (s t : State) (i : Instr), exec i s = .next t →
    t.params = s.params ∧ t.inbox = s.inbox ∧
    ((∃ p, i = .encInit p) ∨ (∃ chunk, i = .encCompress chunk) → t.dec = s.dec) ∧
    ((∀ p, i ≠ .encInit p) → (∀ chunk, i ≠ .encCompress chunk) → t.enc = s.enc)

/-- Only DEC_INIT clears a fault: every other step of a faulted, idle decoder leaves its STATUS and FAULT_POS (R325,
R332, R333). The steps, and the inbox they take a transaction from, are the model's (log 1, log 4). -/
def Obligations.OnlyDecInitClearsAFault : Prop :=
  ∀ s t : State, s.dec.busy = false → statusCode s.dec.status ≠ 0#2 → step s = .next t →
    (t.dec = s.dec) ∨ (∃ u p, s.fetch = .run (.decInit p) u ∧ t.dec.status = 0#8 ∧ t.dec.faultPos = 0#35)

/-- Every DEC_DECOMPRESS ends: left alone, a running packet is answered within one step more than its bits left (R381),
and the encoder is as it was. The number of steps, and that the decoder's command moves before a running encoder's, are
the model's choice (log 1, log 20). -/
def Obligations.EveryPacketEnds : Prop :=
  ∀ s : State, Inv s → s.inbox = [] → s.dec.busy = true →
    ∃ (t : State) (bytes : List Byte), ReachesWithin (8 * s.dec.input.length - s.dec.bitPos + 1) s t ∧
      t.dec.busy = false ∧ t.enc = s.enc ∧ t.outbox = answered s .dec bytes

/-- Every ENC_COMPRESS ends: left alone, a running scan is answered within one step more than its bytes, with FLUSHED
and the chunk, or with fewer bytes than the chunk (R381, R279, R280). The number of steps is the model's own (log 1). -/
def Obligations.EveryChunkEnds : Prop :=
  ∀ s : State, Inv s → s.inbox = [] → s.dec.busy = false → s.enc.busy = true →
    ∃ t, ReachesWithin (s.enc.chunk.length + 1) s t ∧ t.enc.busy = false ∧ t.dec = s.dec ∧
      (t.outbox = answered s .enc
          (0x00#8 :: flagsOfFallback s.enc.profile :: (le32 s.enc.chunk.length ++ s.enc.chunk)) ∧
        t.enc.session = .fresh ∧ t.enc.hb.cursor = 0 ∧ t.enc.slots = [] ∨
       ∃ out : List Byte, out.length < s.enc.chunk.length ∧
        t.outbox = answered s .enc
          (0x00#8 :: flagsOfCompressed s.enc.atFront s.enc.profile :: (le32 out.length ++ out)) ∧
        t.enc.session = .active ∧ t.enc.hb = s.enc.hb)

/-- Lock-step: from two ends in lock-step, with any parameters, the encoder's answer to any chunk is decoded, without an
error, to exactly that chunk, and the two ends are in lock-step again (R291). The host's two queues are the model's own
(log 4). -/
def Obligations.LockStepRoundTrip : Prop :=
  ∀ (s : State) (chunk : List Byte), Inv s → LockStep s → chunk.length < 2 ^ 32 →
    ∃ (t u : State) (flags : Byte) (payload : List Byte),
      Reaches (sends s .enc (.encCompress chunk)) t ∧
      t.outbox = answered s .enc (0x00#8 :: flags :: (le32 payload.length ++ payload)) ∧
      Reaches (sends t .dec (.decDecompress flags payload)) u ∧
      u.outbox = answered t .dec (0x00#8 :: (le32 chunk.length ++ chunk)) ∧
      u.inbox = [] ∧ Inv u ∧ LockStep u

/-- Determinism from INIT: two machines with the same parameters, whatever their registers and history bytes held,
answer the same bytes to the same chunk after ENC_INIT with the same profile; the bytes left by earlier epochs are never
observed (R297, R73). Stated for the reference finder, the one whose choices R183 fixes. The host's two queues are the
model's own (log 4). -/
def Obligations.FreshEncodersAnswerAlike : Prop :=
  ∀ (s₁ s₂ : State) (p : Profile) (chunk : List Byte),
    Inv s₁ → Inv s₂ → s₁.params = s₂.params → s₁.params.finder = .reference → chunk.length < 2 ^ 32 →
    s₁.enc.busy = false → s₁.dec.busy = false → s₂.enc.busy = false → s₂.dec.busy = false →
    ∃ (u₁ u₂ t₁ t₂ : State) (bytes : List Byte),
      Reaches (sends s₁ .enc (.encInit p)) u₁ ∧ Reaches (sends s₂ .enc (.encInit p)) u₂ ∧
      u₁.outbox = answered s₁ .enc [0x00#8] ∧ u₂.outbox = answered s₂ .enc [0x00#8] ∧
      Reaches (sends u₁ .enc (.encCompress chunk)) t₁ ∧ Reaches (sends u₂ .enc (.encCompress chunk)) t₂ ∧
      t₁.enc.busy = false ∧ t₂.enc.busy = false ∧
      t₁.outbox = answered u₁ .enc bytes ∧ t₂.outbox = answered u₂ .enc bytes
end

