-- ==== Sys2Proof/Laws/Bits.lean ====
section
/-! SUPPORT. The laws of bits: a field read back, the lengths of the encoder's bits, and packing bits into bytes. -/

namespace Sys2Proof

@[simp] theorem natBits_length (w v : Nat) : (natBits w v).length = w := by
  induction w with
  | zero => rfl
  | succ w ih => simp [natBits, ih]

@[simp] theorem field_length {w : Nat} (v : BitVec w) : (field v).length = w :=
  natBits_length w v.toNat

theorem bitsNat_foldl (bs : Bits) (acc : Nat) :
    bs.foldl (fun acc b => 2 * acc + b.toNat) acc = acc * 2 ^ bs.length + bitsNat bs := by
  induction bs generalizing acc with
  | nil => simp [bitsNat]
  | cons b rest ih =>
    simp only [bitsNat, List.foldl_cons, List.length_cons]
    rw [ih, ih (2 * 0 + b.toNat)]
    ring

/-- The number of a run of bits, first bit most significant. -/
theorem bitsNat_cons (b : Bool) (bs : Bits) : bitsNat (b :: bs) = b.toNat * 2 ^ bs.length + bitsNat bs := by
  have h := bitsNat_foldl bs (2 * 0 + b.toNat)
  simpa [bitsNat] using h

theorem bitsNat_append (xs ys : Bits) : bitsNat (xs ++ ys) = bitsNat xs * 2 ^ ys.length + bitsNat ys := by
  have h := bitsNat_foldl ys (bitsNat xs)
  simpa [bitsNat, List.foldl_append] using h

theorem bitsNat_lt (bs : Bits) : bitsNat bs < 2 ^ bs.length := by
  induction bs with
  | nil => simp [bitsNat]
  | cons b rest ih =>
    rw [bitsNat_cons, List.length_cons, pow_succ]
    cases b <;> simp <;> omega

/-- Reading back what `PutBits` wrote gives the low bits of the value. -/
theorem bitsNat_natBits (w v : Nat) : bitsNat (natBits w v) = v % 2 ^ w := by
  induction w with
  | zero => simp [natBits, bitsNat, Nat.mod_one]
  | succ w ih =>
    rw [natBits, bitsNat_cons, ih, natBits_length, Nat.testBit_eq_decide_div_mod_eq, Nat.mod_pow_succ]
    have h : v / 2 ^ w % 2 < 2 := Nat.mod_lt _ (by omega)
    by_cases h1 : v / 2 ^ w % 2 = 1
    · simp [h1]; ring
    · have h0 : v / 2 ^ w % 2 = 0 := by omega
      simp [h0]

@[simp] theorem bitsNat_field {w : Nat} (v : BitVec w) : bitsNat (field v) = v.toNat := by
  rw [field, bitsNat_natBits, Nat.mod_eq_of_lt v.isLt]

/-- `GetBits` reads back a field and leaves the rest. -/
theorem getBits_field {w : Nat} (v : BitVec w) (rest : Bits) : getBits w (field v ++ rest) = some (v, rest) := by
  have h1 : (field v ++ rest).take w = field v := by
    rw [List.take_append_of_le_length (by simp)]
    exact List.take_of_length_le (by simp)
  have h2 : (field v ++ rest).drop w = rest := by
    rw [List.drop_append_of_le_length (by simp)]
    simp
  simp only [getBits, h1, h2, bitsNat_field, BitVec.ofNat_toNat]
  simp

/-- What `GetBits` leaves is the bits after the first `w`. -/
theorem getBits_some {w : Nat} {bs rest : Bits} {v : BitVec w} (h : getBits w bs = some (v, rest)) :
    w ≤ bs.length ∧ rest = bs.drop w := by
  simp only [getBits] at h
  split at h
  · cases h
  · simp only [Option.some.injEq, Prod.mk.injEq] at h
    exact ⟨by omega, h.2.symm⟩

/-- `GetBits` fails only where too few bits remain. -/
theorem getBits_none {w : Nat} {bs : Bits} : getBits w bs = none ↔ bs.length < w := by
  simp [getBits]

/-- The bits above the field do not matter to it. -/
theorem natBits_add_mul (w m a c : Nat) (h : w ≤ m) : natBits w (a * 2 ^ m + c) = natBits w c := by
  induction w with
  | zero => rfl
  | succ w ih =>
    rw [natBits, natBits, ih (by omega)]
    congr 1
    rw [Nat.testBit_eq_decide_div_mod_eq, Nat.testBit_eq_decide_div_mod_eq]
    obtain ⟨k, rfl⟩ : ∃ k, m = w + 1 + k := ⟨m - (w + 1), by omega⟩
    congr 1
    have e : a * 2 ^ (w + 1 + k) + c = c + 2 ^ w * (2 * (a * 2 ^ k)) := by rw [pow_add, pow_succ]; ring
    rw [e, Nat.add_mul_div_left _ _ (by positivity)]
    simp

/-- A run of bits is what `PutBits` writes for its number. -/
theorem natBits_bitsNat (bs : Bits) : natBits bs.length (bitsNat bs) = bs := by
  induction bs with
  | nil => rfl
  | cons b r ih =>
    rw [List.length_cons, natBits, bitsNat_cons]
    have hl := bitsNat_lt r
    congr 1
    · cases b
      · simpa using Nat.testBit_lt_two_pow hl
      · simp [Nat.testBit_two_pow_add_eq, Nat.testBit_lt_two_pow hl]
    · rw [natBits_add_mul _ _ _ _ (Nat.le_refl _), ih]

/-- The field of a number that fits it. -/
theorem field_ofNat {w v : Nat} (h : v < 2 ^ w) : field (BitVec.ofNat w v) = natBits w v := by
  simp [field, Nat.mod_eq_of_lt h]

/-- What `GetBits` read was the bits of the field it gave. -/
theorem getBits_exact {w : Nat} {bs rest : Bits} {v : BitVec w} (h : getBits w bs = some (v, rest)) :
    bs = field v ++ rest := by
  simp only [getBits] at h
  split at h
  · cases h
  · simp only [Option.some.injEq, Prod.mk.injEq] at h
    obtain ⟨rfl, rfl⟩ := h
    have hl : (bs.take w).length = w := by simp; omega
    have hlt := bitsNat_lt (bs.take w)
    have e := natBits_bitsNat (bs.take w)
    rw [hl] at hlt e
    rw [field_ofNat hlt, e, List.take_append_drop]

@[simp] theorem bytesBits_nil : bytesBits [] = [] := rfl

@[simp] theorem bytesBits_cons (b : Byte) (bs : List Byte) : bytesBits (b :: bs) = field b ++ bytesBits bs := by
  simp [bytesBits]

@[simp] theorem bytesBits_length (bs : List Byte) : (bytesBits bs).length = 8 * bs.length := by
  induction bs with
  | nil => rfl
  | cons b rest ih => simp [ih]; omega

/-- Eight bits are the bits of the byte they make. -/
theorem field_ofNat_bitsNat (bs : Bits) (h : bs.length = 8) : field (BitVec.ofNat 8 (bitsNat bs)) = bs := by
  match bs, h with
  | [b0, b1, b2, b3, b4, b5, b6, b7], _ =>
    revert b0 b1 b2 b3 b4 b5 b6 b7
    decide

/-- A packed buffer holds the bits, then fewer than eight 0-bits. -/
theorem bytesBits_packBits (bs : Bits) :
    ∃ pad, bytesBits (packBits bs) = bs ++ List.replicate pad false ∧ pad < 8 := by
  induction bs using packBits.induct with
  | case1 => exact ⟨0, by simp [packBits]⟩
  | case2 b0 b1 b2 b3 b4 b5 b6 b7 rest ih =>
    obtain ⟨pad, h, hp⟩ := ih
    refine ⟨pad, ?_, hp⟩
    rw [packBits, bytesBits_cons, field_ofNat_bitsNat _ (by simp), h]
    simp
  | case3 few h1 h2 =>
    have hl : 0 < few.length ∧ few.length < 8 := by
      constructor
      · exact List.length_pos_of_ne_nil h1
      · by_contra hc
        exact h2 few[0] few[1] few[2] few[3] few[4] few[5] few[6] few[7] (few.drop 8)
          (by simp only [List.getElem_cons_drop, List.drop_zero])
    refine ⟨8 - few.length, ?_, by omega⟩
    rw [packBits]
    · rw [bytesBits_cons, field_ofNat_bitsNat _ (by simp; omega)]
      simp
    · exact h1
    · exact h2

/-- `ceil8(OUTBITS)` bytes are output. -/
theorem packBits_length (bs : Bits) : (packBits bs).length = (bs.length + 7) / 8 := by
  obtain ⟨pad, h, hp⟩ := bytesBits_packBits bs
  have := congrArg List.length h
  simp at this
  omega

/-- `LEN` read back from its four bytes. -/
theorem fromLe32_le32 (n : Nat) (h : n < 2 ^ 32) :
    fromLe32 (BitVec.ofNat 8 n) (BitVec.ofNat 8 (n / 2 ^ 8)) (BitVec.ofNat 8 (n / 2 ^ 16)) (BitVec.ofNat 8 (n / 2 ^ 24)) = n := by
  simp only [fromLe32, BitVec.toNat_ofNat]
  omega

/-- Four bytes carry a number below `2 ^ 32`. -/
theorem fromLe32_lt (b0 b1 b2 b3 : Byte) : fromLe32 b0 b1 b2 b3 < 2 ^ 32 := by
  have h0 := b0.isLt
  have h1 := b1.isLt
  have h2 := b2.isLt
  have h3 := b3.isLt
  simp only [fromLe32]
  omega

end Sys2Proof
end

