-- ==== Sys2Proof/Laws/Decode.lean ====
section
/-! SUPPORT. The laws of decoding: how many bits a part takes, and which instructions a context gives. -/

namespace Sys2Proof

/-- A field read as an instruction takes the field's bits. -/
theorem asInstr_some {w : Nat} {mk : BitVec w → Instr} {bs rest : Bits} {i : Instr}
    (h : asInstr mk (getBits w bs) = some (i, rest)) :
    ∃ v, i = mk v ∧ w ≤ bs.length ∧ rest = bs.drop w := by
  simp only [asInstr, Option.map_eq_some_iff] at h
  obtain ⟨⟨v, r⟩, hg, he⟩ := h
  simp only [Prod.mk.injEq] at he
  obtain ⟨rfl, rfl⟩ := he
  exact ⟨v, rfl, getBits_some hg⟩

/-- A field read as an instruction was that instruction's field. -/
theorem asInstr_exact {w : Nat} {mk : BitVec w → Instr} {bs rest : Bits} {i : Instr}
    (h : asInstr mk (getBits w bs) = some (i, rest)) : ∃ v, i = mk v ∧ bs = field v ++ rest := by
  simp only [asInstr, Option.map_eq_some_iff] at h
  obtain ⟨⟨v, r⟩, hg, he⟩ := h
  simp only [Prod.mk.injEq] at he
  obtain ⟨rfl, rfl⟩ := he
  exact ⟨v, rfl, getBits_exact hg⟩

/-- A field that is all there is read as its instruction. -/
theorem asInstr_field {w : Nat} (mk : BitVec w → Instr) (v : BitVec w) (rest : Bits) :
    asInstr mk (getBits w (field v ++ rest)) = some (mk v, rest) := by
  rw [getBits_field]; rfl

/-- `LEN` and the payload, as the encoder writes them, are read back (30 R113). -/
theorem payloadOf_le32 {payload : List Byte} (h : payload.length < 2 ^ 32) :
    payloadOf (le32 payload.length ++ payload) = some payload :=
  if_pos (fromLe32_le32 payload.length h)

/-- The two bytes of a word, the low one first (30 R113). -/
theorem le16_append (f g : Byte) : le16 (f ++ g) = [g, f] := by
  rw [le16, BitVec.extractLsb'_append_eq_right, BitVec.extractLsb'_append_eq_left]

/-- The encoder's bits of a part are as many as its width (30 R106). -/
theorem tokenBits_length (i : Instr) : (tokenBits i).length = i.width := by
  cases i <;> simp [tokenBits, Instr.width, lomClassCode]

/-- Everything a token head that was read is: a part of a head's context, of at least 8 bits, all of them among the bits
that remained (30 R105, R106). -/
theorem decodeHead_some {code : OffsetCode} {bs rest : Bits} {i : Instr} (h : decodeHead code bs = some (i, rest)) :
    (i.width ≤ bs.length ∧ rest = bs.drop i.width ∧ 8 ≤ i.width) ∧ ∃ c, i.context = .head c := by
  -- each head: its field was read, so the instruction, its bits and the rest are known
  match code, bs, h with
  | _, false :: r, h | _, true :: false :: r, h
  | .doc, true :: true :: false :: r, h | .doc, true :: true :: true :: false :: r, h
  | .doc, true :: true :: true :: true :: false :: r, h | .doc, true :: true :: true :: true :: true :: r, h
  | .rfc2118, true :: true :: false :: r, h | .rfc2118, true :: true :: true :: false :: r, h
  | .rfc2118, true :: true :: true :: true :: r, h =>
    obtain ⟨v, rfl, hl, rfl⟩ := asInstr_some h
    exact ⟨by simp [Instr.width]; omega, _, rfl⟩

/-- Only a command can be ill formed: a token part has no payload (30 R113). -/
theorem wellFormed_of_part {i : Instr} (h : i.context ≠ .command) : i.wellFormed = true := by
  cases i <;> first | rfl | exact absurd rfl h

/-- A run of ones that was counted: it ends at a zero-bit, or it has reached the limit. -/
theorem countOnes_some {limit c : Nat} {bs r : Bits} (h : countOnes limit bs = some (c, r)) :
    (c < limit ∧ c + 1 ≤ bs.length ∧ r = bs.drop (c + 1)) ∨ (c = limit ∧ c ≤ bs.length ∧ r = bs.drop c) := by
  induction limit generalizing c bs with
  | zero =>
    simp only [countOnes, Option.some.injEq, Prod.mk.injEq] at h
    obtain ⟨rfl, rfl⟩ := h
    exact .inr (by simp)
  | succ limit ih =>
    match bs, h with
    | false :: r', h =>
      simp only [countOnes, Option.some.injEq, Prod.mk.injEq] at h
      obtain ⟨rfl, rfl⟩ := h
      exact .inl (by simp)
    | true :: r', h =>
      simp only [countOnes, Option.map_eq_some_iff] at h
      obtain ⟨⟨c', r''⟩, h1, h2⟩ := h
      simp only [Prod.mk.injEq] at h2
      obtain ⟨rfl, rfl⟩ := h2
      rcases ih h1 with ⟨a, b, c⟩ | ⟨a, b, c⟩
      · exact .inl ⟨by omega, by simp; omega, by simp [c]⟩
      · exact .inr ⟨by omega, by simp; omega, by simp [c]⟩

/-- The ones that were counted, bit by bit. -/
theorem countOnes_exact {limit c : Nat} {bs r : Bits} (h : countOnes limit bs = some (c, r)) :
    (c < limit ∧ bs = List.replicate c true ++ false :: r) ∨ (c = limit ∧ bs = List.replicate c true ++ r) := by
  induction limit generalizing c bs with
  | zero =>
    simp only [countOnes, Option.some.injEq, Prod.mk.injEq] at h
    obtain ⟨rfl, rfl⟩ := h
    exact .inr (by simp)
  | succ limit ih =>
    match bs, h with
    | false :: r', h =>
      simp only [countOnes, Option.some.injEq, Prod.mk.injEq] at h
      obtain ⟨rfl, rfl⟩ := h
      exact .inl (by simp)
    | true :: r', h =>
      simp only [countOnes, Option.map_eq_some_iff] at h
      obtain ⟨⟨c', r''⟩, h1, h2⟩ := h
      simp only [Prod.mk.injEq] at h2
      obtain ⟨rfl, rfl⟩ := h2
      rcases ih h1 with ⟨a, b⟩ | ⟨a, b⟩
      · exact .inl ⟨by omega, by simp [List.replicate_succ, b]⟩
      · exact .inr ⟨by omega, by simp [List.replicate_succ, b]⟩

/-- Everything a length-of-match part that was read is: one of its instructions, of at least 1 bit, all of them among the
bits that remained (43 R242). -/
theorem decodeLom_some {bs rest : Bits} {i : Instr} (h : decodeLom bs = some (i, rest)) :
    (i.width ≤ bs.length ∧ rest = bs.drop i.width ∧ 1 ≤ i.width) ∧ i.context = .lom := by
  simp only [decodeLom, Option.bind_eq_some_iff] at h
  obtain ⟨⟨c, r⟩, hc, hv⟩ := h
  simp only at hv
  have hcount := countOnes_some hc
  rcases (show c = 0 ∨ c = 15 ∨ (1 ≤ c ∧ c ≤ 14) by omega) with rfl | rfl | ⟨hlo, hhi⟩
  · simp only [decodeLomValue, Option.some.injEq, Prod.mk.injEq] at hv
    obtain ⟨rfl, rfl⟩ := hv
    have : 1 ≤ bs.length ∧ r = bs.drop 1 := by simpa using hcount
    exact ⟨⟨this.1, this.2, Nat.le_refl 1⟩, rfl⟩
  · simp only [decodeLomValue, Option.some.injEq, Prod.mk.injEq] at hv
    obtain ⟨rfl, rfl⟩ := hv
    have : 15 ≤ bs.length ∧ r = bs.drop 15 := by simpa using hcount
    exact ⟨⟨this.1, this.2, by decide⟩, rfl⟩
  · interval_cases c <;> simp only [decodeLomValue] at hv
    all_goals
      obtain ⟨v, rfl, hl, rfl⟩ := asInstr_some hv
      rcases hcount with ⟨_, hb, rfl⟩ | ⟨hlim, _⟩
      · refine ⟨⟨?_, ?_, ?_⟩, rfl⟩
        · simp only [Instr.width, List.length_drop] at hl ⊢; omega
        · simp [Instr.width]
        · simp [Instr.width]
      · omega

/-- A command that was decoded is well formed (30 R113). -/
theorem decodeCommand_wellFormed {bytes : List Byte} {i : Instr} (h : decodeCommand bytes = .ok i) :
    i.wellFormed = true ∧ i.context = .command := by
  have hp : ∀ {rest p : List Byte}, payloadOf rest = some p → p.length < 2 ^ 32 := by
    intro rest p hp
    match rest, hp with
    | b0 :: b1 :: b2 :: b3 :: bytes, hp =>
      simp only [payloadOf] at hp
      split at hp
      · rename_i he
        simp only [Option.some.injEq] at hp
        subst hp
        rw [← he]
        exact fromLe32_lt _ _ _ _
      · cases hp
  match bytes, h with
  | lo :: hi :: rest, h =>
    simp only [decodeCommand] at h
    split at h
    · split at h
      · rename_i j hj
        simp only [Except.ok.injEq] at h
        subst h
        simp only [decodeOperands] at hj
        split at hj
        · split at hj <;> simp_all
          subst hj; exact ⟨rfl, rfl⟩
        · simp only [Option.map_eq_some_iff] at hj
          obtain ⟨p, h1, rfl⟩ := hj
          exact ⟨by simpa [Instr.wellFormed, lenFits] using hp h1, rfl⟩
        · split at hj <;> simp_all
          subst hj; exact ⟨rfl, rfl⟩
        · simp only [Option.map_eq_some_iff] at hj
          obtain ⟨p, h1, rfl⟩ := hj
          exact ⟨by simpa [Instr.wellFormed, lenFits] using hp h1, rfl⟩
      · cases h
    · cases h
  | [], h => cases h
  | [_], h => cases h

end Sys2Proof
end

