-- ==== Sys2Proof/Laws/Table.lean ====
section
/-! SUPPORT. The laws of sorted tables: a read after a write, and the canonical form is kept. -/

namespace Sys2Proof.Machine

variable {β : Type}

/-- A read of the index just written gives the value written. -/
@[simp] theorem tableGet_tablePut_same (t : List (Nat × β)) (a : Nat) (v : β) :
    tableGet (tablePut t a v) a = some v := by
  induction t with
  | nil => simp [tablePut, tableGet]
  | cons x rest ih =>
    obtain ⟨k, w⟩ := x
    simp only [tablePut]
    split
    · simp [tableGet]
    · split
      · simp [tableGet]
      · rename_i _ h
        simp [tableGet, Ne.symm h, ih]

/-- A write leaves every other index alone. -/
theorem tableGet_tablePut_ne (t : List (Nat × β)) {a c : Nat} (v : β) (h : c ≠ a) :
    tableGet (tablePut t a v) c = tableGet t c := by
  induction t with
  | nil => simp [tablePut, tableGet, Ne.symm h]
  | cons x rest ih =>
    obtain ⟨k, w⟩ := x
    simp only [tablePut]
    split
    · simp [tableGet, Ne.symm h]
    · split
      · rename_i _ e
        subst e
        simp [tableGet, Ne.symm h]
      · simp [tableGet, ih]

/-- A read of any index after a write. -/
theorem tableGet_tablePut (t : List (Nat × β)) (a c : Nat) (v : β) :
    tableGet (tablePut t a v) c = if c = a then some v else tableGet t c := by
  split
  · subst_vars; simp
  · exact tableGet_tablePut_ne t v ‹_›

/-- Every entry after a write is the entry written or an old one. -/
theorem mem_tablePut {t : List (Nat × β)} {a : Nat} {v : β} {x : Nat × β} (h : x ∈ tablePut t a v) :
    x = (a, v) ∨ x ∈ t := by
  induction t with
  | nil => simpa [tablePut] using h
  | cons y rest ih =>
    obtain ⟨k, w⟩ := y
    simp only [tablePut] at h
    split at h
    · simpa using h
    · split at h
      · simp only [List.mem_cons] at h ⊢
        exact h.elim .inl (fun h => .inr (.inr h))
      · rcases List.mem_cons.mp h with rfl | h
        · simp
        · exact (ih h).imp_right (List.mem_cons_of_mem _)

/-- A write keeps the canonical form. -/
theorem tablePut_wf {t : List (Nat × β)} (a : Nat) (v : β) (h : tableWf t) : tableWf (tablePut t a v) := by
  induction t with
  | nil => simp [tablePut, tableWf]
  | cons y rest ih =>
    obtain ⟨k, w⟩ := y
    have hk := List.pairwise_cons.mp h
    simp only [tablePut]
    split
    · rename_i ha
      refine List.pairwise_cons.mpr ⟨?_, h⟩
      intro x hx
      rcases List.mem_cons.mp hx with rfl | hx
      · exact ha
      · exact Nat.lt_trans ha (hk.1 x hx)
    · split
      · rename_i _ e
        subst e
        exact List.pairwise_cons.mpr ⟨hk.1, hk.2⟩
      · rename_i h1 h2
        refine List.pairwise_cons.mpr ⟨?_, ih hk.2⟩
        intro x hx
        rcases mem_tablePut hx with rfl | hx
        · exact Nat.lt_of_le_of_ne (Nat.le_of_not_lt h1) (Ne.symm h2)
        · exact hk.1 x hx

/-- What a read answers is an entry of the table. -/
theorem mem_of_tableGet {t : List (Nat × β)} {a : Nat} {v : β} (h : tableGet t a = some v) : (a, v) ∈ t := by
  induction t with
  | nil => simp [tableGet] at h
  | cons y rest ih =>
    obtain ⟨k, w⟩ := y
    simp only [tableGet] at h
    split at h
    · simp_all
    · exact List.mem_cons_of_mem _ (ih h)

end Sys2Proof.Machine
end

