-- ==== Sys2Proof/Laws/History.lean ====
section
/-! SUPPORT. The laws of the History Buffer: what an append, a reset, a range read and a match copy do. -/

namespace Sys2Proof.Machine

/-! ### Append -/

@[simp] theorem HistBuf.push_cursor (h : HistBuf) (b : Byte) : (h.push b).cursor = h.cursor + 1 := rfl

@[simp] theorem HistBuf.push_mem (h : HistBuf) (b : Byte) : (h.push b).mem = tablePut h.mem h.cursor b := rfl

@[simp] theorem HistBuf.reset_cursor (h : HistBuf) : h.reset.cursor = 0 := rfl

@[simp] theorem HistBuf.reset_mem (h : HistBuf) : h.reset.mem = h.mem := rfl

/-- Below the cursor an append changes nothing; at the cursor it puts the byte. -/
theorem HistBuf.read_push (h : HistBuf) (b : Byte) (i : Nat) :
    (h.push b).read i = if i = h.cursor then some b else h.read i := by
  simp only [HistBuf.read, HistBuf.push_cursor, HistBuf.push_mem, tableGet_tablePut]
  by_cases h1 : i = h.cursor
  · simp [h1]
  · by_cases h2 : i < h.cursor
    · simp [h1, h2, show i < h.cursor + 1 by omega]
    · simp [h1, h2, show ¬ i < h.cursor + 1 by omega]

/-- HB_APPEND either finds the buffer full or appends (40 R151). -/
theorem HistBuf.append_eq (cap : Nat) (h : HistBuf) (b : Byte) :
    h.append cap b = if h.cursor < cap then some (h.push b) else none := by
  by_cases hc : h.cursor < cap
  · simp [HistBuf.append, hc]
  · simp [HistBuf.append, hc]

theorem HistBuf.push_good {h : HistBuf} {cap : Nat} (b : Byte) (g : h.Good cap) (hc : h.cursor < cap)
    (hcap : cap ≤ 65536) : (h.push b).Good cap where
  wf := tablePut_wf _ _ g.wf
  filled i hi := by
    rw [HistBuf.push_mem, tableGet_tablePut]
    split
    · rfl
    · rw [HistBuf.push_cursor] at hi
      exact g.filled i (by omega)
  bounded x hx := by
    rcases mem_tablePut hx with rfl | hx
    · exact Nat.lt_of_lt_of_le hc hcap
    · exact g.bounded x hx
  fits := hc

theorem HistBuf.reset_good {h : HistBuf} {cap : Nat} (cap' : Nat) (g : h.Good cap) : h.reset.Good cap' where
  wf := g.wf
  filled i hi := by simp at hi
  bounded := g.bounded
  fits := Nat.zero_le _

theorem capacity_le (p : Profile) : capacity p ≤ 65536 := by
  cases p <;> decide

theorem capacity_ge (p : Profile) : 8192 ≤ capacity p := by
  cases p <;> decide

/-! ### A whole chunk -/

@[simp] theorem HistBuf.pushAll_nil (h : HistBuf) : h.pushAll [] = h := rfl

@[simp] theorem HistBuf.pushAll_cons (h : HistBuf) (b : Byte) (bs : List Byte) :
    h.pushAll (b :: bs) = (h.push b).pushAll bs := rfl

@[simp] theorem HistBuf.pushAll_cursor (h : HistBuf) (bs : List Byte) :
    (h.pushAll bs).cursor = h.cursor + bs.length := by
  induction bs generalizing h with
  | nil => rfl
  | cons b rest ih => simp [ih]; omega

/-- The bytes appended stand from the old cursor on; the others are as they were (44 R277). -/
theorem HistBuf.pushAll_get (h : HistBuf) (bs : List Byte) (i : Nat) :
    tableGet (h.pushAll bs).mem i =
      if h.cursor ≤ i ∧ i < h.cursor + bs.length then bs[i - h.cursor]? else tableGet h.mem i := by
  induction bs generalizing h with
  | nil => simp
  | cons b rest ih =>
    rw [HistBuf.pushAll_cons, ih, HistBuf.push_cursor, HistBuf.push_mem, tableGet_tablePut, List.length_cons]
    by_cases h1 : i = h.cursor
    · subst h1; simp
    · by_cases h2 : h.cursor + 1 ≤ i ∧ i < h.cursor + 1 + rest.length
      · have h3 : i - h.cursor = (i - (h.cursor + 1)) + 1 := by omega
        simp only [h2, and_self, if_true, h3, List.getElem?_cons_succ]
        rw [if_pos (by omega)]
      · rw [if_neg h2, if_neg h1, if_neg (by omega)]

theorem HistBuf.pushAll_good {h : HistBuf} {cap : Nat} (bs : List Byte) (g : h.Good cap)
    (hc : h.cursor + bs.length ≤ cap) (hcap : cap ≤ 65536) : (h.pushAll bs).Good cap := by
  induction bs generalizing h with
  | nil => exact g
  | cons b rest ih =>
    rw [List.length_cons] at hc
    exact ih (HistBuf.push_good b g (by omega) hcap) (by rw [HistBuf.push_cursor]; omega)

/-! ### Reading -/

/-- Below the cursor a good buffer has every byte. -/
theorem HistBuf.Good.read {h : HistBuf} {cap : Nat} (g : h.Good cap) {i : Nat} (hi : i < h.cursor) :
    ∃ b, h.read i = some b := by
  have := g.filled i hi
  rw [HistBuf.read, if_pos hi]
  exact Option.isSome_iff_exists.mp this

/-- A byte that can be read lies below the cursor. -/
theorem HistBuf.read_lt {h : HistBuf} {i : Nat} {b : Byte} (hr : h.read i = some b) : i < h.cursor := by
  simp only [HistBuf.read] at hr
  split at hr
  · assumption
  · cases hr

/-- A range read is the list of its single reads. -/
theorem HistBuf.readRange_iff (h : HistBuf) (i n : Nat) (bs : List Byte) :
    h.readRange i n = some bs ↔ bs.length = n ∧ ∀ k, k < n → h.read (i + k) = bs[k]? := by
  induction n generalizing i bs with
  | zero =>
    simp only [HistBuf.readRange, Option.some.injEq, Nat.not_lt_zero, false_implies, implies_true, and_true,
      List.length_eq_zero_iff]
    exact eq_comm
  | succ n ih =>
    simp only [HistBuf.readRange]
    cases bs with
    | nil => split <;> simp
    | cons b rest =>
      constructor
      · intro hr
        split at hr
        · rename_i b' bs' h1 h2
          simp only [Option.some.injEq, List.cons.injEq] at hr
          obtain ⟨rfl, rfl⟩ := hr
          obtain ⟨hl, hk⟩ := (ih _ _).mp h2
          refine ⟨by simp [hl], ?_⟩
          intro k hk'
          cases k with
          | zero => simpa using h1
          | succ k =>
            have := hk k (by omega)
            rw [List.getElem?_cons_succ, ← this]
            congr 1
            omega
        · cases hr
      · rintro ⟨hl, hk⟩
        have h1 : h.read i = some b := by simpa using hk 0 (by omega)
        have h2 : h.readRange (i + 1) n = some rest := by
          refine (ih _ _).mpr ⟨by simpa using hl, ?_⟩
          intro k hk'
          have := hk (k + 1) (by omega)
          rw [List.getElem?_cons_succ] at this
          rw [← this]
          congr 1
          omega
        rw [h1, h2]

/-- A good buffer gives every range below its cursor. -/
theorem HistBuf.Good.readRange {h : HistBuf} {cap : Nat} (g : h.Good cap) {i n : Nat} (hi : i + n ≤ h.cursor) :
    ∃ bs, h.readRange i n = some bs := by
  induction n generalizing i with
  | zero => exact ⟨[], rfl⟩
  | succ n ih =>
    obtain ⟨b, hb⟩ := g.read (i := i) (by omega)
    obtain ⟨bs, hbs⟩ := ih (i := i + 1) (by omega)
    exact ⟨b :: bs, by simp [HistBuf.readRange, hb, hbs]⟩

/-- What was appended reads back. -/
theorem HistBuf.readRange_pushAll (h : HistBuf) (bs : List Byte) :
    (h.pushAll bs).readRange h.cursor bs.length = some bs := by
  refine (HistBuf.readRange_iff _ _ _ _).mpr ⟨rfl, ?_⟩
  intro k hk
  rw [HistBuf.read, HistBuf.pushAll_cursor, if_pos (by omega), HistBuf.pushAll_get, if_pos (by omega)]
  congr 1
  omega

/-- Equal reads give equal ranges. -/
theorem HistBuf.readRange_congr {g h : HistBuf} {i n : Nat} (hr : ∀ k, k < n → g.read (i + k) = h.read (i + k)) :
    g.readRange i n = h.readRange i n := by
  induction n generalizing i with
  | zero => rfl
  | succ n ih =>
    have h0 := hr 0 (by omega)
    have h1 := ih (i := i + 1) (fun k hk => by
      have := hr (k + 1) (by omega)
      rwa [show i + (k + 1) = i + 1 + k by omega] at this)
    simp only [Nat.add_zero] at h0
    simp only [HistBuf.readRange, h0, h1]

/-! ### The match copy (40 R154, 43 R249) -/

/-- Everything a copy that succeeds does: it advances the cursor by `n`, writes only there, and each new byte is the byte
`off` before it. -/
theorem HistBuf.copy_some {off : Nat} {h h' : HistBuf} {n : Nat} (h1 : 1 ≤ off) (h2 : off ≤ h.cursor)
    (hc : h.copy off n = some h') :
    h'.cursor = h.cursor + n ∧
    (∀ i, i < h.cursor ∨ h.cursor + n ≤ i → tableGet h'.mem i = tableGet h.mem i) ∧
    (∀ k, k < n → h'.read (h.cursor + k) = h'.read (h.cursor + k - off)) := by
  induction n generalizing h with
  | zero =>
    simp only [HistBuf.copy, Option.some.injEq] at hc
    subst hc
    exact ⟨rfl, fun _ _ => rfl, fun k hk => absurd hk (Nat.not_lt_zero k)⟩
  | succ n ih =>
    simp only [HistBuf.copy] at hc
    split at hc
    · rename_i b hb
      obtain ⟨c1, c2, c3⟩ := ih (by rw [HistBuf.push_cursor]; omega) hc
      rw [HistBuf.push_cursor] at c1 c2 c3
      have hget : ∀ i, i < h.cursor ∨ h.cursor + (n + 1) ≤ i → tableGet h'.mem i = tableGet h.mem i := by
        intro i hi
        rw [c2 i (by omega), HistBuf.push_mem, tableGet_tablePut_ne _ _ (by omega)]
      refine ⟨by omega, hget, ?_⟩
      intro k hk
      cases k with
      | zero =>
        have hlt : h.cursor - off < h.cursor := by omega
        have hb' : tableGet h.mem (h.cursor - off) = some b := by
          simpa [HistBuf.read, hlt] using hb
        have e1 : h'.read h.cursor = some b := by
          rw [HistBuf.read, if_pos (by omega), c2 _ (by omega), HistBuf.push_mem]
          simp
        have e2 : h'.read (h.cursor - off) = some b := by
          rw [HistBuf.read, if_pos (by omega), hget _ (by omega), hb']
        rw [Nat.add_zero, e1, e2]
      | succ k =>
        have := c3 k (by omega)
        rwa [show h.cursor + 1 + k = h.cursor + (k + 1) by omega] at this
    · cases hc

/-- A copy from a good buffer succeeds where its operands are in range, and leaves it good (40 R154). -/
theorem HistBuf.copy_good {off : Nat} {h : HistBuf} {cap n : Nat} (g : h.Good cap) (h1 : 1 ≤ off)
    (h2 : off ≤ h.cursor) (hc : h.cursor + n ≤ cap) (hcap : cap ≤ 65536) :
    ∃ h', h.copy off n = some h' ∧ h'.Good cap := by
  induction n generalizing h with
  | zero => exact ⟨h, rfl, g⟩
  | succ n ih =>
    obtain ⟨b, hb⟩ := g.read (i := h.cursor - off) (by omega)
    obtain ⟨h', e, g'⟩ := ih (HistBuf.push_good b g (by omega) hcap) (by rw [HistBuf.push_cursor]; omega)
      (by rw [HistBuf.push_cursor]; omega)
    exact ⟨h', by simp [HistBuf.copy, hb, e], g'⟩

/-- A copy that follows another buffer: where the buffer's bytes below the cursor are those of `g`, and the next `n` bytes
of `g` repeat at distance `off`, the copy gives the bytes of `g` (44 R291 item 2). -/
theorem HistBuf.copy_follows {off : Nat} {g h : HistBuf} {n : Nat} (h1 : 1 ≤ off) (h2 : off ≤ h.cursor)
    (hsame : ∀ i, i < h.cursor → h.read i = g.read i)
    (hnext : ∀ k, k < n → ∃ b, g.read (h.cursor + k - off) = some b ∧ g.read (h.cursor + k) = some b) :
    ∃ h', h.copy off n = some h' ∧ h'.cursor = h.cursor + n ∧ ∀ i, i < h'.cursor → h'.read i = g.read i := by
  induction n generalizing h with
  | zero => exact ⟨h, rfl, rfl, hsame⟩
  | succ n ih =>
    obtain ⟨b, hb1, hb2⟩ := hnext 0 (by omega)
    rw [Nat.add_zero] at hb1 hb2
    have hb : h.read (h.cursor - off) = some b := by rw [hsame _ (by omega), hb1]
    obtain ⟨h', e, hcur, hall⟩ := ih (h := h.push b) (by rw [HistBuf.push_cursor]; omega)
      (fun i hi => by
        rw [HistBuf.push_cursor] at hi
        rw [HistBuf.read_push]
        split
        · subst_vars; exact hb2.symm
        · exact hsame i (by omega))
      (fun k hk => by
        obtain ⟨c, hc1, hc2⟩ := hnext (k + 1) (by omega)
        refine ⟨c, ?_, ?_⟩
        · rwa [HistBuf.push_cursor, show h.cursor + 1 + k - off = h.cursor + (k + 1) - off by omega]
        · rwa [HistBuf.push_cursor, show h.cursor + 1 + k = h.cursor + (k + 1) by omega])
    exact ⟨h', by simp [HistBuf.copy, hb, e], by rw [hcur, HistBuf.push_cursor]; omega, hall⟩

end Sys2Proof.Machine
end

