-- ==== Sys2Proof/Laws/State.lean ====
section
/-! SUPPORT. One lemma for each field under each update of the state, so that no proof unfolds a record update. -/

namespace Sys2Proof.Machine

/-! ### Responses -/

@[simp] theorem State.reply_params (s : State) (p : Port) (b : List Byte) :
    (s.reply p b).params = s.params := rfl

@[simp] theorem State.reply_enc (s : State) (p : Port) (b : List Byte) :
    (s.reply p b).enc = s.enc := rfl

@[simp] theorem State.reply_dec (s : State) (p : Port) (b : List Byte) :
    (s.reply p b).dec = s.dec := rfl

@[simp] theorem State.reply_inbox (s : State) (p : Port) (b : List Byte) :
    (s.reply p b).inbox = s.inbox := rfl

@[simp] theorem State.reply_outbox (s : State) (p : Port) (b : List Byte) :
    (s.reply p b).outbox = s.outbox ++ [{ port := p, bytes := b }] := rfl

/-! ### Refusals -/

@[simp] theorem State.refuse_params (s : State) (p : Port) (c : Byte) :
    (s.refuse p c).params = s.params := rfl

@[simp] theorem State.refuse_enc (s : State) (p : Port) (c : Byte) :
    (s.refuse p c).enc = s.enc := rfl

@[simp] theorem State.refuse_dec (s : State) (p : Port) (c : Byte) :
    (s.refuse p c).dec = s.dec := rfl

@[simp] theorem State.refuse_inbox (s : State) (p : Port) (c : Byte) :
    (s.refuse p c).inbox = s.inbox := rfl

@[simp] theorem State.refuse_outbox (s : State) (p : Port) (c : Byte) :
    (s.refuse p c).outbox = s.outbox ++ [{ port := p, bytes := [c] }] := rfl

/-! ### Errors -/

@[simp] theorem State.raise_params (s : State) (e : DecError) (n : Nat) :
    (s.raise e n).params = s.params := rfl

@[simp] theorem State.raise_enc (s : State) (e : DecError) (n : Nat) :
    (s.raise e n).enc = s.enc := rfl

@[simp] theorem State.raise_dec (s : State) (e : DecError) (n : Nat) :
    (s.raise e n).dec = { s.dec with status := e.status, faultPos := BitVec.ofNat 35 n, busy := false } := rfl

@[simp] theorem State.raise_inbox (s : State) (e : DecError) (n : Nat) :
    (s.raise e n).inbox = s.inbox := rfl

@[simp] theorem State.raise_outbox (s : State) (e : DecError) (n : Nat) :
    (s.raise e n).outbox = s.outbox ++ [{ port := .dec, bytes := [e.status] }] := rfl

/-! ### Errors inside a token -/

@[simp] theorem State.raiseToken_params (s : State) (e : DecError) :
    (s.raiseToken e).params = s.params := rfl

@[simp] theorem State.raiseToken_enc (s : State) (e : DecError) :
    (s.raiseToken e).enc = s.enc := rfl

@[simp] theorem State.raiseToken_dec (s : State) (e : DecError) :
    (s.raiseToken e).dec = { s.dec with status := e.status, faultPos := BitVec.ofNat 35 s.dec.tokStart, busy := false } := rfl

@[simp] theorem State.raiseToken_inbox (s : State) (e : DecError) :
    (s.raiseToken e).inbox = s.inbox := rfl

@[simp] theorem State.raiseToken_outbox (s : State) (e : DecError) :
    (s.raiseToken e).outbox = s.outbox ++ [{ port := .dec, bytes := [e.status] }] := rfl

/-! ### The length of a match -/

@[simp] theorem State.takeLength_params (s : State) (n : Nat) :
    (s.takeLength n).params = s.params := rfl

@[simp] theorem State.takeLength_enc (s : State) (n : Nat) :
    (s.takeLength n).enc = s.enc := rfl

@[simp] theorem State.takeLength_dec (s : State) (n : Nat) :
    (s.takeLength n).dec = { s.dec with len := n, part := .head } := rfl

@[simp] theorem State.takeLength_inbox (s : State) (n : Nat) :
    (s.takeLength n).inbox = s.inbox := rfl

@[simp] theorem State.takeLength_outbox (s : State) (n : Nat) :
    (s.takeLength n).outbox = s.outbox := rfl

/-! ### The bit cursor -/

@[simp] theorem State.passBits_params (s : State) (n : Nat) :
    (s.passBits n).params = s.params := rfl

@[simp] theorem State.passBits_enc (s : State) (n : Nat) :
    (s.passBits n).enc = s.enc := rfl

@[simp] theorem State.passBits_dec (s : State) (n : Nat) :
    (s.passBits n).dec = { s.dec with bitPos := s.dec.bitPos + n } := rfl

@[simp] theorem State.passBits_inbox (s : State) (n : Nat) :
    (s.passBits n).inbox = s.inbox := rfl

@[simp] theorem State.passBits_outbox (s : State) (n : Nat) :
    (s.passBits n).outbox = s.outbox := rfl

/-! ### The start of a token -/

@[simp] theorem State.startToken_params (s : State) :
    s.startToken.params = s.params := rfl

@[simp] theorem State.startToken_enc (s : State) :
    s.startToken.enc = s.enc := rfl

@[simp] theorem State.startToken_dec (s : State) :
    s.startToken.dec = { s.dec with tokStart := s.dec.bitPos } := rfl

@[simp] theorem State.startToken_inbox (s : State) :
    s.startToken.inbox = s.inbox := rfl

@[simp] theorem State.startToken_outbox (s : State) :
    s.startToken.outbox = s.outbox := rfl

/-! ### The expansion fallback -/

@[simp] theorem State.encFallback_params (s : State) (c : List Byte) :
    (s.encFallback c).params = s.params := rfl

@[simp] theorem State.encFallback_enc (s : State) (c : List Byte) :
    (s.encFallback c).enc = { s.enc.resetHistory with session := .fresh, busy := false } := rfl

@[simp] theorem State.encFallback_dec (s : State) (c : List Byte) :
    (s.encFallback c).dec = s.dec := rfl

@[simp] theorem State.encFallback_inbox (s : State) (c : List Byte) :
    (s.encFallback c).inbox = s.inbox := rfl

@[simp] theorem State.encFallback_outbox (s : State) (c : List Byte) :
    (s.encFallback c).outbox = s.outbox ++ [{ port := .enc, bytes := compressReply (flagsOfFallback s.enc.profile) c }] := rfl

/-! ### The compressed result -/

@[simp] theorem State.encResult_params (s : State) :
    s.encResult.params = s.params := rfl

@[simp] theorem State.encResult_enc (s : State) :
    s.encResult.enc = { s.enc with busy := false } := rfl

@[simp] theorem State.encResult_dec (s : State) :
    s.encResult.dec = s.dec := rfl

@[simp] theorem State.encResult_inbox (s : State) :
    s.encResult.inbox = s.inbox := rfl

@[simp] theorem State.encResult_outbox (s : State) :
    s.encResult.outbox = s.outbox ++
      [{ port := .enc
         bytes := compressReply (flagsOfCompressed s.enc.atFront s.enc.profile) (packBits s.enc.out) }] := rfl

/-! ### HB_RESET in the encoder -/

@[simp] theorem EncUnit.resetHistory_ready (e : EncUnit) :
    e.resetHistory.ready = e.ready := rfl

@[simp] theorem EncUnit.resetHistory_profile (e : EncUnit) :
    e.resetHistory.profile = e.profile := rfl

@[simp] theorem EncUnit.resetHistory_session (e : EncUnit) :
    e.resetHistory.session = e.session := rfl

@[simp] theorem EncUnit.resetHistory_hb (e : EncUnit) :
    e.resetHistory.hb = e.hb.reset := rfl

@[simp] theorem EncUnit.resetHistory_slots (e : EncUnit) :
    e.resetHistory.slots = [] := rfl

@[simp] theorem EncUnit.resetHistory_status (e : EncUnit) :
    e.resetHistory.status = e.status := rfl

@[simp] theorem EncUnit.resetHistory_busy (e : EncUnit) :
    e.resetHistory.busy = e.busy := rfl

@[simp] theorem EncUnit.resetHistory_chunk (e : EncUnit) :
    e.resetHistory.chunk = e.chunk := rfl

@[simp] theorem EncUnit.resetHistory_atFront (e : EncUnit) :
    e.resetHistory.atFront = e.atFront := rfl

@[simp] theorem EncUnit.resetHistory_start (e : EncUnit) :
    e.resetHistory.start = e.start := rfl

@[simp] theorem EncUnit.resetHistory_stop (e : EncUnit) :
    e.resetHistory.stop = e.stop := rfl

@[simp] theorem EncUnit.resetHistory_pos (e : EncUnit) :
    e.resetHistory.pos = e.pos := rfl

@[simp] theorem EncUnit.resetHistory_hv (e : EncUnit) :
    e.resetHistory.hv = e.hv := rfl

@[simp] theorem EncUnit.resetHistory_cand (e : EncUnit) :
    e.resetHistory.cand = e.cand := rfl

@[simp] theorem EncUnit.resetHistory_len (e : EncUnit) :
    e.resetHistory.len = e.len := rfl

@[simp] theorem EncUnit.resetHistory_off (e : EncUnit) :
    e.resetHistory.off = e.off := rfl

@[simp] theorem EncUnit.resetHistory_out (e : EncUnit) :
    e.resetHistory.out = e.out := rfl

@[simp] theorem EncUnit.resetHistory_draws (e : EncUnit) :
    e.resetHistory.draws = e.draws := rfl

/-! ### ENC_INIT -/

@[simp] theorem EncUnit.init_ready (e : EncUnit) (p : Profile) :
    (e.init p).ready = true := rfl

@[simp] theorem EncUnit.init_profile (e : EncUnit) (p : Profile) :
    (e.init p).profile = p := rfl

@[simp] theorem EncUnit.init_session (e : EncUnit) (p : Profile) :
    (e.init p).session = .fresh := rfl

@[simp] theorem EncUnit.init_hb (e : EncUnit) (p : Profile) :
    (e.init p).hb = e.hb.reset := rfl

@[simp] theorem EncUnit.init_slots (e : EncUnit) (p : Profile) :
    (e.init p).slots = [] := rfl

@[simp] theorem EncUnit.init_status (e : EncUnit) (p : Profile) :
    (e.init p).status = 0#8 := rfl

@[simp] theorem EncUnit.init_busy (e : EncUnit) (p : Profile) :
    (e.init p).busy = false := rfl

@[simp] theorem EncUnit.init_chunk (e : EncUnit) (p : Profile) :
    (e.init p).chunk = e.chunk := rfl

@[simp] theorem EncUnit.init_atFront (e : EncUnit) (p : Profile) :
    (e.init p).atFront = e.atFront := rfl

@[simp] theorem EncUnit.init_start (e : EncUnit) (p : Profile) :
    (e.init p).start = e.start := rfl

@[simp] theorem EncUnit.init_stop (e : EncUnit) (p : Profile) :
    (e.init p).stop = e.stop := rfl

@[simp] theorem EncUnit.init_pos (e : EncUnit) (p : Profile) :
    (e.init p).pos = e.pos := rfl

@[simp] theorem EncUnit.init_hv (e : EncUnit) (p : Profile) :
    (e.init p).hv = e.hv := rfl

@[simp] theorem EncUnit.init_cand (e : EncUnit) (p : Profile) :
    (e.init p).cand = e.cand := rfl

@[simp] theorem EncUnit.init_len (e : EncUnit) (p : Profile) :
    (e.init p).len = e.len := rfl

@[simp] theorem EncUnit.init_off (e : EncUnit) (p : Profile) :
    (e.init p).off = e.off := rfl

@[simp] theorem EncUnit.init_out (e : EncUnit) (p : Profile) :
    (e.init p).out = e.out := rfl

@[simp] theorem EncUnit.init_draws (e : EncUnit) (p : Profile) :
    (e.init p).draws = e.draws := rfl

/-! ### One token part emitted -/

@[simp] theorem EncUnit.put_ready (e : EncUnit) (i : Instr) :
    (e.put i).ready = e.ready := rfl

@[simp] theorem EncUnit.put_profile (e : EncUnit) (i : Instr) :
    (e.put i).profile = e.profile := rfl

@[simp] theorem EncUnit.put_session (e : EncUnit) (i : Instr) :
    (e.put i).session = e.session := rfl

@[simp] theorem EncUnit.put_hb (e : EncUnit) (i : Instr) :
    (e.put i).hb = e.hb := rfl

@[simp] theorem EncUnit.put_slots (e : EncUnit) (i : Instr) :
    (e.put i).slots = e.slots := rfl

@[simp] theorem EncUnit.put_status (e : EncUnit) (i : Instr) :
    (e.put i).status = e.status := rfl

@[simp] theorem EncUnit.put_busy (e : EncUnit) (i : Instr) :
    (e.put i).busy = e.busy := rfl

@[simp] theorem EncUnit.put_chunk (e : EncUnit) (i : Instr) :
    (e.put i).chunk = e.chunk := rfl

@[simp] theorem EncUnit.put_atFront (e : EncUnit) (i : Instr) :
    (e.put i).atFront = e.atFront := rfl

@[simp] theorem EncUnit.put_start (e : EncUnit) (i : Instr) :
    (e.put i).start = e.start := rfl

@[simp] theorem EncUnit.put_stop (e : EncUnit) (i : Instr) :
    (e.put i).stop = e.stop := rfl

@[simp] theorem EncUnit.put_pos (e : EncUnit) (i : Instr) :
    (e.put i).pos = e.pos := rfl

@[simp] theorem EncUnit.put_hv (e : EncUnit) (i : Instr) :
    (e.put i).hv = e.hv := rfl

@[simp] theorem EncUnit.put_cand (e : EncUnit) (i : Instr) :
    (e.put i).cand = e.cand := rfl

@[simp] theorem EncUnit.put_len (e : EncUnit) (i : Instr) :
    (e.put i).len = e.len := rfl

@[simp] theorem EncUnit.put_off (e : EncUnit) (i : Instr) :
    (e.put i).off = e.off := rfl

@[simp] theorem EncUnit.put_out (e : EncUnit) (i : Instr) :
    (e.put i).out = e.out ++ tokenBits i := rfl

@[simp] theorem EncUnit.put_draws (e : EncUnit) (i : Instr) :
    (e.put i).draws = e.draws := rfl

/-! ### A literal emitted -/

@[simp] theorem EncUnit.emitLiteral_ready (e : EncUnit) (c : Byte) :
    (e.emitLiteral c).ready = e.ready := rfl

@[simp] theorem EncUnit.emitLiteral_profile (e : EncUnit) (c : Byte) :
    (e.emitLiteral c).profile = e.profile := rfl

@[simp] theorem EncUnit.emitLiteral_session (e : EncUnit) (c : Byte) :
    (e.emitLiteral c).session = e.session := rfl

@[simp] theorem EncUnit.emitLiteral_hb (e : EncUnit) (c : Byte) :
    (e.emitLiteral c).hb = e.hb := rfl

@[simp] theorem EncUnit.emitLiteral_slots (e : EncUnit) (c : Byte) :
    (e.emitLiteral c).slots = e.slots := rfl

@[simp] theorem EncUnit.emitLiteral_status (e : EncUnit) (c : Byte) :
    (e.emitLiteral c).status = e.status := rfl

@[simp] theorem EncUnit.emitLiteral_busy (e : EncUnit) (c : Byte) :
    (e.emitLiteral c).busy = e.busy := rfl

@[simp] theorem EncUnit.emitLiteral_chunk (e : EncUnit) (c : Byte) :
    (e.emitLiteral c).chunk = e.chunk := rfl

@[simp] theorem EncUnit.emitLiteral_atFront (e : EncUnit) (c : Byte) :
    (e.emitLiteral c).atFront = e.atFront := rfl

@[simp] theorem EncUnit.emitLiteral_start (e : EncUnit) (c : Byte) :
    (e.emitLiteral c).start = e.start := rfl

@[simp] theorem EncUnit.emitLiteral_stop (e : EncUnit) (c : Byte) :
    (e.emitLiteral c).stop = e.stop := rfl

@[simp] theorem EncUnit.emitLiteral_pos (e : EncUnit) (c : Byte) :
    (e.emitLiteral c).pos = e.pos := rfl

@[simp] theorem EncUnit.emitLiteral_hv (e : EncUnit) (c : Byte) :
    (e.emitLiteral c).hv = e.hv := rfl

@[simp] theorem EncUnit.emitLiteral_cand (e : EncUnit) (c : Byte) :
    (e.emitLiteral c).cand = e.cand := rfl

@[simp] theorem EncUnit.emitLiteral_len (e : EncUnit) (c : Byte) :
    (e.emitLiteral c).len = e.len := rfl

@[simp] theorem EncUnit.emitLiteral_off (e : EncUnit) (c : Byte) :
    (e.emitLiteral c).off = e.off := rfl

@[simp] theorem EncUnit.emitLiteral_out (e : EncUnit) (c : Byte) :
    (e.emitLiteral c).out = e.out ++ tokenBits (literalForm c) := rfl

@[simp] theorem EncUnit.emitLiteral_draws (e : EncUnit) (c : Byte) :
    (e.emitLiteral c).draws = e.draws := rfl

/-! ### A match emitted -/

@[simp] theorem EncUnit.emitMatch_ready (e : EncUnit) (k : OffsetCode) (o : Nat) (n : Nat) :
    (e.emitMatch k o n).ready = e.ready := rfl

@[simp] theorem EncUnit.emitMatch_profile (e : EncUnit) (k : OffsetCode) (o : Nat) (n : Nat) :
    (e.emitMatch k o n).profile = e.profile := rfl

@[simp] theorem EncUnit.emitMatch_session (e : EncUnit) (k : OffsetCode) (o : Nat) (n : Nat) :
    (e.emitMatch k o n).session = e.session := rfl

@[simp] theorem EncUnit.emitMatch_hb (e : EncUnit) (k : OffsetCode) (o : Nat) (n : Nat) :
    (e.emitMatch k o n).hb = e.hb := rfl

@[simp] theorem EncUnit.emitMatch_slots (e : EncUnit) (k : OffsetCode) (o : Nat) (n : Nat) :
    (e.emitMatch k o n).slots = e.slots := rfl

@[simp] theorem EncUnit.emitMatch_status (e : EncUnit) (k : OffsetCode) (o : Nat) (n : Nat) :
    (e.emitMatch k o n).status = e.status := rfl

@[simp] theorem EncUnit.emitMatch_busy (e : EncUnit) (k : OffsetCode) (o : Nat) (n : Nat) :
    (e.emitMatch k o n).busy = e.busy := rfl

@[simp] theorem EncUnit.emitMatch_chunk (e : EncUnit) (k : OffsetCode) (o : Nat) (n : Nat) :
    (e.emitMatch k o n).chunk = e.chunk := rfl

@[simp] theorem EncUnit.emitMatch_atFront (e : EncUnit) (k : OffsetCode) (o : Nat) (n : Nat) :
    (e.emitMatch k o n).atFront = e.atFront := rfl

@[simp] theorem EncUnit.emitMatch_start (e : EncUnit) (k : OffsetCode) (o : Nat) (n : Nat) :
    (e.emitMatch k o n).start = e.start := rfl

@[simp] theorem EncUnit.emitMatch_stop (e : EncUnit) (k : OffsetCode) (o : Nat) (n : Nat) :
    (e.emitMatch k o n).stop = e.stop := rfl

@[simp] theorem EncUnit.emitMatch_pos (e : EncUnit) (k : OffsetCode) (o : Nat) (n : Nat) :
    (e.emitMatch k o n).pos = e.pos := rfl

@[simp] theorem EncUnit.emitMatch_hv (e : EncUnit) (k : OffsetCode) (o : Nat) (n : Nat) :
    (e.emitMatch k o n).hv = e.hv := rfl

@[simp] theorem EncUnit.emitMatch_cand (e : EncUnit) (k : OffsetCode) (o : Nat) (n : Nat) :
    (e.emitMatch k o n).cand = e.cand := rfl

@[simp] theorem EncUnit.emitMatch_len (e : EncUnit) (k : OffsetCode) (o : Nat) (n : Nat) :
    (e.emitMatch k o n).len = e.len := rfl

@[simp] theorem EncUnit.emitMatch_off (e : EncUnit) (k : OffsetCode) (o : Nat) (n : Nat) :
    (e.emitMatch k o n).off = e.off := rfl

@[simp] theorem EncUnit.emitMatch_out (e : EncUnit) (k : OffsetCode) (o : Nat) (n : Nat) :
    (e.emitMatch k o n).out = e.out ++ tokenBits (offsetForm k o) ++ tokenBits (lengthForm n) := rfl

@[simp] theorem EncUnit.emitMatch_draws (e : EncUnit) (k : OffsetCode) (o : Nat) (n : Nat) :
    (e.emitMatch k o n).draws = e.draws := rfl

/-! ### A match taken -/

@[simp] theorem EncUnit.takeMatch_ready (e : EncUnit) (k : OffsetCode) (c : Nat) (n : Nat) :
    (e.takeMatch k c n).ready = e.ready := rfl

@[simp] theorem EncUnit.takeMatch_profile (e : EncUnit) (k : OffsetCode) (c : Nat) (n : Nat) :
    (e.takeMatch k c n).profile = e.profile := rfl

@[simp] theorem EncUnit.takeMatch_session (e : EncUnit) (k : OffsetCode) (c : Nat) (n : Nat) :
    (e.takeMatch k c n).session = e.session := rfl

@[simp] theorem EncUnit.takeMatch_hb (e : EncUnit) (k : OffsetCode) (c : Nat) (n : Nat) :
    (e.takeMatch k c n).hb = e.hb := rfl

@[simp] theorem EncUnit.takeMatch_slots (e : EncUnit) (k : OffsetCode) (c : Nat) (n : Nat) :
    (e.takeMatch k c n).slots = e.slots := rfl

@[simp] theorem EncUnit.takeMatch_status (e : EncUnit) (k : OffsetCode) (c : Nat) (n : Nat) :
    (e.takeMatch k c n).status = e.status := rfl

@[simp] theorem EncUnit.takeMatch_busy (e : EncUnit) (k : OffsetCode) (c : Nat) (n : Nat) :
    (e.takeMatch k c n).busy = e.busy := rfl

@[simp] theorem EncUnit.takeMatch_chunk (e : EncUnit) (k : OffsetCode) (c : Nat) (n : Nat) :
    (e.takeMatch k c n).chunk = e.chunk := rfl

@[simp] theorem EncUnit.takeMatch_atFront (e : EncUnit) (k : OffsetCode) (c : Nat) (n : Nat) :
    (e.takeMatch k c n).atFront = e.atFront := rfl

@[simp] theorem EncUnit.takeMatch_start (e : EncUnit) (k : OffsetCode) (c : Nat) (n : Nat) :
    (e.takeMatch k c n).start = e.start := rfl

@[simp] theorem EncUnit.takeMatch_stop (e : EncUnit) (k : OffsetCode) (c : Nat) (n : Nat) :
    (e.takeMatch k c n).stop = e.stop := rfl

@[simp] theorem EncUnit.takeMatch_pos (e : EncUnit) (k : OffsetCode) (c : Nat) (n : Nat) :
    (e.takeMatch k c n).pos = e.pos + n := rfl

@[simp] theorem EncUnit.takeMatch_hv (e : EncUnit) (k : OffsetCode) (c : Nat) (n : Nat) :
    (e.takeMatch k c n).hv = e.hv := rfl

@[simp] theorem EncUnit.takeMatch_cand (e : EncUnit) (k : OffsetCode) (c : Nat) (n : Nat) :
    (e.takeMatch k c n).cand = e.cand := rfl

@[simp] theorem EncUnit.takeMatch_len (e : EncUnit) (k : OffsetCode) (c : Nat) (n : Nat) :
    (e.takeMatch k c n).len = n := rfl

@[simp] theorem EncUnit.takeMatch_off (e : EncUnit) (k : OffsetCode) (c : Nat) (n : Nat) :
    (e.takeMatch k c n).off = e.pos - c := rfl

@[simp] theorem EncUnit.takeMatch_out (e : EncUnit) (k : OffsetCode) (c : Nat) (n : Nat) :
    (e.takeMatch k c n).out = e.out ++ tokenBits (offsetForm k (e.pos - c)) ++ tokenBits (lengthForm n) := rfl

@[simp] theorem EncUnit.takeMatch_draws (e : EncUnit) (k : OffsetCode) (c : Nat) (n : Nat) :
    (e.takeMatch k c n).draws = e.draws := rfl

/-! ### The load of a chunk -/

@[simp] theorem EncUnit.load_ready (e : EncUnit) (c : List Byte) :
    (e.load c).ready = e.ready := by
  simp only [EncUnit.load]; split <;> rfl

@[simp] theorem EncUnit.load_profile (e : EncUnit) (c : List Byte) :
    (e.load c).profile = e.profile := by
  simp only [EncUnit.load]; split <;> rfl

@[simp] theorem EncUnit.load_session (e : EncUnit) (c : List Byte) :
    (e.load c).session = .active := rfl

@[simp] theorem EncUnit.load_hb (e : EncUnit) (c : List Byte) :
    (e.load c).hb = (if e.startsEpoch c then e.hb.reset else e.hb).pushAll c := by
  simp only [EncUnit.load]; split <;> rfl

@[simp] theorem EncUnit.load_slots (e : EncUnit) (c : List Byte) :
    (e.load c).slots = if e.startsEpoch c then [] else e.slots := by
  simp only [EncUnit.load]; split <;> rfl

@[simp] theorem EncUnit.load_status (e : EncUnit) (c : List Byte) :
    (e.load c).status = e.status := by
  simp only [EncUnit.load]; split <;> rfl

@[simp] theorem EncUnit.load_busy (e : EncUnit) (c : List Byte) :
    (e.load c).busy = true := rfl

@[simp] theorem EncUnit.load_chunk (e : EncUnit) (c : List Byte) :
    (e.load c).chunk = c := rfl

@[simp] theorem EncUnit.load_atFront (e : EncUnit) (c : List Byte) :
    (e.load c).atFront = e.startsEpoch c := rfl

@[simp] theorem EncUnit.load_start (e : EncUnit) (c : List Byte) :
    (e.load c).start = if e.startsEpoch c then 0 else e.hb.cursor := by
  simp only [EncUnit.load]; split <;> rfl

@[simp] theorem EncUnit.load_stop (e : EncUnit) (c : List Byte) :
    (e.load c).stop = (if e.startsEpoch c then 0 else e.hb.cursor) + c.length := by
  simp only [EncUnit.load]; split <;> rfl

@[simp] theorem EncUnit.load_pos (e : EncUnit) (c : List Byte) :
    (e.load c).pos = if e.startsEpoch c then 0 else e.hb.cursor := by
  simp only [EncUnit.load]; split <;> rfl

@[simp] theorem EncUnit.load_hv (e : EncUnit) (c : List Byte) :
    (e.load c).hv = e.hv := by
  simp only [EncUnit.load]; split <;> rfl

@[simp] theorem EncUnit.load_cand (e : EncUnit) (c : List Byte) :
    (e.load c).cand = e.cand := by
  simp only [EncUnit.load]; split <;> rfl

@[simp] theorem EncUnit.load_len (e : EncUnit) (c : List Byte) :
    (e.load c).len = e.len := by
  simp only [EncUnit.load]; split <;> rfl

@[simp] theorem EncUnit.load_off (e : EncUnit) (c : List Byte) :
    (e.load c).off = e.off := by
  simp only [EncUnit.load]; split <;> rfl

@[simp] theorem EncUnit.load_out (e : EncUnit) (c : List Byte) :
    (e.load c).out = [] := rfl

@[simp] theorem EncUnit.load_draws (e : EncUnit) (c : List Byte) :
    (e.load c).draws = e.draws := by
  simp only [EncUnit.load]; split <;> rfl

/-! ### HB_RESET in the decoder -/

@[simp] theorem DecUnit.resetHistory_ready (d : DecUnit) :
    d.resetHistory.ready = d.ready := rfl

@[simp] theorem DecUnit.resetHistory_profile (d : DecUnit) :
    d.resetHistory.profile = d.profile := rfl

@[simp] theorem DecUnit.resetHistory_hb (d : DecUnit) :
    d.resetHistory.hb = d.hb.reset := rfl

@[simp] theorem DecUnit.resetHistory_status (d : DecUnit) :
    d.resetHistory.status = d.status := rfl

@[simp] theorem DecUnit.resetHistory_faultPos (d : DecUnit) :
    d.resetHistory.faultPos = d.faultPos := rfl

@[simp] theorem DecUnit.resetHistory_busy (d : DecUnit) :
    d.resetHistory.busy = d.busy := rfl

@[simp] theorem DecUnit.resetHistory_part (d : DecUnit) :
    d.resetHistory.part = d.part := rfl

@[simp] theorem DecUnit.resetHistory_input (d : DecUnit) :
    d.resetHistory.input = d.input := rfl

@[simp] theorem DecUnit.resetHistory_bitPos (d : DecUnit) :
    d.resetHistory.bitPos = d.bitPos := rfl

@[simp] theorem DecUnit.resetHistory_tokStart (d : DecUnit) :
    d.resetHistory.tokStart = d.tokStart := rfl

@[simp] theorem DecUnit.resetHistory_outStart (d : DecUnit) :
    d.resetHistory.outStart = d.outStart := rfl

@[simp] theorem DecUnit.resetHistory_off (d : DecUnit) :
    d.resetHistory.off = d.off := rfl

@[simp] theorem DecUnit.resetHistory_len (d : DecUnit) :
    d.resetHistory.len = d.len := rfl

/-! ### DEC_INIT -/

@[simp] theorem DecUnit.init_ready (d : DecUnit) (p : Profile) :
    (d.init p).ready = true := rfl

@[simp] theorem DecUnit.init_profile (d : DecUnit) (p : Profile) :
    (d.init p).profile = p := rfl

@[simp] theorem DecUnit.init_hb (d : DecUnit) (p : Profile) :
    (d.init p).hb = d.hb.reset := rfl

@[simp] theorem DecUnit.init_status (d : DecUnit) (p : Profile) :
    (d.init p).status = 0#8 := rfl

@[simp] theorem DecUnit.init_faultPos (d : DecUnit) (p : Profile) :
    (d.init p).faultPos = 0#35 := rfl

@[simp] theorem DecUnit.init_busy (d : DecUnit) (p : Profile) :
    (d.init p).busy = false := rfl

@[simp] theorem DecUnit.init_part (d : DecUnit) (p : Profile) :
    (d.init p).part = d.part := rfl

@[simp] theorem DecUnit.init_input (d : DecUnit) (p : Profile) :
    (d.init p).input = d.input := rfl

@[simp] theorem DecUnit.init_bitPos (d : DecUnit) (p : Profile) :
    (d.init p).bitPos = d.bitPos := rfl

@[simp] theorem DecUnit.init_tokStart (d : DecUnit) (p : Profile) :
    (d.init p).tokStart = d.tokStart := rfl

@[simp] theorem DecUnit.init_outStart (d : DecUnit) (p : Profile) :
    (d.init p).outStart = d.outStart := rfl

@[simp] theorem DecUnit.init_off (d : DecUnit) (p : Profile) :
    (d.init p).off = d.off := rfl

@[simp] theorem DecUnit.init_len (d : DecUnit) (p : Profile) :
    (d.init p).len = d.len := rfl

/-! ### The reset decision of a packet -/

@[simp] theorem DecUnit.openPacket_ready (d : DecUnit) (f : Byte) :
    (d.openPacket f).ready = d.ready := by
  simp only [DecUnit.openPacket]; split <;> rfl

@[simp] theorem DecUnit.openPacket_profile (d : DecUnit) (f : Byte) :
    (d.openPacket f).profile = d.profile := by
  simp only [DecUnit.openPacket]; split <;> rfl

@[simp] theorem DecUnit.openPacket_hb (d : DecUnit) (f : Byte) :
    (d.openPacket f).hb = if flagAtFront f || flagFlushed f then d.hb.reset else d.hb := by
  simp only [DecUnit.openPacket]; split <;> rfl

@[simp] theorem DecUnit.openPacket_status (d : DecUnit) (f : Byte) :
    (d.openPacket f).status = d.status := by
  simp only [DecUnit.openPacket]; split <;> rfl

@[simp] theorem DecUnit.openPacket_faultPos (d : DecUnit) (f : Byte) :
    (d.openPacket f).faultPos = d.faultPos := by
  simp only [DecUnit.openPacket]; split <;> rfl

@[simp] theorem DecUnit.openPacket_busy (d : DecUnit) (f : Byte) :
    (d.openPacket f).busy = d.busy := by
  simp only [DecUnit.openPacket]; split <;> rfl

@[simp] theorem DecUnit.openPacket_part (d : DecUnit) (f : Byte) :
    (d.openPacket f).part = d.part := by
  simp only [DecUnit.openPacket]; split <;> rfl

@[simp] theorem DecUnit.openPacket_input (d : DecUnit) (f : Byte) :
    (d.openPacket f).input = d.input := by
  simp only [DecUnit.openPacket]; split <;> rfl

@[simp] theorem DecUnit.openPacket_bitPos (d : DecUnit) (f : Byte) :
    (d.openPacket f).bitPos = d.bitPos := by
  simp only [DecUnit.openPacket]; split <;> rfl

@[simp] theorem DecUnit.openPacket_tokStart (d : DecUnit) (f : Byte) :
    (d.openPacket f).tokStart = d.tokStart := by
  simp only [DecUnit.openPacket]; split <;> rfl

@[simp] theorem DecUnit.openPacket_outStart (d : DecUnit) (f : Byte) :
    (d.openPacket f).outStart = if flagAtFront f || flagFlushed f then 0 else d.hb.cursor := by
  simp only [DecUnit.openPacket]; split <;> rfl

@[simp] theorem DecUnit.openPacket_off (d : DecUnit) (f : Byte) :
    (d.openPacket f).off = d.off := by
  simp only [DecUnit.openPacket]; split <;> rfl

@[simp] theorem DecUnit.openPacket_len (d : DecUnit) (f : Byte) :
    (d.openPacket f).len = d.len := by
  simp only [DecUnit.openPacket]; split <;> rfl

/-! ### A raw payload appended -/

@[simp] theorem DecUnit.appendRaw_ready (d : DecUnit) (b : List Byte) :
    (d.appendRaw b).ready = d.ready := by
  simp only [DecUnit.appendRaw]; split <;> rfl

@[simp] theorem DecUnit.appendRaw_profile (d : DecUnit) (b : List Byte) :
    (d.appendRaw b).profile = d.profile := by
  simp only [DecUnit.appendRaw]; split <;> rfl

@[simp] theorem DecUnit.appendRaw_hb (d : DecUnit) (b : List Byte) :
    (d.appendRaw b).hb = if b.length ≤ capacity d.profile then d.hb.pushAll b else d.hb := by
  simp only [DecUnit.appendRaw]; split <;> rfl

@[simp] theorem DecUnit.appendRaw_status (d : DecUnit) (b : List Byte) :
    (d.appendRaw b).status = d.status := by
  simp only [DecUnit.appendRaw]; split <;> rfl

@[simp] theorem DecUnit.appendRaw_faultPos (d : DecUnit) (b : List Byte) :
    (d.appendRaw b).faultPos = d.faultPos := by
  simp only [DecUnit.appendRaw]; split <;> rfl

@[simp] theorem DecUnit.appendRaw_busy (d : DecUnit) (b : List Byte) :
    (d.appendRaw b).busy = d.busy := by
  simp only [DecUnit.appendRaw]; split <;> rfl

@[simp] theorem DecUnit.appendRaw_part (d : DecUnit) (b : List Byte) :
    (d.appendRaw b).part = d.part := by
  simp only [DecUnit.appendRaw]; split <;> rfl

@[simp] theorem DecUnit.appendRaw_input (d : DecUnit) (b : List Byte) :
    (d.appendRaw b).input = d.input := by
  simp only [DecUnit.appendRaw]; split <;> rfl

@[simp] theorem DecUnit.appendRaw_bitPos (d : DecUnit) (b : List Byte) :
    (d.appendRaw b).bitPos = d.bitPos := by
  simp only [DecUnit.appendRaw]; split <;> rfl

@[simp] theorem DecUnit.appendRaw_tokStart (d : DecUnit) (b : List Byte) :
    (d.appendRaw b).tokStart = d.tokStart := by
  simp only [DecUnit.appendRaw]; split <;> rfl

@[simp] theorem DecUnit.appendRaw_outStart (d : DecUnit) (b : List Byte) :
    (d.appendRaw b).outStart = d.outStart := by
  simp only [DecUnit.appendRaw]; split <;> rfl

@[simp] theorem DecUnit.appendRaw_off (d : DecUnit) (b : List Byte) :
    (d.appendRaw b).off = d.off := by
  simp only [DecUnit.appendRaw]; split <;> rfl

@[simp] theorem DecUnit.appendRaw_len (d : DecUnit) (b : List Byte) :
    (d.appendRaw b).len = d.len := by
  simp only [DecUnit.appendRaw]; split <;> rfl

/-! ### The start of a stream -/

@[simp] theorem DecUnit.startStream_ready (d : DecUnit) (b : List Byte) :
    (d.startStream b).ready = d.ready := rfl

@[simp] theorem DecUnit.startStream_profile (d : DecUnit) (b : List Byte) :
    (d.startStream b).profile = d.profile := rfl

@[simp] theorem DecUnit.startStream_hb (d : DecUnit) (b : List Byte) :
    (d.startStream b).hb = d.hb := rfl

@[simp] theorem DecUnit.startStream_status (d : DecUnit) (b : List Byte) :
    (d.startStream b).status = d.status := rfl

@[simp] theorem DecUnit.startStream_faultPos (d : DecUnit) (b : List Byte) :
    (d.startStream b).faultPos = d.faultPos := rfl

@[simp] theorem DecUnit.startStream_busy (d : DecUnit) (b : List Byte) :
    (d.startStream b).busy = true := rfl

@[simp] theorem DecUnit.startStream_part (d : DecUnit) (b : List Byte) :
    (d.startStream b).part = .head := rfl

@[simp] theorem DecUnit.startStream_input (d : DecUnit) (b : List Byte) :
    (d.startStream b).input = b := rfl

@[simp] theorem DecUnit.startStream_bitPos (d : DecUnit) (b : List Byte) :
    (d.startStream b).bitPos = 0 := rfl

@[simp] theorem DecUnit.startStream_tokStart (d : DecUnit) (b : List Byte) :
    (d.startStream b).tokStart = 0 := rfl

@[simp] theorem DecUnit.startStream_outStart (d : DecUnit) (b : List Byte) :
    (d.startStream b).outStart = d.outStart := rfl

@[simp] theorem DecUnit.startStream_off (d : DecUnit) (b : List Byte) :
    (d.startStream b).off = d.off := rfl

@[simp] theorem DecUnit.startStream_len (d : DecUnit) (b : List Byte) :
    (d.startStream b).len = d.len := rfl

end Sys2Proof.Machine
end

