-- ==== Sys2Proof/Laws/Finder.lean ====
section
/-! SUPPORT. The laws of the match finder: each operation answers from a good encoder, and what one turn of the scan does. -/

namespace Sys2Proof.Machine

/-! ### Reads that answer -/

/-- Three bytes below the cursor have a hash (41 R174). -/
theorem HistBuf.Good.hashAt {h : HistBuf} {cap : Nat} (g : h.Good cap) (hash : HashParams) {i : Nat}
    (hi : i + 3 ≤ h.cursor) : ∃ hv, h.hashAt hash i = some hv := by
  obtain ⟨a, ha⟩ := g.read (i := i) (by omega)
  obtain ⟨b, hb⟩ := g.read (i := i + 1) (by omega)
  obtain ⟨c, hc⟩ := g.read (i := i + 2) (by omega)
  exact ⟨hash16 hash a b c, by simp [HistBuf.hashAt, ha, hb, hc]⟩

/-- A comparison of two ranges below the cursor answers. -/
theorem HistBuf.Good.agree {h : HistBuf} {cap : Nat} (g : h.Good cap) {i j n : Nat} (hi : i + n ≤ h.cursor)
    (hj : j + n ≤ h.cursor) : ∃ r, h.agree i j n = some r := by
  obtain ⟨x, hx⟩ := g.readRange hi
  obtain ⟨y, hy⟩ := g.readRange hj
  exact ⟨x == y, by simp [HistBuf.agree, hx, hy]⟩

/-- Ranges that agree are equal byte by byte (41 R176). -/
theorem HistBuf.agree_true {h : HistBuf} {i j n : Nat} (ha : h.agree i j n = some true) :
    ∀ k, k < n → ∃ b, h.read (i + k) = some b ∧ h.read (j + k) = some b := by
  simp only [HistBuf.agree] at ha
  split at ha
  · rename_i x y hx hy
    simp only [Option.some.injEq, beq_iff_eq] at ha
    subst ha
    obtain ⟨hl, hx⟩ := (HistBuf.readRange_iff _ _ _ _).mp hx
    obtain ⟨_, hy⟩ := (HistBuf.readRange_iff _ _ _ _).mp hy
    intro k hk
    refine ⟨x[k], ?_, ?_⟩
    · rw [hx k hk]; exact List.getElem?_eq_getElem (by omega)
    · rw [hy k hk]; exact List.getElem?_eq_getElem (by omega)
  · cases ha

/-- MF_EXTEND answers a length that does not leave the chunk, and every byte it adds agrees (41 R177). -/
theorem HistBuf.Good.extend {h : HistBuf} {cap : Nat} (g : h.Good cap) {stop cand pos : Nat} (hs : stop ≤ h.cursor)
    (hc : cand < pos) (fuel len : Nat) (hl : pos + len ≤ stop) :
    ∃ n, h.extend stop cand pos fuel len = some n ∧ len ≤ n ∧ pos + n ≤ stop ∧
      ∀ k, len ≤ k → k < n → ∃ b, h.read (cand + k) = some b ∧ h.read (pos + k) = some b := by
  induction fuel generalizing len with
  | zero => exact ⟨len, rfl, Nat.le_refl _, hl, fun k h1 h2 => by omega⟩
  | succ fuel ih =>
    by_cases hlt : pos + len < stop
    · obtain ⟨x, hx⟩ := g.read (i := cand + len) (by omega)
      obtain ⟨y, hy⟩ := g.read (i := pos + len) (by omega)
      by_cases he : x = y
      · subst he
        obtain ⟨n, e, h1, h2, h3⟩ := ih (len + 1) (by omega)
        refine ⟨n, by simp [HistBuf.extend, hlt, hx, hy, e], by omega, h2, ?_⟩
        intro k hk1 hk2
        by_cases hk : k = len
        · subst hk; exact ⟨x, hx, hy⟩
        · exact h3 k (by omega) hk2
      · exact ⟨len, by simp [HistBuf.extend, hlt, hx, hy, he], Nat.le_refl _, hl, fun k h1 h2 => by omega⟩
    · exact ⟨len, by simp [HistBuf.extend, hlt], Nat.le_refl _, hl, fun k h1 h2 => by omega⟩

/-! ### The slot table -/

/-- A position with three bytes before the cursor may be written into any slot (41 R174, R179). -/
theorem SlotsGood.put {slots : SlotTable} {cursor : Nat} (g : SlotsGood slots cursor) (hv : BitVec 16) {q : Nat}
    (hq : q + 3 ≤ cursor) : SlotsGood (tablePut slots hv.toNat q) cursor where
  wf := tablePut_wf _ _ g.wf
  key x hx := by
    rcases mem_tablePut hx with rfl | hx
    · exact hv.isLt
    · exact g.key x hx
  index x hx := by
    rcases mem_tablePut hx with rfl | hx
    · exact hq
    · exact g.index x hx

/-- An empty table is in order. -/
theorem SlotsGood.empty (cursor : Nat) : SlotsGood [] cursor where
  wf := List.Pairwise.nil
  key x hx := by cases hx
  index x hx := by cases hx

/-- MF_INSERT_INTERIOR answers, and names only positions of the region it inserts (41 R179). -/
theorem HistBuf.Good.insertInterior {h : HistBuf} {cap : Nat} (g : h.Good cap) (hash : HashParams) (n q : Nat)
    {slots : SlotTable} {bound : Nat} (hg : SlotsGood slots h.cursor) (hb : ∀ x ∈ slots, x.2 < bound)
    (hqn : q + n ≤ bound) :
    ∃ slots', h.insertInterior hash h.cursor n q slots = some slots' ∧ SlotsGood slots' h.cursor ∧
      ∀ x ∈ slots', x.2 < bound := by
  induction n generalizing q slots with
  | zero => exact ⟨slots, rfl, hg, hb⟩
  | succ n ih =>
    by_cases hq : q + 3 ≤ h.cursor
    · obtain ⟨hv, he⟩ := g.hashAt hash hq
      obtain ⟨slots', e, r⟩ := ih (q + 1) (slots := tablePut slots hv.toNat q) (hg.put hv hq)
        (fun x hx => by
          rcases mem_tablePut hx with rfl | hx
          · simp only; omega
          · exact hb x hx) (by omega)
      exact ⟨slots', by simp [HistBuf.insertInterior, hq, he, e], r⟩
    · obtain ⟨slots', e, r⟩ := ih (q + 1) hg hb (by omega)
      exact ⟨slots', by simp [HistBuf.insertInterior, hq, e], r⟩

/-! ### The exact operations of the reference finder -/

/-- The hash of three bytes that can be read (41 R174). -/
theorem HistBuf.hashAt_eq {h : HistBuf} (hash : HashParams) {i : Nat} {a b c : Byte} (h1 : h.read i = some a)
    (h2 : h.read (i + 1) = some b) (h3 : h.read (i + 2) = some c) :
    h.hashAt hash i = some (hash16 hash a b c) := by
  simp [HistBuf.hashAt, h1, h2, h3]

/-- A comparison of two ranges answers whether they agree byte by byte (41 R176). -/
theorem HistBuf.Good.agree_iff {h : HistBuf} {cap : Nat} (g : h.Good cap) {i j n : Nat} (hi : i + n ≤ h.cursor)
    (hj : j + n ≤ h.cursor) (r : Bool) :
    h.agree i j n = some r ↔ (r = true ↔ ∀ k, k < n → h.read (i + k) = h.read (j + k)) := by
  obtain ⟨x, hx⟩ := g.readRange hi
  obtain ⟨y, hy⟩ := g.readRange hj
  simp only [HistBuf.agree, hx, hy]
  rw [HistBuf.readRange_iff] at hx hy
  have : x = y ↔ ∀ k, k < n → h.read (i + k) = h.read (j + k) := by
    constructor
    · rintro rfl k hk; rw [hx.2 k hk, hy.2 k hk]
    · intro hk
      apply List.ext_getElem?
      intro m
      by_cases hm : m < n
      · rw [← hx.2 m hm, ← hy.2 m hm, hk m hm]
      · rw [List.getElem?_eq_none (by omega), List.getElem?_eq_none (by omega)]
  rw [← this]
  by_cases e : x = y <;> cases r <;> simp [e]

/-- MF_EXTEND stops only at the end of the chunk or at the first byte that differs (41 R177). -/
theorem HistBuf.Good.extend_maximal {h : HistBuf} {cap : Nat} (g : h.Good cap) {stop cand pos : Nat}
    (hs : stop ≤ h.cursor) (hc : cand < pos) (fuel len : Nat)
    (hl : pos + len ≤ stop) (hf : stop ≤ pos + len + fuel) (hv : ∀ k, k < len → h.read (cand + k) = h.read (pos + k)) :
    ∃ n, h.extend stop cand pos fuel len = some n ∧ len ≤ n ∧ pos + n ≤ stop ∧
      (∀ k, k < n → h.read (cand + k) = h.read (pos + k)) ∧
      (pos + n = stop ∨ h.read (cand + n) ≠ h.read (pos + n)) := by
  induction fuel generalizing len with
  | zero => exact ⟨len, rfl, Nat.le_refl _, hl, hv, .inl (by omega)⟩
  | succ f ih =>
    simp only [HistBuf.extend]
    split
    · rename_i hlt
      obtain ⟨x, hx⟩ := g.read (i := cand + len) (by omega)
      obtain ⟨y, hy⟩ := g.read (i := pos + len) (by omega)
      simp only [hx, hy]
      split
      · rename_i e
        obtain ⟨n, a, b, c, d, e'⟩ := ih (len + 1) (by omega) (by omega) (by
          intro k hk
          by_cases k = len
          · subst_vars; rw [hx, hy]
          · exact hv k (by omega))
        exact ⟨n, a, by omega, c, d, e'⟩
      · rename_i e
        exact ⟨len, rfl, Nat.le_refl _, hl, hv, .inr (by rw [hx, hy]; simpa using e)⟩
    · exact ⟨len, rfl, Nat.le_refl _, hl, hv, .inl (by omega)⟩

/-- MF_EXTEND never shortens a match (41 R177). -/
theorem HistBuf.extend_ge {h : HistBuf} {stop cand pos fuel len n : Nat} (he : h.extend stop cand pos fuel len = some n) :
    len ≤ n := by
  induction fuel generalizing len with
  | zero => cases he; exact Nat.le_refl _
  | succ f ih =>
    simp only [HistBuf.extend] at he
    split at he
    · split at he
      · split at he
        · exact Nat.le_of_succ_le (ih he)
        · cases he; exact Nat.le_refl _
      · cases he
    · cases he; exact Nat.le_refl _

/-- MF_INSERT_INTERIOR writes the last position of each hash in its range, and no other slot (41 R179). -/
theorem HistBuf.Good.insertInterior_exact {h : HistBuf} {cap : Nat} (g : h.Good cap) (hash : HashParams) {stop : Nat}
    (hs : stop ≤ h.cursor) (n q : Nat) (slots : SlotTable) :
    ∃ t, h.insertInterior hash stop n q slots = some t ∧
      (∀ p x, q ≤ p → p < q + n → p + 3 ≤ stop → h.hashAt hash p = some x →
        ∃ r, tableGet t x.toNat = some r ∧ p ≤ r ∧ r < q + n ∧ r + 3 ≤ stop ∧ h.hashAt hash r = some x) ∧
      (∀ y : Nat, (∀ p x, q ≤ p → p < q + n → p + 3 ≤ stop → h.hashAt hash p = some x → x.toNat ≠ y) →
        tableGet t y = tableGet slots y) := by
  induction n generalizing q slots with
  | zero => exact ⟨slots, rfl, fun p x a b => by omega, fun _ _ => rfl⟩
  | succ n ih =>
    simp only [HistBuf.insertInterior]
    split
    · rename_i hq
      obtain ⟨hv, hh⟩ := g.hashAt hash (i := q) (by omega)
      simp only [hh]
      obtain ⟨t, a, b, c⟩ := ih (q + 1) (tablePut slots hv.toNat q)
      refine ⟨t, a, ?_, ?_⟩
      · intro p x h1 h2 h3 h4
        by_cases hp : p = q
        · subst hp
          rw [hh] at h4; cases h4
          by_cases hex : ∃ p', p + 1 ≤ p' ∧ p' < p + 1 + n ∧ p' + 3 ≤ stop ∧ h.hashAt hash p' = some hv
          · obtain ⟨p', k1, k2, k3, k4⟩ := hex
            obtain ⟨r, l1, l2, l3, l4, l5⟩ := b p' hv k1 k2 k3 k4
            exact ⟨r, l1, by omega, by omega, l4, l5⟩
          · refine ⟨p, ?_, Nat.le_refl _, by omega, hq, hh⟩
            rw [c hv.toNat, tableGet_tablePut_same]
            intro p' x k1 k2 k3 k4 he
            have : x = hv := BitVec.eq_of_toNat_eq he
            subst this
            exact hex ⟨p', k1, k2, k3, k4⟩
        · obtain ⟨r, l1, l2, l3, l4, l5⟩ := b p x (by omega) (by omega) h3 h4
          exact ⟨r, l1, l2, by omega, l4, l5⟩
      · intro y hy
        rw [c y (fun p x k1 k2 k3 k4 => hy p x (by omega) (by omega) k3 k4)]
        exact tableGet_tablePut_ne _ _ (Ne.symm (hy q hv (by omega) (by omega) hq hh))
    · rename_i hq
      obtain ⟨t, a, b, c⟩ := ih (q + 1) slots
      refine ⟨t, a, ?_, ?_⟩
      · intro p x h1 h2 h3 h4
        obtain ⟨r, l1, l2, l3, l4, l5⟩ := b p x (by omega) (by omega) h3 h4
        exact ⟨r, l1, l2, by omega, l4, l5⟩
      · intro y hy
        exact c y (fun p x k1 k2 k3 k4 => hy p x (by omega) (by omega) k3 k4)

/-! ### How many bits a token costs (10 R50) -/

theorem literalForm_width (c : Byte) : (literalForm c).width ≤ 9 := by
  simp only [literalForm]
  split <;> simp [Instr.width]

theorem offsetForm_width (code : OffsetCode) (off : Nat) : (offsetForm code off).width ≤ 19 := by
  cases code <;> simp only [offsetForm, offsetFormDoc, offsetFormLegacy] <;> (repeat' split) <;> simp [Instr.width]

theorem lengthForm_width (len : Nat) (h : 3 ≤ len) : (lengthForm len).width + 19 ≤ 9 * len := by
  have hl := Nat.log2_self_le (n := len) (by omega)
  simp only [lengthForm]
  generalize Nat.log2 len = n at hl
  rcases (show n ≤ 14 ∨ 15 ≤ n by omega) with hn | hn
  · interval_cases n <;> simp only [Instr.width] <;> omega
  · have : 2 ^ 15 ≤ 2 ^ n := Nat.pow_le_pow_right (by omega) hn
    obtain ⟨m, rfl⟩ : ∃ m, n = m + 15 := ⟨n - 15, by omega⟩
    simp only [Instr.width]
    omega

/-! ### One turn of the scan -/

/-- What a turn of the scan leaves as it was. -/
structure EncUnit.SameCommand (e e' : EncUnit) : Prop where
  ready : e'.ready = e.ready
  profile : e'.profile = e.profile
  session : e'.session = e.session
  hb : e'.hb = e.hb
  status : e'.status = e.status
  busy : e'.busy = e.busy
  chunk : e'.chunk = e.chunk
  atFront : e'.atFront = e.atFront
  start : e'.start = e.start
  stop : e'.stop = e.stop

/-- The token a turn of the scan emits: the literal at the position, or a verified match with the bounds of 41 R182, whose
offset and length `OFF` and `L` then hold. -/
inductive EncUnit.Emits (params : Params) (e e' : EncUnit) : Prop where
  | literal (c : Byte) (byte : e.hb.read e.pos = some c) (out : e'.out = e.out ++ tokenBits (literalForm c))
      (pos : e'.pos = e.pos + 1) (regs : e'.off = e.off ∧ e'.len = e.len)
  | copy (off len : Nat) (late : 2 ≤ e.pos) (low : 1 ≤ off) (high : off ≤ e.pos) (long : 3 ≤ len)
      (inside : e.pos + len ≤ e.stop)
      (out : e'.out = e.out ++ tokenBits (offsetForm (offsetCodeOf params e.profile) off) ++ tokenBits (lengthForm len))
      (pos : e'.pos = e.pos + len) (regs : e'.off = off ∧ e'.len = len)
      (verified : ∀ k, k < len → ∃ b, e.hb.read (e.pos + k - off) = some b ∧ e.hb.read (e.pos + k) = some b)

/-- A turn that emits a token and keeps the slots in order leaves a good encoder, further on and inside the chunk. -/
theorem EncUnit.Good.turn {params : Params} {e e' : EncUnit} (g : e.Good) (hbusy : e.busy = true)
    (hpos : e.pos < e.stop) (same : e.SameCommand e') (emits : e.Emits params e')
    (hslots : SlotsGood e'.slots e.hb.cursor) (hearlier : ∀ x ∈ e'.slots, x.2 < e'.pos) :
    e'.Good ∧ e.pos < e'.pos ∧ e'.pos ≤ e.stop := by
  have sc := g.scan hbusy
  have hlow := sc.low
  have hout := sc.outBits
  have hmove : e.pos < e'.pos ∧ e'.pos ≤ e.stop ∧ e'.out.length ≤ 9 * (e'.pos - e.start) := by
    cases emits with
    | literal c byte out pos regs =>
      have := literalForm_width c
      rw [out, pos, List.length_append, tokenBits_length]
      omega
    | copy off len late low high long inside out pos regs verified =>
      have h1 := offsetForm_width (offsetCodeOf params e.profile) off
      have h2 := lengthForm_width len long
      rw [out, pos, List.length_append, List.length_append, tokenBits_length, tokenBits_length]
      omega
  obtain ⟨hm1, hm2, hm3⟩ := hmove
  refine ⟨⟨?_, ?_, ?_, ?_⟩, hm1, hm2⟩
  · rw [same.hb, same.profile]; exact g.hist
  · rw [same.hb]; exact hslots
  · rw [same.status]; exact g.status
  · intro _
    exact {
      ready := by rw [same.ready]; exact sc.ready
      active := by rw [same.session]; exact sc.active
      atEnd := by rw [same.stop, same.hb]; exact sc.atEnd
      loaded := by rw [same.start, same.chunk, same.stop]; exact sc.loaded
      chunkBytes := by rw [same.hb, same.start, same.chunk]; exact sc.chunkBytes
      low := by rw [same.start]; omega
      high := by rw [same.stop]; exact hm2
      earlier := hearlier
      outBits := by rw [same.start]; exact hm3 }

/-- What a turn of the scan does, said once: it answers, keeps the command's registers and the slots in order, and emits a
literal or a verified match (41 R181, R182). -/
def EncUnit.TurnSpec (params : Params) (e : EncUnit) (r : Option EncUnit) : Prop :=
  ∃ e', r = some e' ∧ e.SameCommand e' ∧ e.Emits params e' ∧
    SlotsGood e'.slots e.hb.cursor ∧ ∀ x ∈ e'.slots, x.2 < e'.pos

/-- A literal turn, from an encoder whose slots all name positions up to this one. -/
theorem EncUnit.literalHere_spec {params : Params} {e : EncUnit} (g : e.hb.Good (capacity e.profile))
    (hpos : e.pos < e.hb.cursor) (hslots : SlotsGood e.slots e.hb.cursor) (hearlier : ∀ x ∈ e.slots, x.2 ≤ e.pos) :
    e.TurnSpec params e.literalHere := by
  obtain ⟨c, hc⟩ := g.read hpos
  refine ⟨{ e.emitLiteral c with pos := e.pos + 1 }, by simp [EncUnit.literalHere, hc], ?_,
    .literal c hc rfl rfl ⟨rfl, rfl⟩, hslots, ?_⟩
  · constructor <;> rfl
  · intro x hx
    exact Nat.lt_succ_of_le (hearlier x hx)

/-- A match turn of the reference finder, for a verified candidate (41 R177 to R179). -/
theorem EncUnit.matchHere_spec {params : Params} {e : EncUnit} {c : Nat} (g : e.hb.Good (capacity e.profile))
    (hstop : e.stop = e.hb.cursor) (hlate : 2 ≤ e.pos) (hroom : e.pos + 3 ≤ e.stop) (hc : c < e.pos)
    (hagree : e.hb.agree c e.pos 3 = some true)
    (hslots : SlotsGood e.slots e.hb.cursor) (hearlier : ∀ x ∈ e.slots, x.2 ≤ e.pos) :
    e.TurnSpec params (e.matchHere params c) := by
  obtain ⟨n, he, h3, hn, hk⟩ := g.extend (stop := e.stop) (by omega) hc (e.stop - e.pos) 3 hroom
  obtain ⟨slots', hi, hs1, hs2⟩ := g.insertInterior params.hash (n - 1) (e.pos + 1) (bound := e.pos + n) hslots
    (fun x hx => by have := hearlier x hx; omega) (by omega)
  refine ⟨{ e.takeMatch (offsetCodeOf params e.profile) c n with slots := slots' },
    by rw [← hstop] at hi; simp [EncUnit.matchHere, he, hi], ?_,
    .copy (e.pos - c) n hlate (by omega) (by omega) h3 hn rfl rfl ⟨rfl, rfl⟩ ?_, hs1, hs2⟩
  · constructor <;> rfl
  · intro k hkn
    have hcand : e.pos + k - (e.pos - c) = c + k := by omega
    rw [hcand]
    by_cases hk3 : k < 3
    · exact HistBuf.agree_true hagree k hk3
    · exact hk k (by omega) hkn

/-- A turn of the reference finder at a hashable position (41 R174 to R179). -/
theorem EncUnit.scanReference_spec {params : Params} {e : EncUnit} (g : e.Good) (hbusy : e.busy = true)
    (hroom : e.pos + 3 ≤ e.stop) : e.TurnSpec params (e.scanReference params) := by
  have sc := g.scan hbusy
  have hend := sc.atEnd
  obtain ⟨hv, hh⟩ := g.hist.hashAt params.hash (i := e.pos) (by omega)
  have hslots := g.slots.put hv (q := e.pos) (by omega)
  have hearlier : ∀ x ∈ tablePut e.slots hv.toNat e.pos, x.2 ≤ e.pos := by
    intro x hx
    rcases mem_tablePut hx with rfl | hx
    · exact Nat.le_refl _
    · exact Nat.le_of_lt (sc.earlier x hx)
  have hcand : ∀ c, tableGet e.slots hv.toNat = some c → c < e.pos := fun c hc =>
    sc.earlier _ (mem_of_tableGet hc)
  simp only [EncUnit.scanReference, EncUnit.lookup, hh, Option.map_some, Option.bind_some, EncUnit.choose]
  generalize hcd : tableGet e.slots hv.toNat = cand at *
  have lift : ∀ {r : Option EncUnit},
      EncUnit.TurnSpec params { e with hv := hv, cand := cand, slots := tablePut e.slots hv.toNat e.pos } r →
      e.TurnSpec params r := by
    rintro r ⟨e', h1, h2, h3, h4, h5⟩
    refine ⟨e', h1, ⟨h2.1, h2.2, h2.3, h2.4, h2.5, h2.6, h2.7, h2.8, h2.9, h2.10⟩, ?_, h4, h5⟩
    cases h3 with
    | literal c a b d f => exact .literal c a b d f
    | copy off len a b c d f j k l m => exact .copy off len a b c d f j k l m
  have lit : e.TurnSpec params
      (EncUnit.literalHere { e with hv := hv, cand := cand, slots := tablePut e.slots hv.toNat e.pos }) :=
    lift (EncUnit.literalHere_spec g.hist (show e.pos < e.hb.cursor by omega) hslots hearlier)
  cases cand with
  | none => exact lit
  | some c =>
    simp only
    split
    · exact lit
    · have hcp := hcand c rfl
      obtain ⟨r, hr⟩ := g.hist.agree (i := c) (j := e.pos) (n := 3) (by omega) (by omega)
      rw [hr]
      cases r with
      | false => exact lit
      | true => exact lift (EncUnit.matchHere_spec g.hist hend (by simp only; omega) hroom hcp hr hslots hearlier)

/-- A turn of any other finder at a hashable position (41 R184). -/
theorem EncUnit.scanOther_spec {params : Params} {e : EncUnit} (g : e.Good) (hbusy : e.busy = true)
    (hpos : e.pos < e.stop) : e.TurnSpec params (e.scanOther params) := by
  have sc := g.scan hbusy
  have hend := sc.atEnd
  have lit : e.TurnSpec params (EncUnit.literalHere { e with draws := e.draws + 1 }) := by
    obtain ⟨e', h1, h2, h3, h4, h5⟩ := EncUnit.literalHere_spec (params := params)
      (e := { e with draws := e.draws + 1 }) g.hist (show e.pos < e.hb.cursor by omega) g.slots
      (fun x hx => Nat.le_of_lt (sc.earlier x hx))
    refine ⟨e', h1, ⟨h2.1, h2.2, h2.3, h2.4, h2.5, h2.6, h2.7, h2.8, h2.9, h2.10⟩, ?_, h4, h5⟩
    cases h3 with
    | literal c a b d f => exact .literal c a b d f
    | copy off len a b c d f j k l m => exact .copy off len a b c d f j k l m
  simp only [EncUnit.scanOther]
  generalize Config.proposedMatch e.draws = proposal
  obtain ⟨c, len⟩ := proposal
  split
  · rename_i ha
    simp only [EncUnit.admissible, Bool.and_eq_true, decide_eq_true_eq] at ha
    obtain ⟨⟨⟨h1, h2⟩, h3⟩, h4⟩ := ha
    obtain ⟨r, hr⟩ := g.hist.agree (i := c) (j := e.pos) (n := len) (by omega) (by omega)
    simp only [hr]
    cases r with
    | false => exact lit
    | true =>
      refine ⟨_, rfl, by constructor <;> rfl,
        .copy (e.pos - c) len h1 (by omega) (by omega) h3 h4 rfl rfl ⟨rfl, rfl⟩ ?_, g.slots, ?_⟩
      · intro k hk
        rw [show e.pos + k - (e.pos - c) = c + k by omega]
        exact HistBuf.agree_true hr k hk
      · intro x hx
        have := sc.earlier x hx
        simp only [EncUnit.takeMatch]
        omega
  · exact lit

/-- Everything a turn of the scan does from a good, running encoder (41 R181). -/
theorem EncUnit.scanOne_spec {e : EncUnit} (params : Params) (g : e.Good) (hbusy : e.busy = true)
    (hpos : e.pos < e.stop) :
    ∃ e', e.scanOne params = some e' ∧ e.SameCommand e' ∧ e.Emits params e' ∧ e'.Good ∧ e.pos < e'.pos ∧
      e'.pos ≤ e.stop := by
  have sc := g.scan hbusy
  have hend := sc.atEnd
  have key : e.TurnSpec params (e.scanOne params) := by
    simp only [EncUnit.scanOne]
    split
    · exact EncUnit.literalHere_spec g.hist (by omega) g.slots (fun x hx => Nat.le_of_lt (sc.earlier x hx))
    · split
      · exact EncUnit.scanReference_spec g hbusy (by omega)
      · exact EncUnit.scanOther_spec g hbusy hpos
  obtain ⟨e', h1, h2, h3, h4, h5⟩ := key
  exact ⟨e', h1, h2, h3, g.turn hbusy hpos h2 h3 h4 h5⟩

/-! ### The finder's own registers after a turn -/

/-- A position with three bytes left whose hash is this slot's number lies in a range (41 R174, R179). -/
def EncUnit.HashesTo (hash : HashParams) (e : EncUnit) (lo hi slot : Nat) : Prop :=
  ∃ q g, lo ≤ q ∧ q < hi ∧ q + 3 ≤ e.stop ∧ e.hb.hashAt hash q = some g ∧ g.toNat = slot

/-- What a turn does to `HV`, `CAND`, the slots and the model's counter: the reference finder looks up the position where
three bytes are left and writes only slots of positions the turn passes (41 R174, R179, R180), and no other finder touches
them (41 R184, log 17). -/
structure EncUnit.Finds (params : Params) (e e' : EncUnit) : Prop where
  untouched : params.finder = .other ∨ e.stop < e.pos + 3 → e'.hv = e.hv ∧ e'.cand = e.cand ∧ e'.slots = e.slots
  looked : params.finder = .reference → e.pos + 3 ≤ e.stop →
    e.hb.hashAt params.hash e.pos = some e'.hv ∧ e'.cand = tableGet e.slots e'.hv.toNat
  slots : ∀ slot, ¬ e.HashesTo params.hash e.pos e'.pos slot → tableGet e'.slots slot = tableGet e.slots slot
  draws : e'.draws = if params.finder = .other ∧ e.pos + 3 ≤ e.stop then e.draws + 1 else e.draws

/-- A turn that leaves these registers alone and is no draw. -/
theorem EncUnit.Finds.of_same {params : Params} {e e' : EncUnit}
    (hquiet : params.finder = .other ∨ e.stop < e.pos + 3) (h1 : e'.hv = e.hv) (h2 : e'.cand = e.cand)
    (h3 : e'.slots = e.slots)
    (h4 : e'.draws = if params.finder = .other ∧ e.pos + 3 ≤ e.stop then e.draws + 1 else e.draws) : e.Finds params e' where
  untouched _ := ⟨h1, h2, h3⟩
  looked hr hs := by
    rcases hquiet with h | h
    · rw [hr] at h; cases h
    · omega
  slots _ _ := by rw [h3]
  draws := h4

/-- A literal here, where there is a byte (41 R175, R176, R180). -/
theorem EncUnit.literalHere_some {e e' : EncUnit} (h : e.literalHere = some e') :
    ∃ c, e.hb.read e.pos = some c ∧ e' = { e.emitLiteral c with pos := e.pos + 1 } := by
  simp only [EncUnit.literalHere, Option.map_eq_some_iff] at h
  obtain ⟨c, hc, he⟩ := h
  exact ⟨c, hc, he.symm⟩

/-- What the reference finder does after its lookup writes only slots of positions after this one (41 R175 to R179). -/
theorem EncUnit.choose_slots {params : Params} {e e' : EncUnit} (g : e.hb.Good (capacity e.profile))
    (hstop : e.stop ≤ e.hb.cursor) (h : e.choose params = some e') :
    e'.hv = e.hv ∧ e'.cand = e.cand ∧ e'.draws = e.draws ∧ e.pos < e'.pos ∧
      ∀ slot, ¬ e.HashesTo params.hash (e.pos + 1) e'.pos slot → tableGet e'.slots slot = tableGet e.slots slot := by
  have lit : ∀ {e' : EncUnit}, e.literalHere = some e' → e'.hv = e.hv ∧ e'.cand = e.cand ∧ e'.draws = e.draws ∧
      e.pos < e'.pos ∧ ∀ slot, ¬ e.HashesTo params.hash (e.pos + 1) e'.pos slot →
        tableGet e'.slots slot = tableGet e.slots slot := by
    intro e' h
    obtain ⟨c, _, rfl⟩ := EncUnit.literalHere_some h
    exact ⟨rfl, rfl, rfl, Nat.lt_succ_self _, fun _ _ => rfl⟩
  simp only [EncUnit.choose] at h
  split at h
  · exact lit h
  · split at h
    · exact lit h
    · split at h
      · rename_i c _ _ _
        simp only [EncUnit.matchHere] at h
        split at h
        · rename_i len hlen
          obtain ⟨t, a, _, b⟩ := g.insertInterior_exact params.hash hstop (len - 1) (e.pos + 1) e.slots
          rw [a] at h
          simp only [Option.map_some, Option.some.injEq] at h
          subst h
          have h3 : 3 ≤ len := HistBuf.extend_ge hlen
          refine ⟨rfl, rfl, rfl, show e.pos < e.pos + len by omega, fun slot hs => b slot ?_⟩
          intro q x k1 k2 k3 k4 hx
          exact hs ⟨q, x, k1, show q < e.pos + len by omega, k3, k4, hx⟩
        · cases h
      · exact lit h
      · cases h

/-- What a turn does to the finder's own registers, with any finder. -/
theorem EncUnit.scanOne_finds {params : Params} {e e' : EncUnit} (g : e.Good) (hbusy : e.busy = true)
    (h : e.scanOne params = some e') : e.Finds params e' := by
  have hend := (g.scan hbusy).atEnd
  simp only [EncUnit.scanOne] at h
  split at h
  · rename_i htail
    obtain ⟨c, _, rfl⟩ := EncUnit.literalHere_some h
    exact .of_same (.inr htail) rfl rfl rfl (by rw [if_neg (by omega)]; rfl)
  · rename_i hroom
    split at h
    · rename_i hf
      simp only [EncUnit.scanReference, EncUnit.lookup, Option.bind_eq_some_iff, Option.map_eq_some_iff] at h
      obtain ⟨e₁, ⟨hv, hh, rfl⟩, hc⟩ := h
      obtain ⟨k1, k2, k3, k4, k5⟩ := EncUnit.choose_slots
        (e := { e with hv := hv, cand := tableGet e.slots hv.toNat, slots := tablePut e.slots hv.toNat e.pos })
        g.hist (Nat.le_of_eq hend) hc
      refine ⟨fun hq => ?_, fun _ _ => ?_, fun slot hs => ?_, ?_⟩
      · rcases hq with hq | hq
        · rw [hf] at hq; cases hq
        · omega
      · rw [k1, k2]; exact ⟨hh, rfl⟩
      · rw [k5 slot (fun ⟨q, x, l1, l2⟩ => hs ⟨q, x, by simp only at l1; omega, l2⟩)]
        exact tableGet_tablePut_ne _ _ (fun hne => hs ⟨e.pos, hv, Nat.le_refl _, k4, by omega, hh, hne.symm⟩)
      · rw [k3, hf]; rfl
    · rename_i hf
      have hd : e.draws + 1 = if params.finder = .other ∧ e.pos + 3 ≤ e.stop then e.draws + 1 else e.draws := by
        rw [if_pos ⟨hf, by omega⟩]
      simp only [EncUnit.scanOther] at h
      split at h
      · split at h
        · cases h; exact .of_same (.inl hf) rfl rfl rfl hd
        · obtain ⟨c, _, rfl⟩ := EncUnit.literalHere_some h
          exact .of_same (.inl hf) rfl rfl rfl hd
        · cases h
      · obtain ⟨c, _, rfl⟩ := EncUnit.literalHere_some h
        exact .of_same (.inl hf) rfl rfl rfl hd

end Sys2Proof.Machine
end

