-- ==== Sys2Proof/Laws/Commands.lean ====
section
/-! SUPPORT. The laws of the units' operations: what a literal, a match, an error, a command and the end of a command do,
and that each leaves its unit good. -/

namespace Sys2Proof.Machine

/-! ### STATUS values -/

theorem DecError.status_ne_zero (e : DecError) : e.status ≠ 0#8 := by
  cases e <;> decide

theorem DecError.statusCode_ne_zero (e : DecError) : statusCode e.status ≠ 0#2 := by
  cases e <;> decide

/-- A legal STATUS with `CODE = 0` is the success byte (60 R320). -/
theorem StatusLegal.zero_of_code {st : Byte} (h : StatusLegal st) (hc : statusCode st = 0#2) : st = 0#8 := by
  rcases h with h | ⟨e, rfl⟩
  · exact h
  · exact absurd hc e.statusCode_ne_zero

/-! ### The decoder's tokens -/

/-- Everything a literal does (43 R235, R236). -/
theorem decodeLiteral_eq (b : Byte) (s : State) :
    decodeLiteral b s =
      if s.dec.hb.cursor < capacity s.dec.profile then .next { s with dec := { s.dec with hb := s.dec.hb.push b } }
      else .next (s.raiseToken .overflowLiteral) := by
  simp only [decodeLiteral, HistBuf.append_eq]
  by_cases h : s.dec.hb.cursor < capacity s.dec.profile <;> simp [h]

/-- An offset that is above `CURSOR` fails the check of 43 R247, and one that is not fails it only where rules differ (log 27). -/
theorem State.offsetBeyond_eq_false {s : State} (h : s.offsetBeyond = false) : s.dec.off ≤ s.dec.hb.cursor := by
  simp only [State.offsetBeyond, Bool.or_eq_false_iff, decide_eq_false_iff_not] at h
  omega

/-- An offset above `CURSOR` fails the check of 43 R247. -/
theorem State.offsetBeyond_of_lt {s : State} (h : s.dec.hb.cursor < s.dec.off) : s.offsetBeyond = true := by
  simp [State.offsetBeyond, h]

/-- An offset in range passes the check of 43 R247, but for a value above 8191 of OFF13_L (log 27). -/
theorem State.offsetBeyond_of_le {s : State} (h : s.dec.off ≤ s.dec.hb.cursor) (ha : s.offsetAbove8191 = false) :
    s.offsetBeyond = false := by
  simp [State.offsetBeyond, ha, Nat.not_lt.mpr h]

/-- A match that fits CAPACITY has no offset on which rules differ: the offset lies below the cursor, which lies below 8192
(30 R104). -/
theorem State.offsetAbove8191_of_fits {s : State} {len : Nat} (hl : 1 ≤ len) (h : s.dec.off ≤ s.dec.hb.cursor)
    (hf : s.dec.hb.cursor + len ≤ capacity s.dec.profile) : s.offsetAbove8191 = false := by
  unfold State.offsetAbove8191
  cases hp : s.dec.profile with
  | legacy =>
    rw [hp] at hf
    have : ¬ 8191 < s.dec.off := by simp only [capacity] at hf; omega
    simp [this]
  | standard => simp [offsetCodeOf]

/-- A match without an error has its operands in range (40 R154). -/
theorem State.matchError_none {s : State} {len : Nat} (h : s.matchError len = none) :
    1 ≤ s.dec.off ∧ s.dec.off ≤ s.dec.hb.cursor ∧ s.dec.hb.cursor + len ≤ capacity s.dec.profile := by
  simp only [State.matchError] at h
  split at h
  · cases h
  · split at h
    · cases h
    · have := State.offsetBeyond_eq_false (s := s) (by simpa using ‹¬ s.offsetBeyond = true›)
      split at h
      · cases h
      · omega

/-- A match with its operands in range has no error (43 R246). -/
theorem State.matchError_of_fits {s : State} {len : Nat} (hl : 1 ≤ len) (h0 : 1 ≤ s.dec.off)
    (h : s.dec.off ≤ s.dec.hb.cursor) (hf : s.dec.hb.cursor + len ≤ capacity s.dec.profile) : s.matchError len = none := by
  have hb := State.offsetBeyond_of_le h (State.offsetAbove8191_of_fits hl h hf)
  simp only [State.matchError, hb]
  rw [if_neg (by omega), if_neg (by simp), if_neg (by omega)]

/-- A match that raises (43 R246). -/
theorem executeMatch_error {s : State} {len : Nat} {e : DecError} (h : s.matchError len = some e) :
    executeMatch len s = .next ((s.takeLength len).raiseToken e) := by
  simp only [executeMatch, h]

/-- A match whose copy succeeds (43 R249). -/
theorem executeMatch_copy {s : State} {len : Nat} {hb : HistBuf} (h : s.matchError len = none)
    (hc : s.dec.hb.copy s.dec.off len = some hb) :
    executeMatch len s = .next { s with dec := { s.dec with len := len, part := .head, hb := hb } } := by
  simp only [executeMatch, h, hc]
  rfl

/-- Everything a match does from a good decoder: it raises an error, or copies (43 R246). -/
theorem executeMatch_cases {s : State} (len : Nat) (g : s.dec.Good) :
    (∃ e, s.matchError len = some e ∧ executeMatch len s = .next ((s.takeLength len).raiseToken e)) ∨
    (∃ hb, s.matchError len = none ∧ s.dec.hb.copy s.dec.off len = some hb ∧ hb.Good (capacity s.dec.profile) ∧
      executeMatch len s = .next { s with dec := { s.dec with len := len, part := .head, hb := hb } }) := by
  cases h : s.matchError len with
  | some e => exact .inl ⟨e, rfl, executeMatch_error h⟩
  | none =>
    obtain ⟨h1, h2, h3⟩ := State.matchError_none h
    obtain ⟨hb, hc, hg⟩ := HistBuf.copy_good g.hist h1 h2 h3 (capacity_le _)
    exact .inr ⟨hb, rfl, hc, hg, executeMatch_copy h hc⟩

/-! ### The decoder stays good -/

/-- An append, or any change of the History Buffer that keeps it good and does not shrink it, keeps the decoder good. -/
theorem DecUnit.Good.withHist {d : DecUnit} {hb : HistBuf} (g : d.Good) (hg : hb.Good (capacity d.profile))
    (hc : d.hb.cursor ≤ hb.cursor) : DecUnit.Good { d with hb := hb } where
  hist := hg
  status := g.status
  faultPos := g.faultPos
  off := g.off
  len := g.len
  stream hb' := by
    have st := g.stream hb'
    exact ⟨st.ready, st.noFault, st.inputFits, Nat.le_trans st.outputStart hc, st.bitPos, st.tokStart⟩

/-- An error leaves the decoder good: faulted and idle (60 R325). -/
theorem DecUnit.Good.raised {d : DecUnit} (g : d.Good) (e : DecError) (pos : BitVec 35) :
    DecUnit.Good { d with status := e.status, faultPos := pos, busy := false } where
  hist := g.hist
  status := .inr ⟨e, rfl⟩
  faultPos h := absurd h e.status_ne_zero
  off := g.off
  len := g.len
  stream h := by cases h

/-- A copy-offset part keeps the decoder good (10 R49). -/
theorem DecUnit.Good.withOff {d : DecUnit} (g : d.Good) (part : Part) {off : Nat} (h : off ≤ 67903) :
    DecUnit.Good { d with off := off, part := part } where
  hist := g.hist
  status := g.status
  faultPos := g.faultPos
  off := h
  len := g.len
  stream hb' := by
    have st := g.stream hb'
    exact ⟨st.ready, st.noFault, st.inputFits, st.outputStart, st.bitPos, st.tokStart⟩

/-- A length keeps the decoder good (10 R49). -/
theorem DecUnit.Good.withLen {d : DecUnit} (g : d.Good) (part : Part) {len : Nat} (h : len ≤ 65535) :
    DecUnit.Good { d with len := len, part := part } where
  hist := g.hist
  status := g.status
  faultPos := g.faultPos
  off := g.off
  len := h
  stream hb' := by
    have st := g.stream hb'
    exact ⟨st.ready, st.noFault, st.inputFits, st.outputStart, st.bitPos, st.tokStart⟩

/-- Moving the bit cursor on inside the payload keeps the decoder good. -/
theorem DecUnit.Good.withBits {d : DecUnit} (g : d.Good) {pos start : Nat} (h1 : pos ≤ 8 * d.input.length)
    (h2 : start ≤ pos) : DecUnit.Good { d with bitPos := pos, tokStart := start } where
  hist := g.hist
  status := g.status
  faultPos := g.faultPos
  off := g.off
  len := g.len
  stream hb' := by
    have st := g.stream hb'
    exact ⟨st.ready, st.noFault, st.inputFits, st.outputStart, h1, h2⟩

/-- The end of a command keeps the decoder good. -/
theorem DecUnit.Good.idle {d : DecUnit} (g : d.Good) : DecUnit.Good { d with busy := false } where
  hist := g.hist
  status := g.status
  faultPos := g.faultPos
  off := g.off
  len := g.len
  stream h := by cases h

/-- DEC_INIT leaves a good decoder (70 R361). -/
theorem DecUnit.Good.init {d : DecUnit} (g : d.Good) (p : Profile) : (d.init p).Good where
  hist := HistBuf.reset_good _ g.hist
  status := .inl rfl
  faultPos _ := rfl
  off := g.off
  len := g.len
  stream h := by cases h

/-- The reset decision of a packet keeps the decoder good (44 R285). -/
theorem DecUnit.Good.openPacket {d : DecUnit} (g : d.Good) (flags : Byte) : (d.openPacket flags).Good where
  hist := by
    rw [DecUnit.openPacket_hb, DecUnit.openPacket_profile]
    split
    · exact HistBuf.reset_good _ g.hist
    · exact g.hist
  status := by rw [DecUnit.openPacket_status]; exact g.status
  faultPos := by rw [DecUnit.openPacket_status, DecUnit.openPacket_faultPos]; exact g.faultPos
  off := by rw [DecUnit.openPacket_off]; exact g.off
  len := by rw [DecUnit.openPacket_len]; exact g.len
  stream h := by
    rw [DecUnit.openPacket_busy] at h
    have st := g.stream h
    constructor <;> simp only [DecUnit.openPacket_ready, DecUnit.openPacket_status, DecUnit.openPacket_input,
      DecUnit.openPacket_outStart, DecUnit.openPacket_hb, DecUnit.openPacket_bitPos, DecUnit.openPacket_tokStart]
    · exact st.ready
    · exact st.noFault
    · exact st.inputFits
    · split <;> simp
    · exact st.bitPos
    · exact st.tokStart

/-- A packet's reset leaves the output start at the cursor (44 R285). -/
theorem DecUnit.openPacket_outStart_eq (d : DecUnit) (flags : Byte) :
    (d.openPacket flags).outStart = (d.openPacket flags).hb.cursor := by
  simp only [DecUnit.openPacket]

/-- A FLUSHED payload, after the packet's reset, keeps the decoder good (44 R286). -/
theorem DecUnit.Good.appendRaw {d : DecUnit} (g : d.Good) (h0 : d.hb.cursor = 0) (payload : List Byte) :
    (d.appendRaw payload).Good := by
  simp only [DecUnit.appendRaw]
  split
  · exact g.withHist (HistBuf.pushAll_good _ g.hist (by omega) (capacity_le _)) (by simp)
  · exact g

/-- The start of a stream leaves a good decoder (43 R250). -/
theorem DecUnit.Good.startStream {d : DecUnit} (g : d.Good) {payload : List Byte} (hr : d.ready = true)
    (h0 : d.status = 0#8) (ho : d.outStart ≤ d.hb.cursor) (hl : payload.length < 2 ^ 32) :
    (d.startStream payload).Good where
  hist := g.hist
  status := g.status
  faultPos := g.faultPos
  off := g.off
  len := g.len
  stream _ := ⟨hr, h0, hl, ho, Nat.zero_le _, Nat.le_refl _⟩

/-- A whole DEC_DECOMPRESS up to the start of its stream keeps the decoder good (44 R289). -/
theorem decPacket_good {s : State} (g : s.dec.Good) (flags : Byte) {payload : List Byte} (hr : s.dec.ready = true)
    (h0 : s.dec.status = 0#8) (hl : payload.length < 2 ^ 32) : (s.decPacket flags payload).dec.Good := by
  have go := g.openPacket flags
  simp only [State.decPacket]
  split
  · rename_i hf
    simp only [State.reply_dec]
    exact go.appendRaw (by simp [hf]) payload
  · split
    · exact go
    · refine go.startStream ?_ ?_ ?_ hl
      · simpa using hr
      · simpa using h0
      · exact Nat.le_of_eq (DecUnit.openPacket_outStart_eq _ _)

/-! ### The encoder stays good -/

/-- The end of a command keeps the encoder good. -/
theorem EncUnit.Good.idle {e : EncUnit} (g : e.Good) : EncUnit.Good { e with busy := false } where
  hist := g.hist
  slots := g.slots
  status := g.status
  scan h := by cases h

/-- ENC_INIT leaves a good encoder (70 R361). -/
theorem EncUnit.Good.init {e : EncUnit} (g : e.Good) (p : Profile) : (e.init p).Good where
  hist := HistBuf.reset_good _ g.hist
  slots := SlotsGood.empty _
  status := rfl
  scan h := by cases h

/-- The fallback leaves a good encoder (44 R279). -/
theorem EncUnit.Good.fallback {e : EncUnit} (g : e.Good) :
    EncUnit.Good { e.resetHistory with session := .fresh, busy := false } where
  hist := HistBuf.reset_good _ g.hist
  slots := SlotsGood.empty _
  status := g.status
  scan h := by cases h

/-- The load of a chunk that fits starts a good scan (44 R275 to R278). -/
theorem EncUnit.Good.load {e : EncUnit} (g : e.Good) {chunk : List Byte} (hr : e.ready = true)
    (hl : chunk.length ≤ capacity e.profile) : (e.load chunk).Good := by
  have hg : (if e.startsEpoch chunk then e.hb.reset else e.hb).Good (capacity e.profile) := by
    split
    · exact HistBuf.reset_good _ g.hist
    · exact g.hist
  have hs : SlotsGood (if e.startsEpoch chunk then [] else e.slots) (if e.startsEpoch chunk then e.hb.reset else e.hb).cursor := by
    split
    · exact SlotsGood.empty _
    · exact g.slots
  have hroom : (if e.startsEpoch chunk then e.hb.reset else e.hb).cursor + chunk.length ≤ capacity e.profile := by
    split
    · simpa using hl
    · rename_i h
      simp only [EncUnit.startsEpoch, Bool.or_eq_true, beq_iff_eq, decide_eq_true_eq, not_or] at h
      omega
  have hcur : (if e.startsEpoch chunk then e.hb.reset else e.hb).cursor = if e.startsEpoch chunk then 0 else e.hb.cursor := by
    split <;> simp
  refine ⟨?_, ?_, ?_, fun _ => ⟨?_, ?_, ?_, ?_, ?_, ?_, ?_, ?_, ?_⟩⟩
  · rw [EncUnit.load_hb, EncUnit.load_profile]
    exact HistBuf.pushAll_good _ hg hroom (capacity_le _)
  · rw [EncUnit.load_slots, EncUnit.load_hb]
    refine ⟨hs.wf, hs.key, fun x hx => ?_⟩
    rw [HistBuf.pushAll_cursor]
    have := hs.index x hx
    omega
  · rw [EncUnit.load_status]; exact g.status
  · rw [EncUnit.load_ready]; exact hr
  · simp
  · rw [EncUnit.load_stop, EncUnit.load_hb, HistBuf.pushAll_cursor, hcur]
  · simp
  · rw [EncUnit.load_hb, EncUnit.load_start, EncUnit.load_chunk, ← hcur]
    exact HistBuf.readRange_pushAll _ _
  · simp
  · simp
  · intro x hx
    rw [EncUnit.load_slots] at hx
    have := hs.index x hx
    rw [EncUnit.load_pos, ← hcur]
    omega
  · simp

end Sys2Proof.Machine
end

