-- ==== Sys2Proof/Laws/Exec.lean ====
section
/-! SUPPORT. The laws of `exec`, of what a step fetches, and of runs: what a token part can do, which meaning an emitted form
has, what the machine does next from a good state, and what a step does to a running encoder. -/

namespace Sys2Proof.Machine

open Sys2Proof

/-! ### The forms the encoder chooses, executed (30 R115) -/

/-- The literal form of a byte appends that byte (42 R202, 43 R235, R236). -/
theorem exec_literalForm (c : Byte) (s : State) : exec (literalForm c) s = decodeLiteral c s := by
  have h : ∀ c : Byte, (c.toNat < 0x80 → loByte (c.extractLsb' 0 7) = c) ∧
      (¬ c.toNat < 0x80 → hiByte (c.extractLsb' 0 7) = c) := by decide
  simp only [literalForm]
  split
  · simp only [exec, execLitLo, (h c).1 ‹_›]
  · simp only [exec, execLitHi, (h c).2 ‹_›]

/-- A field chosen for a value in its range gives that value back (30 R114, R115). -/
theorem based_ofNat_sub {w base n : Nat} (h1 : base ≤ n) (h2 : n < base + 2 ^ w) :
    based base (BitVec.ofNat w (n - base)) = n := by
  rw [based, BitVec.toNat_ofNat, Nat.mod_eq_of_lt (by omega)]
  omega

/-- The copy-offset form, in either code, writes the offset it was chosen for (42 R205, 43 R237 to R240, R244). -/
theorem exec_offsetForm (code : OffsetCode) {off : Nat} (h : off ≤ 65533) (hl : code = .rfc2118 → off ≤ 8191) (s : State) :
    exec (offsetForm code off) s = takeOffset off s := by
  cases code with
  | doc =>
    simp only [offsetForm, offsetFormDoc]
    split
    · exact congrArg (takeOffset · s) (based_ofNat_sub (base := 0) (w := 6) (by omega) (by omega))
    · split
      · exact congrArg (takeOffset · s) (based_ofNat_sub (by omega) (by omega))
      · split
        · exact congrArg (takeOffset · s) (based_ofNat_sub (by omega) (by omega))
        · exact congrArg (takeOffset · s) (based_ofNat_sub (by omega) (by omega))
  | rfc2118 =>
    have := hl rfl
    simp only [offsetForm, offsetFormLegacy]
    split
    · exact congrArg (takeOffset · s) (based_ofNat_sub (base := 0) (w := 6) (by omega) (by omega))
    · split
      · exact congrArg (takeOffset · s) (based_ofNat_sub (by omega) (by omega))
      · exact congrArg (takeOffset · s) (based_ofNat_sub (by omega) (by omega))

/-- The class of a length is `floor_log2` of it, from 1 to 15 (42 R206). -/
theorem log2_range {len : Nat} (h1 : 3 ≤ len) (h2 : len ≤ 65535) :
    1 ≤ len.log2 ∧ len.log2 ≤ 15 ∧ 2 ^ len.log2 ≤ len ∧ len < 2 ^ (len.log2 + 1) := by
  have hne : len ≠ 0 := by omega
  refine ⟨?_, ?_, Nat.log2_self_le hne, Nat.lt_log2_self⟩
  · by_contra hc
    have : len < 2 ^ 1 := (Nat.log2_lt hne).mp (by omega)
    omega
  · have := (Nat.log2_lt hne (k := 16)).mpr (by omega)
    omega

/-- The length-of-match form executes a match of the length it was chosen for (42 R206, 43 R242). -/
theorem exec_lengthForm {len : Nat} (h1 : 3 ≤ len) (h2 : len ≤ 65535) (s : State) :
    exec (lengthForm len) s = executeMatch len s := by
  obtain ⟨a, b, c, d⟩ := log2_range h1 h2
  simp only [lengthForm]
  generalize len.log2 = k at *
  interval_cases k
  · obtain rfl : len = 3 := by omega
    rfl
  all_goals
    simp only [exec, execLomC2, execLomC3, execLomC4, execLomC5, execLomC6, execLomC7, execLomC8, execLomC9, execLomC10,
      execLomC11, execLomC12, execLomC13, execLomC14, execLomC15]
    exact congrArg (executeMatch · s) (based_ofNat_sub (by omega) (by omega))

/-! ### What a token part can do -/

/-- Everything a token part changes outside the decoder's own registers: it ends the command with one answer, or answers
nothing and goes on from the same place in the same payload (43 R234 to R249, 60 R325). -/
structure State.PartEffect (s t : State) : Prop where
  enc : t.enc = s.enc
  params : t.params = s.params
  inbox : t.inbox = s.inbox
  ends : (t.dec.busy = false ∧ ∃ bytes, t.outbox = s.outbox ++ [{ port := .dec, bytes := bytes }]) ∨
    (t.dec.busy = s.dec.busy ∧ t.outbox = s.outbox ∧ t.dec.input = s.dec.input ∧ t.dec.bitPos = s.dec.bitPos)

/-- A literal. -/
theorem decodeLiteral_effect {b : Byte} {s t : State} (h : decodeLiteral b s = .next t) : s.PartEffect t := by
  rw [decodeLiteral_eq] at h
  split at h <;> cases h
  · exact ⟨rfl, rfl, rfl, .inr ⟨rfl, rfl, rfl, rfl⟩⟩
  · exact ⟨rfl, rfl, rfl, .inl ⟨rfl, _, rfl⟩⟩

/-- A copy-offset part. -/
theorem takeOffset_effect {off : Nat} {s t : State} (h : takeOffset off s = .next t) : s.PartEffect t := by
  cases h
  exact ⟨rfl, rfl, rfl, .inr ⟨rfl, rfl, rfl, rfl⟩⟩

/-- A match. -/
theorem executeMatch_effect {len : Nat} {s t : State} (h : executeMatch len s = .next t) : s.PartEffect t := by
  cases he : s.matchError len with
  | some e => rw [executeMatch_error he] at h; cases h; exact ⟨rfl, rfl, rfl, .inl ⟨rfl, _, rfl⟩⟩
  | none =>
    simp only [executeMatch, he] at h
    split at h <;> cases h
    exact ⟨rfl, rfl, rfl, .inr ⟨rfl, rfl, rfl, rfl⟩⟩

/-- Any token part. -/
theorem exec_part_effect {s t : State} {i : Instr} (hi : i.context ≠ .command) (h : exec i s = .next t) : s.PartEffect t := by
  cases i <;> try exact absurd rfl hi
  case lomReserved => cases h; exact ⟨rfl, rfl, rfl, .inl ⟨rfl, _, rfl⟩⟩
  all_goals first
    | exact decodeLiteral_effect h
    | exact takeOffset_effect h
    | exact executeMatch_effect h

/-! ### The operations keep the invariant -/

/-- A literal from a good state. -/
theorem decodeLiteral_inv {s : State} (b : Byte) (g : Inv s) : ∃ t, decodeLiteral b s = .next t ∧ Inv t := by
  rw [decodeLiteral_eq]
  split
  · exact ⟨_, rfl, g.enc, g.dec.withHist (HistBuf.push_good _ g.dec.hist ‹_› (capacity_le _)) (by simp)⟩
  · exact ⟨_, rfl, g.enc, g.dec.raised _ _⟩

/-- A copy-offset part from a good state (10 R49). -/
theorem takeOffset_inv {s : State} {off : Nat} (h : off ≤ 67903) (g : Inv s) : ∃ t, takeOffset off s = .next t ∧ Inv t :=
  ⟨_, rfl, g.enc, g.dec.withOff _ h⟩

/-- A match from a good state (10 R49). -/
theorem executeMatch_inv {s : State} {len : Nat} (h : len ≤ 65535) (g : Inv s) :
    ∃ t, executeMatch len s = .next t ∧ Inv t := by
  rcases executeMatch_cases len g.dec with ⟨e, h1, h2⟩ | ⟨hb, h1, h2, h3, h4⟩
  · exact ⟨_, h2, g.enc, (g.dec.withLen _ h).raised _ _⟩
  · obtain ⟨a, b, c⟩ := State.matchError_none h1
    refine ⟨_, h4, g.enc, (g.dec.withLen _ h).withHist h3 ?_⟩
    have := (HistBuf.copy_some a b h2).1
    show s.dec.hb.cursor ≤ _
    omega

/-- The value of a based field of `w` bits. -/
theorem based_lt {w : Nat} (base : Nat) (v : BitVec w) : based base v < base + 2 ^ w := by
  simp only [based, Nat.add_lt_add_iff_left]
  exact v.isLt

/-! ### What is fetched -/

/-- A good fetch: a well-formed instruction to run from a good state, or a settled good next state, or the refusal of a
transaction that is not a whole command. -/
def Action.Good : Action → Prop
  | .run i t => i.wellFormed = true ∧ Inv t
  | .settle o => (∃ t, o = .next t ∧ Inv t) ∨ o = .refused .brokenTransaction

/-- A running encoder's next move from a good state (41 R181, 44 R279, R280). -/
theorem encAdvance_inv {s : State} (g : Inv s) (he : s.enc.busy = true) : ∃ t, encAdvance s = .next t ∧ Inv t := by
  simp only [encAdvance]
  split
  · obtain ⟨e', h1, h2, h3, h4, h5⟩ := EncUnit.scanOne_spec s.params g.enc he ‹_›
    rw [h1]
    exact ⟨_, rfl, h4, g.dec⟩
  · refine ⟨_, rfl, ?_⟩
    simp only [State.encFinish]
    split
    · exact ⟨g.enc.fallback, g.dec⟩
    · exact ⟨g.enc.idle, g.dec⟩

/-- The end of a stream from a good state (43 R250). -/
theorem decFinish_inv {s : State} (g : Inv s) (hb : s.dec.busy = true) : ∃ t, decFinish s = .next t ∧ Inv t := by
  have ho := (g.dec.stream hb).outputStart
  obtain ⟨out, h⟩ := g.dec.hist.readRange (i := s.dec.outStart) (n := s.dec.hb.cursor - s.dec.outStart) (by omega)
  simp only [decFinish, h]
  exact ⟨_, rfl, g.enc, g.dec.idle⟩

/-- The decoder's next part from a good state (43 R232 to R234). -/
theorem State.fetchPart_good {s : State} (g : Inv s) (hb : s.dec.busy = true) : s.fetchPart.Good := by
  have st := g.dec.stream hb
  have hlen : s.dec.bitsLeft.length = 8 * s.dec.input.length - s.dec.bitPos := by simp [DecUnit.bitsLeft]
  have hpos := st.bitPos
  have htok := st.tokStart
  simp only [State.fetchPart]
  cases hp : s.dec.part with
  | head =>
    simp only
    split
    · exact .inl (decFinish_inv g hb)
    · simp only [State.runPart]
      cases hd : decodeHead (offsetCodeOf s.params s.dec.profile) s.dec.bitsLeft with
      | none =>
        exact .inl ⟨_, rfl, g.enc,
          (g.dec.withBits (pos := s.dec.bitPos) (start := s.dec.bitPos) hpos (Nat.le_refl _)).raised _ _⟩
      | some p =>
        obtain ⟨⟨h1, h2, h3⟩, h4⟩ := decodeHead_some hd
        obtain ⟨c, h4⟩ := h4
        exact ⟨wellFormed_of_part (by simp [h4]), g.enc,
          g.dec.withBits (pos := s.dec.bitPos + p.1.width) (start := s.dec.bitPos) (by omega) (by omega)⟩
  | lom =>
    simp only [State.runPart]
    cases hd : decodeLom s.dec.bitsLeft with
    | none => exact .inl ⟨_, rfl, g.enc, g.dec.raised _ _⟩
    | some p =>
      obtain ⟨⟨h1, h2, h3⟩, h4⟩ := decodeLom_some hd
      exact ⟨wellFormed_of_part (by simp [h4]), g.enc, g.dec.withBits (by omega) (by omega)⟩

/-- A machine left alone, from a good state (60 R340). -/
theorem State.advance_good {s : State} (g : Inv s) : s.advance.Good := by
  simp only [State.advance]
  split
  · exact State.fetchPart_good g ‹_›
  · split
    · exact .inl (encAdvance_inv g ‹_›)
    · exact .inl ⟨_, rfl, g⟩

/-- A transaction that has arrived, from a good state (30 R112, 60 R328 to R330). -/
theorem State.receive_good {s : State} (c : HostCommand) (g : Inv s) : (s.receive c).Good := by
  unfold State.receive
  split
  · split
    · exact .inl ⟨_, rfl, g.enc, g.dec⟩
    · split
      · exact .inl ⟨_, rfl, g.enc, g.dec⟩
      · split
        · exact .inl ⟨_, rfl, g.enc, g.dec⟩
        · split
          · exact ⟨(decodeCommand_wellFormed ‹_›).1, g⟩
          · exact .inr rfl
  · exact .inr rfl

/-- What the machine does next, from a good state. -/
theorem State.fetch_good {s : State} (g : Inv s) : s.fetch.Good := by
  unfold State.fetch
  split
  · split
    · exact State.receive_good _ ⟨g.enc, g.dec⟩
    · exact State.advance_good ⟨g.enc, g.dec⟩
  · exact State.advance_good g

/-! ### Which step comes -/

/-- With nothing sent and the decoder idle, a running encoder is what moves (log 20). -/
theorem step_encAdvance {s : State} (h1 : s.inbox = []) (h2 : s.dec.busy = false) (h3 : s.enc.busy = true) :
    step s = encAdvance s := by
  simp only [step, State.fetch, h1, State.advance, h2, h3]
  rfl

/-- With nothing sent, a running decoder is what moves (log 20). -/
theorem step_fetchPart {s : State} (h1 : s.inbox = []) (h2 : s.dec.busy = true) :
    step s = match s.fetchPart with
      | .run i t => exec i t
      | .settle o => o := by
  have h : s.fetch = s.fetchPart := by simp [State.fetch, h1, State.advance, h2]
  show (match s.fetch with
      | .run i t => exec i t
      | .settle o => o) = _
  rw [h]

/-- A transaction that has arrived is what the machine takes. -/
theorem step_receive {s : State} {c : HostCommand} {rest : List HostCommand} (h1 : s.inbox = c :: rest)
    (h2 : c.due s = true) :
    step s = match State.receive { s with inbox := rest } c with
      | .run i t => exec i t
      | .settle o => o := by
  have h : s.fetch = State.receive { s with inbox := rest } c := by simp [State.fetch, h1, h2]
  show (match s.fetch with
      | .run i t => exec i t
      | .settle o => o) = _
  rw [h]

/-! ### What a step does to a running encoder -/

/-- An instruction that is not the encoder's own. -/
def NotEnc (i : Instr) : Prop :=
  (∀ p, i ≠ .encInit p) ∧ ∀ chunk, i ≠ .encCompress chunk

/-- A token part is not the encoder's. -/
theorem notEnc_of_part {i : Instr} (h : i.context ≠ .command) : NotEnc i :=
  ⟨fun _ e => h (by rw [e]; rfl), fun _ e => h (by rw [e]; rfl)⟩

/-- An instruction that is not the encoder's leaves the encoder as it was (60 R338). -/
theorem exec_notEnc {s t : State} {i : Instr} (hi : NotEnc i) (h : exec i s = .next t) : t.enc = s.enc := by
  by_cases hc : i.context = .command
  · cases i <;> first | (cases hc; done) | skip
    case encInit p => exact absurd rfl (hi.1 p)
    case encCompress chunk => exact absurd rfl (hi.2 chunk)
    case decInit p => cases h; rfl
    case decDecompress flags payload =>
      simp only [exec, execDecDecompress, State.decPacket] at h
      repeat' split at h
      all_goals cases h; rfl
  · exact (exec_part_effect hc h).enc

/-- A command that goes to the decoder's port is not the encoder's (30 R112). -/
theorem decodeCommand_dec {lo hi : Byte} {rest : List Byte} {i : Instr} (h : decodeCommand (lo :: hi :: rest) = .ok i)
    (hp : portOf (opOf lo) = .dec) : NotEnc i := by
  have hop : (opOf lo).getLsbD 1 = true := by
    unfold portOf at hp
    split at hp
    · assumption
    · cases hp
  have h2 : ∀ b : BitVec 2, b.getLsbD 1 = true → b.toNat ≠ 0 ∧ b.toNat ≠ 1 := by decide
  obtain ⟨h0, h1⟩ := h2 _ hop
  simp only [decodeCommand] at h
  split at h
  · split at h
    · rename_i j hj
      cases h
      simp only [decodeOperands] at hj
      split at hj
      · exact absurd ‹_› h0
      · exact absurd ‹_› h1
      · split at hj
        · cases hj; exact ⟨by simp, by simp⟩
        · cases hj
      · simp only [Option.map_eq_some_iff] at hj
        obtain ⟨_, _, rfl⟩ := hj
        exact ⟨by simp, by simp⟩
    · cases h
  · cases h

/-- An action that leaves this encoder as it is. -/
def Action.KeepsEnc (e : EncUnit) : Action → Prop
  | .run i u => NotEnc i ∧ u.enc = e
  | .settle o => ∀ t, o = .next t → t.enc = e

/-- A running decoder's next part leaves the encoder alone. -/
theorem State.fetchPart_keepsEnc (s : State) : s.fetchPart.KeepsEnc s.enc := by
  simp only [State.fetchPart]
  split
  · split
    · intro t h
      simp only [decFinish] at h
      split at h <;> cases h
      rfl
    · cases hd : decodeHead (offsetCodeOf s.params s.dec.profile) s.dec.bitsLeft with
      | none => intro t h; cases h; rfl
      | some p =>
        obtain ⟨_, c, hc⟩ := decodeHead_some hd
        exact ⟨notEnc_of_part (by simp [hc]), rfl⟩
  · cases hd : decodeLom s.dec.bitsLeft with
    | none => intro t h; cases h; rfl
    | some p => exact ⟨notEnc_of_part (by simp [(decodeLom_some hd).2]), rfl⟩

/-- A transaction leaves a running encoder alone: its own port refuses (60 R330). -/
theorem State.receive_keepsEnc {s : State} (c : HostCommand) (hb : s.enc.busy = true) :
    (s.receive c).KeepsEnc s.enc := by
  unfold State.receive
  split
  · split
    · intro t h; cases h; rfl
    · split
      · intro t h; cases h; rfl
      · rename_i hp
        split
        · intro t h; cases h; rfl
        · rename_i lo hi more hbytes _ hbusy
          split
          · rename_i i hd
            rw [hbytes] at hd
            refine ⟨decodeCommand_dec hd ?_, rfl⟩
            cases hc : c.port
            · rw [hc] at hbusy; exact absurd hb hbusy
            · rw [hc] at hp; exact Decidable.not_not.mp hp
          · intro t h; cases h
  · intro t h; cases h

/-- Everything a step does to a running encoder: it leaves it as it was, or moves its scan on (60 R338, log 20). -/
theorem step_running_enc {s t : State} (hb : s.enc.busy = true) (h : step s = .next t) :
    t.enc = s.enc ∨ ∃ inbox, encAdvance { s with inbox := inbox } = .next t := by
  have kept : ∀ {a : Action}, s.fetch = a → a.KeepsEnc s.enc → t.enc = s.enc := by
    intro a ha k
    simp only [step, ha] at h
    cases a with
    | run i u => exact (exec_notEnc k.1 h).trans k.2
    | settle o => exact k t h
  have left : ∀ inbox, s.fetch = State.advance { s with inbox := inbox } →
      t.enc = s.enc ∨ ∃ inbox, encAdvance { s with inbox := inbox } = .next t := by
    intro inbox hf
    simp only [State.advance] at hf
    split at hf
    · exact .inl (kept hf (State.fetchPart_keepsEnc _))
    · simp only [step, hf] at h
      exact .inr ⟨inbox, h⟩
  cases hin : s.inbox with
  | nil => exact left s.inbox (by show s.fetch = s.advance; simp only [State.fetch, hin])
  | cons c rest =>
    by_cases hd : c.due s = true
    · exact .inl (kept (by simp only [State.fetch, hin, hd, if_true])
        (State.receive_keepsEnc (s := { s with inbox := rest }) c hb))
    · exact left (c.tick :: rest) (by simp only [State.fetch, hin, if_neg hd])

/-! ### Runs -/

/-- A run goes on from where a run ends. -/
theorem run_add (k m : Nat) (s t : State) (h : Host.Core.run core k s = .next t) :
    Host.Core.run core (k + m) s = Host.Core.run core m t := by
  induction k generalizing s with
  | zero =>
    simp only [Host.Core.run] at h
    cases h
    simp
  | succ k ih =>
    rw [show k + 1 + m = (k + m) + 1 by omega]
    simp only [Host.Core.run] at h ⊢
    split at h
    · exact ih _ h
    · cases h
    · cases h

/-- One step, then a run. -/
theorem run_succ {k : Nat} {s t u : State} (h : step s = .next t) (r : Host.Core.run core k t = .next u) :
    Host.Core.run core (k + 1) s = .next u := by
  have h' : core.step s = .next t := h
  simp only [Host.Core.run, h']
  exact r

end Sys2Proof.Machine
end

