-- ==== Sys2Proof/Laws/PerInstr.lean ====
section
/-! SUPPORT. Per instruction: the encoder writes as many bits as the opcode table gives the row, and a command has no
stream bits (30 R101 to R104, R106). -/

namespace Sys2Proof.Laws.Length

/-- The bits of a part are as many as its row's length, and every part has at least one. -/
def Statement (i : Instr) : Prop :=
  (tokenBits i).length = i.width ∧ (i.context = .command ∨ 1 ≤ i.width)

theorem litLo (v : BitVec 7) : Statement (.litLo v) :=
  ⟨tokenBits_length (.litLo v), .inr (by simp [Instr.width])⟩

theorem litHi (v : BitVec 7) : Statement (.litHi v) :=
  ⟨tokenBits_length (.litHi v), .inr (by simp [Instr.width])⟩

theorem matchO6 (o : BitVec 6) : Statement (.matchO6 o) :=
  ⟨tokenBits_length (.matchO6 o), .inr (by simp [Instr.width])⟩

theorem matchO8 (o : BitVec 8) : Statement (.matchO8 o) :=
  ⟨tokenBits_length (.matchO8 o), .inr (by simp [Instr.width])⟩

theorem matchO11 (o : BitVec 11) : Statement (.matchO11 o) :=
  ⟨tokenBits_length (.matchO11 o), .inr (by simp [Instr.width])⟩

theorem matchO16 (o : BitVec 16) : Statement (.matchO16 o) :=
  ⟨tokenBits_length (.matchO16 o), .inr (by simp [Instr.width])⟩

theorem matchO6L (o : BitVec 6) : Statement (.matchO6L o) :=
  ⟨tokenBits_length (.matchO6L o), .inr (by simp [Instr.width])⟩

theorem matchO8L (o : BitVec 8) : Statement (.matchO8L o) :=
  ⟨tokenBits_length (.matchO8L o), .inr (by simp [Instr.width])⟩

theorem matchO13L (o : BitVec 13) : Statement (.matchO13L o) :=
  ⟨tokenBits_length (.matchO13L o), .inr (by simp [Instr.width])⟩

theorem lom3 : Statement (.lom3) :=
  ⟨tokenBits_length (.lom3), .inr (by simp [Instr.width])⟩

theorem lomC2 (l : BitVec 2) : Statement (.lomC2 l) :=
  ⟨tokenBits_length (.lomC2 l), .inr (by simp [Instr.width])⟩

theorem lomC3 (l : BitVec 3) : Statement (.lomC3 l) :=
  ⟨tokenBits_length (.lomC3 l), .inr (by simp [Instr.width])⟩

theorem lomC4 (l : BitVec 4) : Statement (.lomC4 l) :=
  ⟨tokenBits_length (.lomC4 l), .inr (by simp [Instr.width])⟩

theorem lomC5 (l : BitVec 5) : Statement (.lomC5 l) :=
  ⟨tokenBits_length (.lomC5 l), .inr (by simp [Instr.width])⟩

theorem lomC6 (l : BitVec 6) : Statement (.lomC6 l) :=
  ⟨tokenBits_length (.lomC6 l), .inr (by simp [Instr.width])⟩

theorem lomC7 (l : BitVec 7) : Statement (.lomC7 l) :=
  ⟨tokenBits_length (.lomC7 l), .inr (by simp [Instr.width])⟩

theorem lomC8 (l : BitVec 8) : Statement (.lomC8 l) :=
  ⟨tokenBits_length (.lomC8 l), .inr (by simp [Instr.width])⟩

theorem lomC9 (l : BitVec 9) : Statement (.lomC9 l) :=
  ⟨tokenBits_length (.lomC9 l), .inr (by simp [Instr.width])⟩

theorem lomC10 (l : BitVec 10) : Statement (.lomC10 l) :=
  ⟨tokenBits_length (.lomC10 l), .inr (by simp [Instr.width])⟩

theorem lomC11 (l : BitVec 11) : Statement (.lomC11 l) :=
  ⟨tokenBits_length (.lomC11 l), .inr (by simp [Instr.width])⟩

theorem lomC12 (l : BitVec 12) : Statement (.lomC12 l) :=
  ⟨tokenBits_length (.lomC12 l), .inr (by simp [Instr.width])⟩

theorem lomC13 (l : BitVec 13) : Statement (.lomC13 l) :=
  ⟨tokenBits_length (.lomC13 l), .inr (by simp [Instr.width])⟩

theorem lomC14 (l : BitVec 14) : Statement (.lomC14 l) :=
  ⟨tokenBits_length (.lomC14 l), .inr (by simp [Instr.width])⟩

theorem lomC15 (l : BitVec 15) : Statement (.lomC15 l) :=
  ⟨tokenBits_length (.lomC15 l), .inr (by simp [Instr.width])⟩

theorem lomReserved : Statement (.lomReserved) :=
  ⟨tokenBits_length (.lomReserved), .inr (by simp [Instr.width])⟩

theorem encInit (p : Profile) : Statement (.encInit p) :=
  ⟨tokenBits_length (.encInit p), .inl rfl⟩

theorem encCompress (chunk : List Byte) : Statement (.encCompress chunk) :=
  ⟨tokenBits_length (.encCompress chunk), .inl rfl⟩

theorem decInit (p : Profile) : Statement (.decInit p) :=
  ⟨tokenBits_length (.decInit p), .inl rfl⟩

theorem decDecompress (flags : Byte) (payload : List Byte) : Statement (.decDecompress flags payload) :=
  ⟨tokenBits_length (.decDecompress flags payload), .inl rfl⟩

end Sys2Proof.Laws.Length
end

