-- ==== Sys2Proof/Laws/SameBytes.lean ====
section
/-! SUPPORT. The match finder reads the History Buffer only through HB_READ: over two buffers that read alike, it does the
same (20 R73, 41 R183). -/

namespace Sys2Proof.Machine

theorem HistBuf.hashAt_congr {g h : HistBuf} (hr : ∀ i, g.read i = h.read i) (hash : HashParams) (i : Nat) :
    g.hashAt hash i = h.hashAt hash i := by
  simp only [HistBuf.hashAt, hr]

theorem HistBuf.agree_congr {g h : HistBuf} (hr : ∀ i, g.read i = h.read i) (i j n : Nat) :
    g.agree i j n = h.agree i j n := by
  simp only [HistBuf.agree, HistBuf.readRange_congr (fun k _ => hr (i + k)), HistBuf.readRange_congr (fun k _ => hr (j + k))]

theorem HistBuf.extend_congr {g h : HistBuf} (hr : ∀ i, g.read i = h.read i) (stop cand pos fuel len : Nat) :
    g.extend stop cand pos fuel len = h.extend stop cand pos fuel len := by
  induction fuel generalizing len with
  | zero => rfl
  | succ fuel ih => simp only [HistBuf.extend, hr, ih]

theorem HistBuf.insertInterior_congr {g h : HistBuf} (hr : ∀ i, g.read i = h.read i) (hash : HashParams)
    (stop n q : Nat) (slots : SlotTable) :
    g.insertInterior hash stop n q slots = h.insertInterior hash stop n q slots := by
  induction n generalizing q slots with
  | zero => rfl
  | succ n ih => simp only [HistBuf.insertInterior, HistBuf.hashAt_congr hr, ih]

/-- Two encoders that a scan cannot tell apart: everything it reads before it writes is equal, and the buffers read alike.
The working registers that each position sets anew (10 R49) and the model's own counter may differ. -/
structure EncUnit.Alike (e f : EncUnit) : Prop where
  ready : f.ready = e.ready
  profile : f.profile = e.profile
  session : f.session = e.session
  cursor : f.hb.cursor = e.hb.cursor
  reads : ∀ i, f.hb.read i = e.hb.read i
  slots : f.slots = e.slots
  busy : f.busy = e.busy
  chunk : f.chunk = e.chunk
  atFront : f.atFront = e.atFront
  start : f.start = e.start
  stop : f.stop = e.stop
  pos : f.pos = e.pos
  out : f.out = e.out

/-- Two turns of the scan that end alike. -/
def EncUnit.TurnsAlike (r q : Option EncUnit) : Prop :=
  (r = none ∧ q = none) ∨ ∃ e f, r = some e ∧ q = some f ∧ e.Alike f

theorem EncUnit.literalHere_alike {e f : EncUnit} (h : e.Alike f) : EncUnit.TurnsAlike e.literalHere f.literalHere := by
  simp only [EncUnit.literalHere, h.pos, h.reads]
  cases e.hb.read e.pos with
  | none => exact .inl ⟨rfl, rfl⟩
  | some c =>
    refine .inr ⟨_, _, rfl, rfl, ?_⟩
    exact { h with pos := rfl, out := congrArg (· ++ tokenBits (literalForm c)) h.out }

theorem EncUnit.matchHere_alike (params : Params) (c : Nat) {e f : EncUnit} (h : e.Alike f) :
    EncUnit.TurnsAlike (e.matchHere params c) (f.matchHere params c) := by
  simp only [EncUnit.matchHere, HistBuf.extend_congr h.reads, HistBuf.insertInterior_congr h.reads, h.stop, h.pos, h.slots,
    h.profile]
  cases e.hb.extend e.stop c e.pos (e.stop - e.pos) 3 with
  | none => exact .inl ⟨rfl, rfl⟩
  | some len =>
    simp only
    cases e.hb.insertInterior params.hash e.stop (len - 1) (e.pos + 1) e.slots with
    | none => exact .inl ⟨rfl, rfl⟩
    | some slots =>
      refine .inr ⟨_, _, rfl, rfl, ?_⟩
      exact { h with
        slots := rfl
        pos := congrArg (· + len) h.pos
        out := by
          simp only [EncUnit.takeMatch, EncUnit.emitMatch, EncUnit.put, h.out, h.pos] }

theorem EncUnit.choose_alike (params : Params) {e f : EncUnit} (h : e.Alike f) (hc : f.cand = e.cand) :
    EncUnit.TurnsAlike (e.choose params) (f.choose params) := by
  have hl := EncUnit.literalHere_alike h
  simp only [EncUnit.choose, hc, h.pos, HistBuf.agree_congr h.reads]
  cases e.cand with
  | none => exact hl
  | some c =>
    simp only
    by_cases h2 : e.pos < 2
    · rw [if_pos h2, if_pos h2]
      exact hl
    · rw [if_neg h2, if_neg h2]
      rcases e.hb.agree c e.pos 3 with _ | _ | _
      · exact .inl ⟨rfl, rfl⟩
      · exact hl
      · exact EncUnit.matchHere_alike params c h

/-- A turn of the reference finder on encoders it cannot tell apart (41 R183). -/
theorem EncUnit.scanOne_alike {params : Params} (hf : params.finder = .reference) {e f : EncUnit} (h : e.Alike f) :
    EncUnit.TurnsAlike (e.scanOne params) (f.scanOne params) := by
  have hl := EncUnit.literalHere_alike h
  simp only [EncUnit.scanOne, hf, h.stop, h.pos]
  by_cases ht : e.stop < e.pos + 3
  · rw [if_pos ht, if_pos ht]
    exact hl
  · rw [if_neg ht, if_neg ht]
    simp only [EncUnit.scanReference, EncUnit.lookup, HistBuf.hashAt_congr h.reads, h.pos, h.slots]
    cases e.hb.hashAt params.hash e.pos with
    | none => exact .inl ⟨rfl, rfl⟩
    | some hv => exact EncUnit.choose_alike params { h with slots := rfl, pos := rfl } rfl

end Sys2Proof.Machine
end

