-- ==== Sys2Proof/Tests/Slice0.lean ====
section
/-! SUPPORT. Tests of the decoder, of well-formedness and of single steps, with expected results from the tables and worked
vectors of spec/, and one witness for each statement that has hypotheses. -/

namespace Sys2Proof.Tests

open Sys2Proof Sys2Proof.Machine Sys2Proof.Claims

/-- Bits as the spec writes them. -/
def bits (l : List Nat) : Bits := l.map (fun b => b != 0)

/-! ### Decoding: one word of each constructor, bit by bit from 30 R101 to R104 and R110 -/

theorem test_decode_litLo : decodeHead .doc (bits [0, 1, 0, 0, 0, 0, 0, 1]) = some (.litLo 0x41#7, []) := by decide

theorem test_decode_litHi : decodeHead .rfc2118 (bits [1, 0, 1, 1, 1, 1, 1, 1, 1]) = some (.litHi 0x7F#7, []) := by decide

theorem test_decode_matchO6 :
    decodeHead .doc (bits [1, 1, 1, 1, 1, 0, 0, 0, 0, 1, 1]) = some (.matchO6 3#6, []) := by decide

theorem test_decode_matchO8 :
    decodeHead .doc (bits [1, 1, 1, 1, 0, 1, 0, 0, 0, 0, 0, 0, 1]) = some (.matchO8 0x81#8, []) := by decide

theorem test_decode_matchO11 :
    decodeHead .doc (bits [1, 1, 1, 0, 1, 0, 0, 0, 0, 0, 0, 0, 0, 1, 0]) = some (.matchO11 0x402#11, []) := by decide

theorem test_decode_matchO16 :
    decodeHead .doc (bits [1, 1, 0, 1, 0, 0, 0, 0, 0, 0, 0, 0, 0, 0, 0, 0, 0, 1, 1]) = some (.matchO16 0x8003#16, []) := by
  decide

theorem test_decode_matchO6L :
    decodeHead .rfc2118 (bits [1, 1, 1, 1, 1, 0, 0, 0, 0, 1]) = some (.matchO6L 0x21#6, []) := by decide

theorem test_decode_matchO8L :
    decodeHead .rfc2118 (bits [1, 1, 1, 0, 1, 0, 0, 0, 0, 0, 0, 1]) = some (.matchO8L 0x81#8, []) := by decide

theorem test_decode_matchO13L :
    decodeHead .rfc2118 (bits [1, 1, 0, 1, 0, 0, 0, 0, 0, 0, 0, 0, 0, 0, 1, 0]) = some (.matchO13L 0x1002#13, []) := by decide

theorem test_decode_lom3 : decodeLom (bits [0]) = some (.lom3, []) := by decide

theorem test_decode_lomC2 : decodeLom (bits [1, 0, 1, 0]) = some (.lomC2 2#2, []) := by decide

theorem test_decode_lomC3 : decodeLom (bits [1, 1, 0, 1, 0, 0]) = some (.lomC3 4#3, []) := by decide

theorem test_decode_lomC4 : decodeLom (bits [1, 1, 1, 0, 1, 0, 0, 0]) = some (.lomC4 8#4, []) := by decide

theorem test_decode_lomC5 : decodeLom (bits [1, 1, 1, 1, 0, 1, 0, 0, 0, 0]) = some (.lomC5 0x10#5, []) := by decide

theorem test_decode_lomC6 : decodeLom (bits [1, 1, 1, 1, 1, 0, 1, 0, 0, 0, 0, 1]) = some (.lomC6 0x21#6, []) := by decide

theorem test_decode_lomC7 :
    decodeLom (bits [1, 1, 1, 1, 1, 1, 0, 1, 0, 0, 0, 0, 0, 1]) = some (.lomC7 0x41#7, []) := by decide

theorem test_decode_lomC8 :
    decodeLom (bits [1, 1, 1, 1, 1, 1, 1, 0, 1, 0, 0, 0, 0, 0, 0, 1]) = some (.lomC8 0x81#8, []) := by decide

theorem test_decode_lomC9 :
    decodeLom (bits [1, 1, 1, 1, 1, 1, 1, 1, 0, 1, 0, 0, 0, 0, 0, 0, 0, 1]) = some (.lomC9 0x101#9, []) := by decide

theorem test_decode_lomC10 :
    decodeLom (bits [1, 1, 1, 1, 1, 1, 1, 1, 1, 0, 1, 0, 0, 0, 0, 0, 0, 0, 0, 1]) = some (.lomC10 0x201#10, []) := by decide

theorem test_decode_lomC11 :
    decodeLom (bits [1, 1, 1, 1, 1, 1, 1, 1, 1, 1, 0, 1, 0, 0, 0, 0, 0, 0, 0, 0, 0, 1]) = some (.lomC11 0x401#11, []) := by
  decide

theorem test_decode_lomC12 :
    decodeLom (bits [1, 1, 1, 1, 1, 1, 1, 1, 1, 1, 1, 0, 1, 0, 0, 0, 0, 0, 0, 0, 0, 0, 0, 1]) =
      some (.lomC12 0x801#12, []) := by decide

theorem test_decode_lomC13 :
    decodeLom (bits [1, 1, 1, 1, 1, 1, 1, 1, 1, 1, 1, 1, 0, 1, 0, 0, 0, 0, 0, 0, 0, 0, 0, 0, 0, 1]) =
      some (.lomC13 0x1001#13, []) := by decide

theorem test_decode_lomC14 :
    decodeLom (bits [1, 1, 1, 1, 1, 1, 1, 1, 1, 1, 1, 1, 1, 0, 1, 0, 0, 0, 0, 0, 0, 0, 0, 0, 0, 0, 0, 1]) =
      some (.lomC14 0x2001#14, []) := by decide

theorem test_decode_lomC15 :
    decodeLom (bits [1, 1, 1, 1, 1, 1, 1, 1, 1, 1, 1, 1, 1, 1, 0, 1, 0, 0, 0, 0, 0, 0, 0, 0, 0, 0, 0, 0, 0, 1]) =
      some (.lomC15 0x4001#15, []) := by decide

theorem test_decode_lomReserved :
    decodeLom (bits [1, 1, 1, 1, 1, 1, 1, 1, 1, 1, 1, 1, 1, 1, 1, 0]) = some (.lomReserved, [false]) := by decide

theorem test_decode_encInit :
    decodeCommand [0x04#8, 0x00#8] = .ok (.encInit .standard) ∧ decodeCommand [0x00#8, 0x00#8] = .ok (.encInit .legacy) := by
  decide

theorem test_decode_decInit :
    decodeCommand [0x06#8, 0x00#8] = .ok (.decInit .standard) ∧ decodeCommand [0x02#8, 0x00#8] = .ok (.decInit .legacy) := by
  decide

theorem test_decode_encCompress :
    decodeCommand [0x01#8, 0x00#8, 0x02#8, 0x00#8, 0x00#8, 0x00#8, 0x41#8, 0x42#8] = .ok (.encCompress [0x41#8, 0x42#8]) := by
  decide

/-- The serialised example of 30 R113: the command word `0x6103` is `03 61`, and `LEN = 6` is `06 00 00 00`. -/
theorem test_decode_decDecompress :
    decodeCommand [0x03#8, 0x61#8, 0x06#8, 0x00#8, 0x00#8, 0x00#8, 0x61#8, 0x62#8, 0x63#8, 0xF8#8, 0x78#8, 0x80#8] =
      .ok (.decDecompress 0x61#8 [0x61#8, 0x62#8, 0x63#8, 0xF8#8, 0x78#8, 0x80#8]) := by decide

/-- Bits that must be 0 (30 R112), and bytes that are no whole command. -/
theorem test_decode_refuses :
    decodeCommand [0x05#8, 0x00#8] = .error .reservedWord ∧ decodeCommand [0x01#8, 0x61#8] = .error .reservedWord ∧
    decodeCommand [0x0C#8, 0x00#8] = .error .reservedWord ∧ decodeCommand [0x00#8] = .error .brokenTransaction ∧
    decodeCommand [0x01#8, 0x00#8, 0x02#8, 0x00#8, 0x00#8, 0x00#8, 0x41#8] = .error .brokenTransaction ∧
    decode (.head .doc) [0xF8#8] = .error .truncated ∧ decode .lom [] = .error .truncated := by decide

/-- The token bits of 43 R252's last token, and the boundaries of 42 R205 and R206. -/
theorem test_emit_boundaries :
    tokenBits (offsetForm .doc 63) = bits [1, 1, 1, 1, 1, 1, 1, 1, 1, 1, 1] ∧
    tokenBits (offsetForm .doc 64) = bits [1, 1, 1, 1, 0, 0, 0, 0, 0, 0, 0, 0, 0] ∧
    tokenBits (offsetForm .doc 2367) = bits [1, 1, 1, 0, 1, 1, 1, 1, 1, 1, 1, 1, 1, 1, 1] ∧
    tokenBits (offsetForm .doc 2368) = bits [1, 1, 0, 0, 0, 0, 0, 0, 0, 0, 0, 0, 0, 0, 0, 0, 0, 0, 0] ∧
    tokenBits (lengthForm 4) = bits [1, 0, 0, 0] ∧ tokenBits (lengthForm 7) = bits [1, 0, 1, 1] ∧
    tokenBits (lengthForm 9) = bits [1, 1, 0, 0, 0, 1] ∧
    tokenBits (lengthForm 65535) = List.replicate 14 true ++ [false] ++ List.replicate 15 true := by decide

/-- Words of spec/opcode_table.json (log 21). -/
theorem test_table_words :
    decodeTableWord 8 0x41 = some (.litLo 0x41#7) ∧ decodeTableWord 8 0xE5 = some (.lomC4 5#4) ∧
    decodeTableWord 16 0xFE81 = some (.lomC8 0x81#8) ∧ decodeTableWord 24 0xFFE801 = some (.lomC12 0x801#12) ∧
    decodeTableWord 16 0x0004 = some (.encInit .standard) ∧ decodeTableWord 16 0x0001 = some (.encCompress []) ∧
    decodeTableWord 16 0x0002 = some (.decInit .legacy) ∧ decodeTableWord 16 0x6103 = some (.decDecompress 0x61#8 []) ∧
    decodeTableWord 9 0x169 = some (.litHi 0x69#7) ∧ decodeTableWord 15 0x7FFF = some .lomReserved := by decide

/-! ### Ill-formed instructions (30 R113) -/

/-- A payload of `2 ^ 32` bytes does not fit `LEN`. -/
theorem lenFits_of_length {payload : List Byte} (h : payload.length = 2 ^ 32) : lenFits payload = false := by
  simp [lenFits, h]

theorem test_illformed_encCompress : (Instr.encCompress (List.replicate (2 ^ 32) 0#8)).wellFormed = false :=
  lenFits_of_length List.length_replicate

theorem test_illformed_decDecompress : (Instr.decDecompress 0x61#8 (List.replicate (2 ^ 32) 0#8)).wellFormed = false :=
  lenFits_of_length List.length_replicate

/-! ### Small states -/

/-- A History Buffer whose epoch holds these bytes. -/
def hist (bytes : List Byte) : HistBuf := HistBuf.pushAll { cursor := 0, mem := [] } bytes

/-- A decoder after DEC_INIT whose epoch holds these bytes. -/
def dec (p : Profile) (bytes : List Byte) : DecUnit := { DecUnit.powerOn.init p with hb := hist bytes }

/-- An encoder after ENC_INIT. -/
def enc (p : Profile) : EncUnit := EncUnit.powerOn.init p

/-- A machine of these units. -/
def machine (e : EncUnit) (d : DecUnit) : State := { State.reset with enc := e, dec := d }

/-- A machine whose decoder runs a payload. -/
def decoding (p : Profile) (bytes payload : List Byte) : State := machine (enc p) ((dec p bytes).startStream payload)

/-- A machine whose encoder has loaded a chunk. -/
def encoding (p : Profile) (chunk : List Byte) : State := machine ((enc p).load chunk) (dec p [])

/-- One turn of the scan. -/
def turn (s : State) : State := { s with enc := (s.enc.scanOne s.params).getD s.enc }

/-- The decoder of what a step answers. -/
def decAfter (o : Host.Outcome State Fault Refusal) : Option DecUnit :=
  match o with
  | .next t => some t.dec
  | _ => none

/-- The newest answer after a step. -/
def answerAfter (o : Host.Outcome State Fault Refusal) : Option (List Byte) :=
  match o with
  | .next t => t.outbox.getLast?.map Response.bytes
  | _ => none

/-- The bits emitted after a step. -/
def outAfter (o : Host.Outcome State Fault Refusal) : Option Bits :=
  match o with
  | .next t => some t.enc.out
  | _ => none

theorem empty_good (cap : Nat) : HistBuf.Good { cursor := 0, mem := [] } cap where
  wf := List.Pairwise.nil
  filled i h := absurd h (Nat.not_lt_zero i)
  bounded x h := by cases h
  fits := Nat.zero_le cap

theorem hist_good {bytes : List Byte} {cap : Nat} (h : bytes.length ≤ cap) (hc : cap ≤ 65536) : (hist bytes).Good cap :=
  HistBuf.pushAll_good bytes (empty_good cap) (by simpa using h) hc

theorem dec_good {p : Profile} {bytes : List Byte} (h : bytes.length ≤ capacity p) : (dec p bytes).Good where
  hist := hist_good h (capacity_le p)
  status := .inl rfl
  faultPos _ := rfl
  off := Nat.zero_le _
  len := Nat.zero_le _
  stream h := by cases h

theorem enc_good (p : Profile) : (enc p).Good where
  hist := empty_good _
  slots := SlotsGood.empty 0
  status := rfl
  scan h := by cases h

theorem decoding_inv {p : Profile} {bytes payload : List Byte} (h : bytes.length ≤ capacity p)
    (hl : payload.length < 2 ^ 32) : Inv (decoding p bytes payload) where
  enc := enc_good p
  dec := (dec_good h).startStream rfl rfl (Nat.zero_le _) hl

theorem encoding_inv {p : Profile} {chunk : List Byte} (h : chunk.length ≤ capacity p) : Inv (encoding p chunk) where
  enc := (enc_good p).load rfl h
  dec := dec_good (Nat.zero_le _)

theorem turn_inv {s : State} (g : Inv s) (hb : s.enc.busy = true) (hp : s.enc.pos < s.enc.stop) : Inv (turn s) := by
  obtain ⟨e, h1, _, _, h4, _⟩ := EncUnit.scanOne_spec s.params g.enc hb hp
  refine ⟨?_, g.dec⟩
  simp only [turn, h1]
  exact h4

/-! ### Single steps, from the spec's own examples -/

/-- 43 R235: bits `01000001` append 0x41; a step runs it. -/
theorem test_litLo : (decAfter (step (decoding .standard [] [0x41#8]))).map DecUnit.hb = some (hist [0x41#8]) := by decide

/-- DEC-8's error at a smaller place: 43 R236 at `CURSOR = CAPACITY` raises 0x05. -/
theorem test_litHi_overflow :
    answerAfter (exec (.litHi 0x7F#7) (machine (enc .legacy) { dec .legacy [] with hb := { cursor := 8192, mem := [] } })) =
      some [0x05#8] := by decide

/-- 43 R236: bits `101111111` append 0xFF. -/
theorem test_litHi : (decAfter (exec (.litHi 0x7F#7) (machine (enc .standard) (dec .standard [])))).map DecUnit.hb =
    some (hist [0xFF#8]) := by decide

/-- 43 R237: with history `41 41`, the offset part of `11111 000001 0` gives OFF 1. -/
theorem test_matchO6 : (decAfter (exec (.matchO6 1#6) (machine (enc .standard) (dec .standard [])))).map DecUnit.off =
    some 1 := by decide

/-- 43 R238 corner cases: `v = 0` gives 64 and `v = 255` gives 319. -/
theorem test_matchO8 : (decAfter (exec (.matchO8 255#8) State.reset)).map DecUnit.off = some 319 := by decide

/-- 43 R239: the range ends at 2367. -/
theorem test_matchO11 : (decAfter (exec (.matchO11 2047#11) State.reset)).map DecUnit.off = some 2367 := by decide

/-- 43 R240 corner case: `v = 0xFFFF` gives 67903. -/
theorem test_matchO16 : (decAfter (exec (.matchO16 0xFFFF#16) State.reset)).map DecUnit.off = some 67903 := by decide

/-- 30 R104: the RFC2118 code's ranges. -/
theorem test_match_legacy :
    (decAfter (exec (.matchO6L 63#6) State.reset)).map DecUnit.off = some 63 ∧
    (decAfter (exec (.matchO8L 255#8) State.reset)).map DecUnit.off = some 319 ∧
    (decAfter (exec (.matchO13L 0x1FFF#13) State.reset)).map DecUnit.off = some 8511 := by decide

/-- 40 R154: `Hist[0..1] = 41 42`, HB_COPY(2, 5) gives `41 42 41 42 41`; here as LOM.C2 with `v = 1`. -/
theorem test_lomC2 :
    (decAfter (exec (.lomC2 1#2) (machine (enc .standard) { dec .standard [0x41#8, 0x42#8] with off := 2 }))).map DecUnit.hb =
      some (hist [0x41#8, 0x42#8, 0x41#8, 0x42#8, 0x41#8, 0x42#8, 0x41#8]) := by decide

/-- 43 R237's example: OFF 1 and LOM3 after `41 41` append `41 41 41`. -/
theorem test_lom3 :
    (decAfter (exec .lom3 (machine (enc .standard) { dec .standard [0x41#8, 0x41#8] with off := 1 }))).map DecUnit.hb =
      some (hist [0x41#8, 0x41#8, 0x41#8, 0x41#8, 0x41#8]) := by decide

/-- The lengths of 30 R103 at both ends of a class, seen in `L` where the match then overflows or lies beyond the cursor. -/
theorem test_lom_lengths :
    (decAfter (exec (.lomC3 7#3) State.reset)).map DecUnit.len = some 15 ∧
    (decAfter (exec (.lomC4 0#4) State.reset)).map DecUnit.len = some 16 ∧
    (decAfter (exec (.lomC9 511#9) State.reset)).map DecUnit.len = some 1023 ∧
    (decAfter (exec (.lomC15 0x7FFF#15) State.reset)).map DecUnit.len = some 65535 := by decide

/-- DEC-5, DEC-6: OFFSET_ZERO is 0x0A, OFFSET_BEYOND_CURSOR is 0x0E. -/
theorem test_match_errors :
    answerAfter (exec .lom3 (machine (enc .standard) (dec .standard [0x41#8]))) = some [0x0A#8] ∧
    answerAfter (exec .lom3 (machine (enc .standard) { dec .standard [0x41#8] with off := 2 })) = some [0x0E#8] := by decide

/-- DEC-7: LOM_PREFIX is 0x12, with FAULT_POS at the token's start. -/
theorem test_lomReserved :
    (decAfter (exec .lomReserved (machine (enc .standard) { dec .standard [0x41#8] with tokStart := 8 }))).map
      (fun d => (d.status, d.faultPos)) = some (0x12#8, 8#35) := by decide

/-- DEC-3 and DEC-11: `80` and `FF` are truncated tokens, 0x06. -/
theorem test_truncated :
    answerAfter (step (decoding .standard [] [0x80#8])) = some [0x06#8] ∧
    answerAfter (step (decoding .standard [] [0xFF#8])) = some [0x06#8] := by decide

/-- CMD-3: ENC_INIT STANDARD answers `00`. -/
theorem test_encInit : answerAfter (step (sends State.reset .enc (.encInit .standard))) = some [0x00#8] := by decide

/-- CMD-6: DEC_INIT LEGACY answers `00`. -/
theorem test_decInit : answerAfter (step (sends State.reset .dec (.decInit .legacy))) = some [0x00#8] := by decide

/-- CMD-1 and CMD-2: the READY refusals. -/
theorem test_notReady :
    answerAfter (step (sends State.reset .enc (.encCompress [0x41#8]))) = some [0xE0#8] ∧
    answerAfter (step (sends State.reset .dec (.decDecompress 0x61#8 []))) = some [0xE0#8] := by decide

/-- A transaction of these bytes that has arrived. -/
def arrives (s : State) (port : Port) (bytes : List Byte) : State :=
  { s with inbox := [{ port := port, arrival := .after 0, bytes := bytes }] }

/-- CMD-7, CMD-9, CMD-11, CMD-12, CMD-13 and CMD-14. -/
theorem test_refusals :
    answerAfter (step (arrives (machine (enc .standard) (dec .standard [])) .enc [0x05#8, 0x00#8])) = some [0xE1#8] ∧
    answerAfter (step (arrives (machine (enc .standard) (dec .standard [])) .enc [0x01#8, 0x61#8])) = some [0xE1#8] ∧
    answerAfter (step (arrives State.reset .enc [0x03#8, 0x61#8])) = some [0xE2#8] ∧
    answerAfter (step (arrives (machine (enc .standard) (dec .standard [])) .dec [0x04#8, 0x00#8])) = some [0xE2#8] ∧
    answerAfter (step (arrives State.reset .dec [0x0C#8, 0x00#8])) = some [0xE1#8] ∧
    answerAfter (step (arrives (encoding .standard [0x41#8]) .enc [0x04#8, 0x00#8])) = some [0xE3#8] := by decide

/-- DEC-2's last step: 4 padding bits are ignored. -/
theorem test_padding :
    answerAfter (step { decoding .standard [0x41#8] [0x41#8, 0xF8#8] with
      dec := { (decoding .standard [0x41#8] [0x41#8, 0xF8#8]).dec with bitPos := 12 } }) =
      some [0x00#8, 0x01#8, 0x00#8, 0x00#8, 0x00#8, 0x41#8] := by decide

/-- 44 R296: at position 2 of "AAAAA" a fresh encoder emits `MATCH 1, 3` after two literals. -/
theorem test_encCompress_match :
    outAfter (step (turn (turn (encoding .standard [0x41#8, 0x41#8, 0x41#8, 0x41#8, 0x41#8])))) =
      some (bits [0, 1, 0, 0, 0, 0, 0, 1] ++ bits [0, 1, 0, 0, 0, 0, 0, 1] ++ bits [1, 1, 1, 1, 1, 0, 0, 0, 0, 0, 1, 0]) := by
  decide

/-- 44 R281: an empty chunk falls back, FLUSHED with an empty payload. -/
theorem test_encCompress_empty :
    answerAfter (step (encoding .standard [])) = some [0x00#8, 0x81#8, 0x00#8, 0x00#8, 0x00#8, 0x00#8] := by decide

/-- 44 R284: a plain packet passes through a decoder of either profile. -/
theorem test_decDecompress_plain :
    answerAfter (exec (.decDecompress 0x00#8 [0x41#8]) (machine (enc .legacy) (dec .legacy []))) =
      some [0x00#8, 0x01#8, 0x00#8, 0x00#8, 0x00#8, 0x41#8] := by decide

/-- 60 R323: FLAGS 0x60 at a STANDARD decoder names the other profile. -/
theorem test_decDecompress_mismatch :
    answerAfter (exec (.decDecompress 0x60#8 [0x41#8]) (machine (enc .standard) (dec .standard []))) = some [0x07#8] := by
  decide

/-- A table word is what the next step runs: LIT.LO 0x41, and ENC_INIT STANDARD (log 21). -/
theorem test_withFetchWord :
    (decAfter (step (State.reset.withFetchWord 8 0x41))).map (fun d => d.hb.cursor) = some 1 ∧
    answerAfter (step (State.reset.withFetchWord 16 0x0004)) = some [0x00#8] := by decide

/-! ### Witnesses: each statement's hypotheses are met together -/

theorem witness_TokenPartsDecodeFromTheirBits :
    (Instr.matchO16 0#16).context ≠ .command ∧ LiteralMeans (.litLo 0x41#7) 0x41 ∧ LiteralMeans (.litHi 0#7) 0x80 := by
  refine ⟨by decide, rfl, rfl⟩

theorem witness_CommandsDecodeFromTheirBytes :
    (Instr.encCompress [0x41#8]).wellFormed = true ∧ (Instr.encCompress [0x41#8]).context = .command ∧
    decode .command (encode (.encCompress [0x41#8])) = .ok (.encCompress [0x41#8], []) := by decide

theorem witness_DecodedPartsComeFromOneBitString :
    decodePart .lom (bits [1, 0, 1, 1, 1]) = some (.lomC2 3#2, [true]) := by decide

theorem witness_EveryHeadIsLegal : 19 ≤ (List.replicate 19 true).length := by decide

theorem witness_EmittedBitsFollowThePseudocode :
    1 ≤ (1 : Nat) ∧ (65533 : Nat) ≤ 65533 ∧ (8191 : Nat) ≤ 8191 ∧ 3 ≤ (3 : Nat) ∧ (65535 : Nat) ≤ 65535 ∧
    tokenBits (offsetForm .rfc2118 8191) = bits [1, 1, 0, 1, 1, 1, 1, 0, 1, 0, 1, 1, 1, 1, 1, 1] ∧
    tokenBits (offsetForm .rfc2118 319) = bits [1, 1, 1, 0, 1, 1, 1, 1, 1, 1, 1, 1] ∧
    tokenBits (offsetForm .doc 320) = bits [1, 1, 1, 0, 0, 0, 0, 0, 0, 0, 0, 0, 0, 0, 0] := by decide

/-- Idle units, with a command that has arrived and the one decoded from it. -/
theorem witness_StepRunsTheDecodedCommand :
    (sends State.reset .enc (.encInit .legacy)).inbox = [{ port := .enc, arrival := .whenIdle, bytes := [0x00#8, 0x00#8] }] ∧
    HostCommand.due { port := .enc, arrival := .whenIdle, bytes := [0x00#8, 0x00#8] }
      (sends State.reset .enc (.encInit .legacy)) = true ∧
    decodeCommand [0x00#8, 0x00#8] = .ok (.encInit .legacy) ∧
    (sends State.reset .enc (.encInit .legacy)).enc.busy = false := by decide

/-- A token head with nothing sent, and a length part with a transaction still to come. -/
theorem witness_StepRunsTheDecodedTokenPart :
    ((decoding .standard [] [0x41#8]).dec.busy = true ∧ (decoding .standard [] [0x41#8]).inbox = [] ∧
      (decoding .standard [] [0x41#8]).dec.part = .head ∧
      (decoding .standard [] [0x41#8]).dec.bitPos + 8 ≤ 8 * (decoding .standard [] [0x41#8]).dec.input.length ∧
      decodeHead .doc (bytesBits [0x41#8]) = some (.litLo 0x41#7, [])) ∧
    ((State.reset.withStream .lom [false]).dec.busy = true ∧ (State.reset.withStream .lom [false]).dec.part = .lom ∧
      HostCommand.due { port := .dec, arrival := .whenIdle, bytes := [] } (State.reset.withStream .lom [false]) = false ∧
      decodeLom ((bytesBits (State.reset.withStream .lom [false]).dec.input).drop 0) =
        some (.lom3, List.replicate 39 false)) := by decide

/-- One word for each clause: a misplaced bit of each kind, the wrong unit, a busy unit. -/
theorem witness_RefusalsInTheOrderOfTheTable :
    HostCommand.due { port := .enc, arrival := .after 0, bytes := [0x08#8, 0x00#8] } State.reset = true ∧
    (0x08#8).toNat / 8 ≠ 0 ∧ ((0x05#8).getLsbD 2 = true ∧ (0x05#8).getLsbD 0 = true) ∧
    (0x61#8 ≠ 0#8 ∧ (0x02#8).toNat % 4 ≠ 3) ∧ (0x06#8).getLsbD 1 = true ∧ (0x04#8).getLsbD 1 = false ∧
    (encoding .standard [0x41#8]).enc.busy = true ∧ (0x04#8).toNat / 8 = 0 := by decide

theorem witness_UnreadyUnitsRefuse :
    State.reset.enc.ready = false ∧ State.reset.dec.ready = false ∧ StatusLegal 0x12#8 :=
  ⟨rfl, rfl, .inr ⟨.lomCode, by decide⟩⟩

theorem witness_IdleMachineKeepsItsState :
    (machine (enc .standard) (dec .standard [0x41#8])).inbox = [] ∧
    (machine (enc .standard) (dec .standard [0x41#8])).enc.busy = false ∧
    (machine (enc .standard) (dec .standard [0x41#8])).dec.busy = false := by decide

theorem witness_OversizeChunkFallsBack :
    (enc .legacy).ready = true ∧ capacity (enc .legacy).profile < (List.replicate 8193 0#8).length := by
  refine ⟨rfl, ?_⟩
  rw [List.length_replicate]
  decide

theorem witness_ChunkIsLoadedBeforeTheScan :
    (enc .legacy).ready = true ∧ ([] : List Byte).length ≤ capacity (enc .legacy).profile ∧
    (List.replicate 8192 0#8).length ≤ capacity (enc .legacy).profile := by
  refine ⟨rfl, Nat.zero_le _, ?_⟩
  rw [List.length_replicate]
  decide

/-- 44 R298: a LEGACY encoder in ACTIVE with `CURSOR = 8000`, and chunks of 192 and 193 bytes. -/
def near : EncUnit := { enc .legacy with session := .active, hb := { cursor := 8000, mem := [] } }

theorem witness_CapacityCheckIsStrict :
    near.ready = true ∧ near.session = .active ∧
    (List.replicate 192 0#8).length ≤ capacity near.profile ∧ (List.replicate 193 0#8).length ≤ capacity near.profile ∧
    near.hb.cursor + (List.replicate 192 0#8).length = capacity near.profile ∧
    near.hb.cursor + (List.replicate 193 0#8).length = capacity near.profile + 1 := by
  simp only [List.length_replicate]
  decide

/-- The end of a scan, once where the stream is smaller and once where it is not (three bytes in 12 and in 24 bits). -/
def scanned (out : Bits) : State :=
  { encoding .standard [0x41#8, 0x41#8, 0x41#8] with
    enc := { (encoding .standard [0x41#8, 0x41#8, 0x41#8]).enc with pos := 3, out := out } }

theorem witness_ExpansionCheckAnswers :
    (∀ out, (scanned out).inbox = [] ∧ (scanned out).dec.busy = false ∧ (scanned out).enc.busy = true ∧
      (scanned out).enc.pos = (scanned out).enc.stop ∧ (scanned out).enc.out = out) ∧
    ceil8 (List.replicate 16 true).length < (scanned []).enc.chunk.length ∧
    (scanned []).enc.chunk.length ≤ ceil8 (List.replicate 17 true).length := by
  refine ⟨fun out => ⟨rfl, rfl, rfl, rfl, rfl⟩, by decide, by decide⟩

/-- The first position of "AAAAA": a literal turn, in the first two positions of the epoch and with an empty slot. -/
theorem witness_ScanNext : ScanNext (encoding .standard [0x41#8, 0x41#8, 0x41#8, 0x41#8, 0x41#8]) where
  inv := encoding_inv (by decide)
  noCommand := rfl
  decIdle := rfl
  encBusy := rfl
  left := by decide

theorem witness_ReferenceFinderLiteralTurn :
    ScanNext (encoding .standard [0x41#8, 0x41#8, 0x41#8, 0x41#8, 0x41#8]) ∧
    (encoding .standard [0x41#8, 0x41#8, 0x41#8, 0x41#8, 0x41#8]).params.finder = .reference ∧
    (encoding .standard [0x41#8, 0x41#8, 0x41#8, 0x41#8, 0x41#8]).enc.pos < 2 ∧
    (hist [0x41#8, 0x41#8, 0x41#8, 0x41#8, 0x41#8]).read 0 = some 0x41#8 ∧
    (hist [0x41#8, 0x41#8, 0x41#8, 0x41#8, 0x41#8]).read 1 = some 0x41#8 ∧
    (hist [0x41#8, 0x41#8, 0x41#8, 0x41#8, 0x41#8]).read 2 = some 0x41#8 :=
  ⟨witness_ScanNext, rfl, by decide, by decide, by decide, by decide⟩

/-- A scan of "aabcd" at position 2, with these slots. -/
def atTwo (slots : SlotTable) : State :=
  { encoding .standard [0x61#8, 0x61#8, 0x62#8, 0x63#8, 0x64#8] with
    enc := { (encoding .standard [0x61#8, 0x61#8, 0x62#8, 0x63#8, 0x64#8]).enc with pos := 2, slots := slots } }

theorem atTwo_scanNext {slots : SlotTable} (h : SlotsGood slots 5) (he : ∀ x ∈ slots, x.2 < 2) : ScanNext (atTwo slots) where
  inv := by
    have g := encoding_inv (p := .standard) (chunk := [0x61#8, 0x61#8, 0x62#8, 0x63#8, 0x64#8]) (by decide)
    have sc := g.enc.scan rfl
    exact ⟨⟨g.enc.hist, h, rfl, fun _ => ⟨rfl, rfl, rfl, rfl, sc.chunkBytes, Nat.zero_le _,
      show 2 ≤ 5 by decide, he, Nat.zero_le _⟩⟩, g.dec⟩
  noCommand := rfl
  decIdle := rfl
  encBusy := rfl
  left := show 2 < 5 by decide

/-- The clauses of an EMPTY slot and of a candidate whose bytes differ (index 0 stands in the slot of "bcd"). -/
theorem witness_ReferenceFinderLiteralTurn_late :
    ScanNext (atTwo []) ∧ ScanNext (atTwo [((hash16 Params.default.hash 0x62#8 0x63#8 0x64#8).toNat, 0)]) ∧
    (atTwo []).enc.pos + 3 ≤ (atTwo []).enc.stop ∧
    tableGet (atTwo []).enc.slots (hash16 Params.default.hash 0x62#8 0x63#8 0x64#8).toNat = none ∧
    tableGet (atTwo [((hash16 Params.default.hash 0x62#8 0x63#8 0x64#8).toNat, 0)]).enc.slots
      (hash16 Params.default.hash 0x62#8 0x63#8 0x64#8).toNat = some 0 ∧
    (hist [0x61#8, 0x61#8, 0x62#8, 0x63#8, 0x64#8]).read 0 ≠ (hist [0x61#8, 0x61#8, 0x62#8, 0x63#8, 0x64#8]).read 2 := by
  refine ⟨atTwo_scanNext (SlotsGood.empty 5) (by simp), atTwo_scanNext ⟨by simp [tableWf], ?_, by simp⟩ (by simp), by decide,
    by decide, by simp [atTwo, tableGet], by decide⟩
  simp only [List.mem_singleton, forall_eq]
  exact BitVec.isLt _

/-- The third position of "AAAAA", where the slot names position 1. -/
theorem witness_ReferenceFinderMatchTurn :
    ScanNext (turn (turn (encoding .standard [0x41#8, 0x41#8, 0x41#8, 0x41#8, 0x41#8]))) ∧
    (turn (turn (encoding .standard [0x41#8, 0x41#8, 0x41#8, 0x41#8, 0x41#8]))).enc.pos = 2 ∧
    (turn (turn (encoding .standard [0x41#8, 0x41#8, 0x41#8, 0x41#8, 0x41#8]))).enc.stop = 5 ∧
    tableGet (turn (turn (encoding .standard [0x41#8, 0x41#8, 0x41#8, 0x41#8, 0x41#8]))).enc.slots 0x69AA = some 1 := by
  refine ⟨⟨?_, rfl, rfl, by decide, by decide⟩, by decide, by decide, by decide⟩
  exact turn_inv (turn_inv (encoding_inv (by decide)) rfl (by decide)) (by decide) (by decide)

theorem witness_ReferenceFinderMatchTurn_bytes :
    HistBuf.hashAt (hist [0x41#8, 0x41#8, 0x41#8, 0x41#8, 0x41#8]) Params.default.hash 2 = some 0x69AA#16 ∧
    (turn (turn (encoding .standard [0x41#8, 0x41#8, 0x41#8, 0x41#8, 0x41#8]))).enc.hb =
      hist [0x41#8, 0x41#8, 0x41#8, 0x41#8, 0x41#8] ∧
    (hist [0x41#8, 0x41#8, 0x41#8, 0x41#8, 0x41#8]).agree 1 2 3 = some true := by decide

theorem witness_TailPositionIsALiteral :
    ScanNext (encoding .standard [0x41#8, 0x42#8]) ∧
    (encoding .standard [0x41#8, 0x42#8]).enc.stop < (encoding .standard [0x41#8, 0x42#8]).enc.pos + 3 ∧
    (encoding .standard [0x41#8, 0x42#8]).enc.hb.read 0 = some 0x41#8 :=
  ⟨⟨encoding_inv (by decide), rfl, rfl, rfl, by decide⟩, by decide, by decide⟩

theorem witness_OutBitsFitTwentyBits :
    Inv (encoding .standard [0x41#8]) ∧ (encoding .standard [0x41#8]).enc.busy = true ∧
    ∃ t, step (encoding .standard [0x41#8]) = .next t :=
  ⟨encoding_inv (by decide), rfl, _, rfl⟩

theorem idle_inv (p : Profile) {bytes : List Byte} (h : bytes.length ≤ capacity p) : Inv (machine (enc p) (dec p bytes)) :=
  ⟨enc_good p, dec_good h⟩

theorem witness_ShortChunksFallBack :
    Inv (machine (enc .standard) (dec .standard [])) ∧ (enc .standard).ready = true ∧ (enc .standard).busy = false ∧
    (dec .standard []).busy = false ∧ ([] : List Byte).length ≤ 2 ∧ [0x41#8, 0x42#8].length ≤ 2 :=
  ⟨idle_inv _ (by decide), rfl, rfl, rfl, by decide, by decide⟩

theorem witness_LiteralAppendsItsByte :
    LiteralMeans (.litHi 0x7F#7) 0xFF ∧ (8191 : Nat) < capacity .legacy ∧ (dec .legacy []).hb.cursor < capacity .legacy :=
  ⟨rfl, by decide, by decide⟩

theorem witness_LiteralAtCapacityOverflows : LiteralMeans (.litLo 0#7) 0 ∧ capacity .legacy ≤ 8192 := ⟨rfl, by decide⟩

theorem witness_OffsetPartsWriteTheOffset :
    OffsetMeans (.matchO6 0#6) 0 ∧ OffsetMeans (.matchO8 0#8) 64 ∧ OffsetMeans (.matchO16 0xFFFF#16) 67903 ∧
    OffsetMeans (.matchO13L 0x1FFF#13) 8511 := ⟨rfl, rfl, rfl, rfl⟩

/-- The least operands in range, and the copy that just fills CAPACITY. -/
theorem witness_LengthPartsCopyTheMatch :
    LengthMeans .lom3 3 ∧ LengthMeans (.lomC15 0x7FFF#15) 65535 ∧
    (dec .legacy [0x41#8]).hb.Good (capacity .legacy) ∧ 1 ≤ (dec .legacy [0x41#8]).hb.cursor ∧
    (dec .legacy [0x41#8]).hb.cursor + 3 ≤ capacity .legacy ∧ 8189 + 3 ≤ capacity .legacy :=
  ⟨rfl, rfl, (dec_good (by decide)).hist, by decide, by decide, by decide⟩

/-- A decoder of the RFC2118 code whose OFF13_L offset is 8192 at a `CURSOR` of 8192. -/
def atTop (s : State) : State :=
  { s with
    params := { s.params with legacyOffsetCode := .rfc2118 }
    dec := { dec .legacy [] with busy := true, part := .lom, off := 8192, hb := { cursor := 8192, mem := [] } } }

theorem witness_MatchErrorsInOrder :
    LengthMeans (.lomC2 0#2) 4 ∧ (dec .legacy []).off = 0 ∧ (1 : Nat) ≠ 0 ∧ (dec .legacy []).hb.cursor < 1 ∧
    ((1 : Nat) ≤ 8190 ∧ capacity .legacy < 8190 + 4 ∧ offsetCodeOf Params.default .legacy = .doc ∧ (8191 : Nat) ≤ 8191) ∧
    ((atTop State.reset).dec.off ≤ (atTop State.reset).dec.hb.cursor ∧
      capacity (atTop State.reset).dec.profile < (atTop State.reset).dec.hb.cursor + 4 ∧
      offsetCodeOf (atTop State.reset).params (atTop State.reset).dec.profile = .rfc2118 ∧
      8191 < (atTop State.reset).dec.off) :=
  ⟨rfl, rfl, by decide, by decide, by decide, by decide⟩

theorem witness_MatchTokenCopiesFromItsOffset :
    OffsetMeans (.matchO6 1#6) 1 ∧ LengthMeans .lom3 3 ∧ (dec .standard [0x41#8]).hb.Good (capacity .standard) ∧
    1 ≤ (dec .standard [0x41#8]).hb.cursor ∧ (dec .standard [0x41#8]).hb.cursor + 3 ≤ capacity .standard :=
  ⟨rfl, rfl, (dec_good (by decide)).hist, by decide, by decide⟩

theorem witness_DistanceOneRepeatsTheLastByte :
    LengthMeans (.lomC2 3#2) 7 ∧ (dec .standard [0x41#8]).hb.Good (capacity .standard) ∧
    tableGet (dec .standard [0x41#8]).hb.mem ((dec .standard [0x41#8]).hb.cursor - 1) = some 0x41#8 :=
  ⟨rfl, (dec_good (by decide)).hist, by decide⟩

/-- A decoder whose next part is a length of match, all its bits read. -/
def lengthDue : State :=
  { decoding .standard [0x41#8] [0x80#8] with
    dec := { (decoding .standard [0x41#8] [0x80#8]).dec with part := .lom, bitPos := 8 } }

/-- DEC-3: LIT.HI with 8 of its 9 bits; and a decoder at a length part of which nothing is left. -/
theorem witness_TruncatedTokenRaises :
    (DecodeNext (decoding .standard [] [0x80#8]) ∧ (decoding .standard [] [0x80#8]).dec.part = .head ∧
      tokenBits (.litHi 0#7) = (bytesBits [0x80#8]).drop 0 ++ [false] ∧ LiteralMeans (.litHi 0#7) 0x80) ∧
    (DecodeNext lengthDue ∧ lengthDue.dec.part = .lom ∧ Instr.context (.lomC2 0#2) = .lom ∧
      tokenBits (.lomC2 0#2) = (bytesBits lengthDue.dec.input).drop lengthDue.dec.bitPos ++ bits [1, 0, 0, 0]) ∧
    Instr.context (.matchO6 0#6) = .head (offsetCodeOf Params.default .standard) :=
  ⟨⟨⟨rfl, rfl⟩, rfl, by decide, rfl⟩, ⟨⟨rfl, rfl⟩, rfl, rfl, by decide⟩, rfl⟩

/-- At a LEGACY `CURSOR` of 8192 the document's code overflows with the offset 8192 (43 R246), and the offsets 8193 and 8511, the
last of OFF13_L, are beyond it (30 R104). -/
theorem test_execMatch_top_offsets :
    answerAfter (exec .lom3 (machine (enc .legacy)
      { dec .legacy [] with busy := true, part := .lom, off := 8192, hb := { cursor := 8192, mem := [] } })) = some [0x09#8] ∧
    answerAfter (exec .lom3 (machine (enc .legacy)
      { dec .legacy [] with busy := true, part := .lom, off := 8193, hb := { cursor := 8192, mem := [] } })) = some [0x0E#8] ∧
    answerAfter (exec .lom3 (machine (enc .legacy)
      { dec .legacy [] with busy := true, part := .lom, off := 8511, hb := { cursor := 8192, mem := [] } })) = some [0x0E#8] := by
  decide

/-- There 30 R104 gives OFFSET_BEYOND_CURSOR and 43 R246 gives Overflow(DEC_MATCH); the model leaves it open (log 27). -/
theorem test_execMatch_open_offset :
    answerAfter (exec .lom3 (atTop State.reset)) = some (if Config.offsetAbove8191Fails then [0x0E#8] else [0x09#8]) := by
  have h : exec .lom3 (atTop State.reset) = executeMatch 3 (atTop State.reset) := rfl
  have hb : (atTop State.reset).offsetBeyond = Config.offsetAbove8191Fails := by
    show (false || (true && Config.offsetAbove8191Fails)) = _
    simp
  rw [h]
  cases hc : Config.offsetAbove8191Fails <;> rw [hc] at hb
  · rw [executeMatch_error (e := .overflowMatch) (by simp only [State.matchError, hb]; decide)]
    decide
  · rw [executeMatch_error (e := .offsetBeyondCursor) (by simp only [State.matchError, hb]; decide)]
    decide

/-- An empty payload, and seven bits left of one byte. -/
theorem witness_StreamEndsInsideTheLastByte :
    Inv (decoding .standard [0x41#8] []) ∧ DecodeNext (decoding .standard [0x41#8] []) ∧
    (decoding .standard [0x41#8] []).dec.part = .head ∧
    8 * (decoding .standard [0x41#8] []).dec.input.length < (decoding .standard [0x41#8] []).dec.bitPos + 8 ∧
    8 * [0x41#8].length < 1 + 8 := by
  refine ⟨decoding_inv (by decide) (by decide), ⟨rfl, rfl⟩, rfl, by decide, by decide⟩

/-- A ready decoder without a fault, and FLAGS of each class, at the bounds of each. -/
theorem witness_packets :
    (dec .standard []).ready = true ∧ statusCode (dec .standard []).status = 0#2 ∧
    (0x1F#8).toNat < 0x20 ∧
    (0x20 ≤ (0x20#8).toNat ∧ (0x20#8).toNat % 16 ≠ 1 ∧ (0xFF#8).toNat % 16 ≠ 1) ∧
    (0x80 ≤ (0x81#8).toNat ∧ (0x81#8).toNat % 16 = 1 ∧ (0xF1#8).toNat % 16 = 1) ∧
    ((0x41#8).toNat / 32 = 2 ∧ (0x41#8).toNat % 16 = 1) ∧
    ((0x21#8).toNat / 32 = 1 ∧ (0x61#8).toNat / 32 = 3 ∧ (0x61#8).toNat % 16 = 1) ∧
    ([] : List Byte).length ≤ capacity .standard := by decide

theorem witness_FlushedPacketIsFoldedIntoHistory :
    (List.replicate 8192 0#8).length ≤ capacity .legacy ∧ capacity .legacy < (List.replicate 8193 0#8).length := by
  simp only [List.length_replicate]
  decide

/-- A faulted decoder. -/
def faulted : DecUnit := { dec .standard [] with status := 0x06#8, faultPos := 8#35 }

theorem witness_FaultedDecoderAnswersItsStatus : faulted.ready = true ∧ statusCode faulted.status ≠ 0#2 := by decide

theorem witness_StepKeepsTheInvariant :
    Inv (decoding .standard [] [0x41#8]) ∧ ∃ t, step (decoding .standard [] [0x41#8]) = .next t :=
  ⟨decoding_inv (by decide) (by decide), _, rfl⟩

theorem witness_EveryInstructionCompletes :
    Inv (decoding .standard [] [0x41#8]) ∧ (Instr.litLo 0x41#7).wellFormed = true ∧
    (Instr.encCompress []).wellFormed = true := ⟨decoding_inv (by decide) (by decide), rfl, by decide⟩

theorem witness_UnitsShareNoState :
    (∃ t, exec (.encInit .legacy) State.reset = .next t) ∧ ∃ t, exec (.decInit .legacy) State.reset = .next t :=
  ⟨⟨_, rfl⟩, _, rfl⟩

/-- A faulted, idle decoder that is left alone, and one that DEC_INIT returns. -/
theorem witness_OnlyDecInitClearsAFault :
    faulted.busy = false ∧ statusCode faulted.status ≠ 0#2 ∧
    (∃ t, step (machine (enc .standard) faulted) = .next t) ∧
    answerAfter (step (sends (machine (enc .standard) faulted) .dec (.decInit .standard))) = some [0x00#8] :=
  ⟨rfl, by decide, ⟨_, rfl⟩, by decide⟩

theorem witness_EveryPacketEnds :
    Inv (decoding .standard [] [0x41#8]) ∧ (decoding .standard [] [0x41#8]).inbox = [] ∧
    (decoding .standard [] [0x41#8]).dec.busy = true := ⟨decoding_inv (by decide) (by decide), rfl, rfl⟩

theorem witness_EveryChunkEnds :
    Inv (encoding .standard [0x41#8]) ∧ (encoding .standard [0x41#8]).inbox = [] ∧
    (encoding .standard [0x41#8]).dec.busy = false ∧ (encoding .standard [0x41#8]).enc.busy = true :=
  ⟨encoding_inv (by decide), rfl, rfl, rfl⟩

theorem witness_LockStepRoundTrip :
    Inv (machine (enc .standard) (dec .standard [])) ∧ LockStep (machine (enc .standard) (dec .standard [])) ∧
    [0x41#8].length < 2 ^ 32 :=
  ⟨idle_inv _ (by decide), ⟨rfl, rfl, rfl, rfl, rfl, rfl, fun h => by cases h⟩, by decide⟩

/-- Lock-step in ACTIVE: both ends hold the same two bytes. -/
theorem witness_LockStepRoundTrip_active :
    LockStep (machine { enc .standard with session := .active, hb := hist [0x41#8, 0x42#8] }
      (dec .standard [0x41#8, 0x42#8])) :=
  ⟨rfl, rfl, rfl, rfl, rfl, rfl, fun _ => ⟨rfl, fun _ => rfl⟩⟩

theorem witness_FreshEncodersAnswerAlike :
    Inv (machine (enc .legacy) (dec .standard [0x41#8])) ∧ Inv (machine (enc .standard) (dec .standard [])) ∧
    (machine (enc .legacy) (dec .standard [0x41#8])).params = (machine (enc .standard) (dec .standard [])).params ∧
    (machine (enc .standard) (dec .standard [])).params.finder = .reference ∧ [0x41#8].length < 2 ^ 32 ∧
    (machine (enc .legacy) (dec .standard [0x41#8])).enc.busy = false :=
  ⟨⟨enc_good _, dec_good (by decide)⟩, idle_inv _ (by decide), rfl, rfl, by decide, rfl⟩

end Sys2Proof.Tests
end

section
/-! What each host command leaves unchanged, from which O50 follows: the other unit, the parameters and the inbox
(00 R4, R9, 60 R338). -/

namespace Sys2Proof.Machine

/-- The parameters (log 15) and the host's queue of transactions (log 4) are as they were. -/
structure State.SameParamsInbox (s t : State) : Prop where
  params : t.params = s.params
  inbox : t.inbox = s.inbox

/-! ### The encoder's commands -/

/-- ENC_INIT leaves the decoder, the parameters and the inbox (44 R271). -/
theorem execEncInit_frame {p : Profile} {s t : State} (h : execEncInit p s = .next t) :
    t.dec = s.dec ∧ s.SameParamsInbox t := by
  cases h
  exact ⟨rfl, rfl, rfl⟩

/-- ENC_COMPRESS leaves the decoder, the parameters and the inbox, whether it is refused, falls back or loads its chunk
(44 R273 to R278). -/
theorem execEncCompress_frame {chunk : List Byte} {s t : State} (h : execEncCompress chunk s = .next t) :
    t.dec = s.dec ∧ s.SameParamsInbox t := by
  unfold execEncCompress at h
  split at h
  case isTrue notReady =>
    cases h
    exact ⟨State.refuse_dec .., State.refuse_params .., State.refuse_inbox ..⟩
  case isFalse ready =>
    split at h <;> cases h
    case isTrue oversize =>
      exact ⟨State.encFallback_dec .., State.encFallback_params .., State.encFallback_inbox ..⟩
    case isFalse fits => exact ⟨rfl, rfl, rfl⟩

/-! ### The decoder's commands -/

/-- A packet taken in, FLUSHED, uncompressed or opened as a stream, leaves the parameters and the inbox
(44 R285 to R288). -/
theorem State.decPacket_sameParamsInbox (s : State) (flags : Byte) (payload : List Byte) :
    s.SameParamsInbox (s.decPacket flags payload) := by
  unfold State.decPacket
  split
  case isTrue flushed => exact ⟨rfl, rfl⟩
  case isFalse notFlushed => split <;> exact ⟨rfl, rfl⟩

/-- DEC_DECOMPRESS leaves the parameters and the inbox on each of its five ways: not ready, faulted, plain, another
profile's packet, or a packet taken in (44 R282 to R288). -/
theorem execDecDecompress_sameParamsInbox {flags : Byte} {payload : List Byte} {s t : State}
    (h : execDecDecompress flags payload s = .next t) : s.SameParamsInbox t := by
  unfold execDecDecompress at h
  split_ifs at h with notReady faulted plain mismatch <;> cases h
  · exact ⟨State.refuse_params .., State.refuse_inbox ..⟩
  · exact ⟨State.reply_params .., State.reply_inbox ..⟩
  · exact ⟨State.reply_params .., State.reply_inbox ..⟩
  · exact ⟨State.raise_params .., State.raise_inbox ..⟩
  · exact s.decPacket_sameParamsInbox flags payload

/-! ### Every instruction -/

/-- No host command changes the parameters or the inbox. -/
theorem exec_command_sameParamsInbox {s t : State} {i : Instr} (hi : i.context = .command) (h : exec i s = .next t) :
    s.SameParamsInbox t :=
  match i, hi with
  | .encInit _, _ => (execEncInit_frame h).2
  | .encCompress _, _ => (execEncCompress_frame h).2
  | .decInit _, _ => by cases h; exact ⟨rfl, rfl⟩
  | .decDecompress _ _, _ => execDecDecompress_sameParamsInbox h

/-- No instruction changes the parameters or the inbox: a token part changes the decoder and the outbox alone. -/
theorem exec_sameParamsInbox {s t : State} {i : Instr} (h : exec i s = .next t) : s.SameParamsInbox t := by
  by_cases hi : i.context = .command
  · exact exec_command_sameParamsInbox hi h
  · have part := exec_part_effect hi h
    exact ⟨part.params, part.inbox⟩

/-- An encoder's command leaves the decoder as it was (60 R338). -/
theorem exec_enc_dec {s t : State} {i : Instr} (hi : (∃ p, i = .encInit p) ∨ ∃ chunk, i = .encCompress chunk)
    (h : exec i s = .next t) : t.dec = s.dec := by
  obtain ⟨p, rfl⟩ | ⟨chunk, rfl⟩ := hi
  · exact (execEncInit_frame h).1
  · exact (execEncCompress_frame h).1

/-- Settles O50: the parameters and the inbox from the frame of every instruction, the decoder from the frames of the two
ENC commands, the encoder from the frame of every instruction that is not the encoder's. -/
theorem unitsShareNoState : Obligations.UnitsShareNoState := by
  intro s t i h
  obtain ⟨hparams, hinbox⟩ := exec_sameParamsInbox h
  exact ⟨hparams, hinbox, fun henc => exec_enc_dec henc h, fun hinit hcompress => exec_notEnc ⟨hinit, hcompress⟩ h⟩

end Sys2Proof.Machine
end

section
/-! The invariant: the state after power-on meets it, every well-formed instruction completes from a good state and leaves a
good one, and so does every step (O46, O47). With it, what power-on says of the units (O12). -/

namespace Sys2Proof.Machine

/-! ### Power-on -/

/-- Settles O12: the fields of the reset state, as 10 R54 and the model's log give them. -/
theorem powerOnIsNotReady : Obligations.PowerOnIsNotReady :=
  ⟨rfl, rfl, rfl, rfl, rfl, rfl⟩

/-- A History Buffer that holds nothing is in order, with any capacity. -/
theorem HistBuf.Good.empty (cap : Nat) : HistBuf.Good { cursor := 0, mem := [] } cap where
  wf := List.Pairwise.nil
  filled i hi := absurd hi (Nat.not_lt_zero i)
  bounded _ hx := absurd hx List.not_mem_nil
  fits := Nat.zero_le cap

/-- The encoder after power-on is in order: empty, and running nothing. -/
theorem EncUnit.powerOn_good : EncUnit.powerOn.Good where
  hist := HistBuf.Good.empty _
  slots := SlotsGood.empty _
  status := rfl
  scan running := nomatch running

/-- The decoder after power-on is in order: empty, without a fault, and running nothing. -/
theorem DecUnit.powerOn_good : DecUnit.powerOn.Good where
  hist := HistBuf.Good.empty _
  status := .inl rfl
  faultPos _ := rfl
  off := Nat.zero_le _
  len := Nat.zero_le _
  stream running := nomatch running

/-- Settles O46: both units are in order after power-on. -/
theorem powerOnMeetsTheInvariant : Obligations.PowerOnMeetsTheInvariant :=
  ⟨EncUnit.powerOn_good, DecUnit.powerOn_good⟩

/-! ### The token parts -/

/-- The largest value a based field of `w` bits can have. -/
theorem based_le {w base max : Nat} (v : BitVec w) (h : base + 2 ^ w ≤ max + 1) : based base v ≤ max :=
  Nat.le_of_lt_succ (Nat.lt_of_lt_of_le (based_lt base v) h)

/-- A token part completes from a good state and leaves a good one: a literal, an offset of at most `2368 + 65535`, a match
of at most `32768 + 32767` bytes, or the reserved code's error (43 R234 to R249). -/
theorem exec_part_inv {s : State} {i : Instr} (hi : i.context ≠ .command) (g : Inv s) :
    ∃ t, exec i s = .next t ∧ Inv t :=
  match i, hi with
  | .litLo _, _ | .litHi _, _ => decodeLiteral_inv _ g
  | .matchO6 _, _ | .matchO8 _, _ | .matchO11 _, _ | .matchO16 _, _
  | .matchO6L _, _ | .matchO8L _, _ | .matchO13L _, _ => takeOffset_inv (based_le _ (by decide)) g
  | .lom3, _ => executeMatch_inv (by decide) g
  | .lomC2 _, _ | .lomC3 _, _ | .lomC4 _, _ | .lomC5 _, _ | .lomC6 _, _ | .lomC7 _, _ | .lomC8 _, _ | .lomC9 _, _
  | .lomC10 _, _ | .lomC11 _, _ | .lomC12 _, _ | .lomC13 _, _ | .lomC14 _, _ | .lomC15 _, _ =>
    executeMatch_inv (based_le _ (by decide)) g
  | .lomReserved, _ => ⟨_, rfl, g.enc, g.dec.raised _ _⟩
  | .encInit _, hi | .encCompress _, hi | .decInit _, hi | .decDecompress _ _, hi => absurd rfl hi

/-! ### The commands -/

/-- ENC_COMPRESS from a good state: refused, answered with the fallback, or its scan begun (44 R273 to R278). -/
theorem execEncCompress_inv {s : State} (chunk : List Byte) (g : Inv s) :
    ∃ t, execEncCompress chunk s = .next t ∧ Inv t := by
  unfold execEncCompress
  split_ifs with notReady oversize
  · exact ⟨_, rfl, g.enc, g.dec⟩
  · exact ⟨_, rfl, g.enc.fallback, g.dec⟩
  · exact ⟨_, rfl, g.enc.load (by simpa using notReady) (by omega), g.dec⟩

/-- A packet taken in leaves the encoder as it was (60 R338). -/
theorem State.decPacket_enc (s : State) (flags : Byte) (payload : List Byte) :
    (s.decPacket flags payload).enc = s.enc := by
  unfold State.decPacket
  split
  case isTrue flushed => rfl
  case isFalse notFlushed => split <;> rfl

/-- DEC_DECOMPRESS of a payload that fits `LEN`, from a good state: refused, answered with the STATUS byte, passed through,
a ProfileMismatch, or the packet taken in (44 R282 to R289). -/
theorem execDecDecompress_inv {s : State} (flags : Byte) {payload : List Byte} (hlen : payload.length < 2 ^ 32)
    (g : Inv s) : ∃ t, execDecDecompress flags payload s = .next t ∧ Inv t := by
  unfold execDecDecompress
  split_ifs with notReady faulted plain mismatch
  · exact ⟨_, rfl, g.enc, g.dec⟩
  · exact ⟨_, rfl, g.enc, g.dec⟩
  · exact ⟨_, rfl, g.enc, g.dec⟩
  · exact ⟨_, rfl, g.enc, g.dec.raised _ _⟩
  · have noFault : s.dec.status = 0#8 := g.dec.status.zero_of_code (Decidable.not_not.mp faulted)
    have enc : (s.decPacket flags payload).enc.Good := s.decPacket_enc flags payload ▸ g.enc
    exact ⟨_, rfl, enc, decPacket_good g.dec flags (by simpa using notReady) noFault hlen⟩

/-! ### Every instruction and every step -/

/-- Every well-formed instruction completes from a good state and leaves a good one. -/
theorem exec_inv {s : State} {i : Instr} (hi : i.wellFormed = true) (g : Inv s) : ∃ t, exec i s = .next t ∧ Inv t := by
  by_cases command : i.context = .command
  · match i, command with
    | .encInit p, _ => exact ⟨_, rfl, g.enc.init p, g.dec⟩
    | .encCompress chunk, _ => exact execEncCompress_inv chunk g
    | .decInit p, _ => exact ⟨_, rfl, g.enc, g.dec.init p⟩
    | .decDecompress flags payload, _ => exact execDecDecompress_inv flags (of_decide_eq_true hi) g
  · exact exec_part_inv command g

/-- A step from a good state completes and leaves a good one, or refuses a transaction that is not a whole command. -/
theorem step_good {s : State} (g : Inv s) :
    (∃ t, step s = .next t ∧ Inv t) ∨ step s = .refused .brokenTransaction := by
  have fetched := State.fetch_good g
  unfold step
  cases hf : s.fetch with
  | run i u =>
    rw [hf] at fetched
    obtain ⟨wellFormed, inv⟩ := fetched
    exact .inl (exec_inv wellFormed inv)
  | settle o =>
    rw [hf] at fetched
    exact fetched

/-- Settles O47: a step that answers a next state answers the good one of `step_good`. -/
theorem stepKeepsTheInvariant : Obligations.StepKeepsTheInvariant := by
  intro s t g h
  obtain ⟨u, hu, inv⟩ | refused := step_good g
  · cases h.symm.trans hu
    exact inv
  · cases h.symm.trans refused

end Sys2Proof.Machine
end

section
/-! The bit counter of a running ENC_COMPRESS, from which O28 follows: at most nine bits for each byte covered, so 20 bits
hold the count of any chunk (10 R50). -/

namespace Sys2Proof.Machine

/-- A turn of the scan spends at most nine bits for each byte it moves over: a literal has at most 9, and a match's length
part leaves room for an offset part of 19 (10 R50, 42 R202, R205, R206). -/
theorem EncUnit.Emits.bits_le {params : Params} {e e' : EncUnit} (emits : e.Emits params e') :
    e'.out.length + 9 * e.pos ≤ e.out.length + 9 * e'.pos := by
  cases emits with
  | literal c _ out pos _ =>
    have literalBits := literalForm_width c
    rw [out, pos, List.length_append, tokenBits_length]
    omega
  | copy off len _ _ _ long _ out pos _ _ =>
    have offsetBits := offsetForm_width (offsetCodeOf params e.profile) off
    have lengthBits := lengthForm_width len long
    rw [out, pos, List.length_append, List.length_append, tokenBits_length, tokenBits_length]
    omega

/-- The output of a good running encoder fits the 20-bit counter: nine bits for each of at most 65536 bytes (10 R50). -/
theorem EncUnit.Good.out_length_lt {e : EncUnit} (g : e.Good) (running : e.busy = true) : e.out.length < 2 ^ 20 := by
  have scan := g.scan running
  have bits := scan.outBits
  have inside := scan.high
  have atEnd := scan.atEnd
  have fits := g.hist.fits
  have cap := capacity_le e.profile
  omega

/-- The end of an ENC_COMPRESS leaves the output and the scan position, whichever answer it gives (log 23). -/
theorem State.encFinish_out_pos (s : State) :
    s.encFinish.enc.out = s.enc.out ∧ s.encFinish.enc.pos = s.enc.pos := by
  unfold State.encFinish
  split <;> exact ⟨rfl, rfl⟩

/-- A running encoder's next move emits a token and leaves it good and running, or ends the command with the output and
the position as they were (41 R181, 44 R278 to R280). -/
theorem encAdvance_emits {s t : State} (g : s.enc.Good) (running : s.enc.busy = true) (h : encAdvance s = .next t) :
    (s.enc.Emits s.params t.enc ∧ t.enc.Good ∧ t.enc.busy = true) ∨
      (t.enc.out = s.enc.out ∧ t.enc.pos = s.enc.pos) := by
  unfold encAdvance at h
  split_ifs at h with left
  · obtain ⟨e', scanned, same, emits, good, _⟩ := EncUnit.scanOne_spec s.params g running left
    rw [scanned] at h
    cases h
    exact .inl ⟨emits, good, same.busy.trans running⟩
  · cases h
    exact .inr s.encFinish_out_pos

/-- A running encoder's next move keeps the bit counter in its 20 bits and spends at most nine bits for each byte. -/
theorem encAdvance_bits {s t : State} (g : s.enc.Good) (running : s.enc.busy = true) (h : encAdvance s = .next t) :
    t.enc.out.length < 2 ^ 20 ∧ t.enc.out.length + 9 * s.enc.pos ≤ s.enc.out.length + 9 * t.enc.pos := by
  obtain ⟨emits, good, stillRunning⟩ | ⟨hout, hpos⟩ := encAdvance_emits g running h
  · exact ⟨good.out_length_lt stillRunning, emits.bits_le⟩
  · rw [hout, hpos]
    exact ⟨g.out_length_lt running, Nat.le_refl _⟩

/-- Settles O28: a step leaves a running encoder as it was, or is its next move. -/
theorem outBitsFitTwentyBits : Obligations.OutBitsFitTwentyBits := by
  intro s t g running h
  obtain kept | ⟨inbox, moved⟩ := step_running_enc running h
  · rw [kept]
    exact ⟨g.enc.out_length_lt running, Nat.le_refl _⟩
  · exact encAdvance_bits (s := { s with inbox := inbox }) g.enc running moved

end Sys2Proof.Machine
end

section
/-! A step from a good state makes no stale read (O48), and two encoders that were given the same ENC_INIT answer a chunk
alike (O55): with an emptied history the load leaves them as encoders that no scan can tell apart, and every turn of the
reference finder keeps them so until they answer. -/

namespace Sys2Proof.Machine

open Claims

/-- Settles O48: a step from a good state completes or refuses a broken transaction, and a fault is neither. -/
theorem goodStatesNeverFault : Obligations.GoodStatesNeverFault :=
  fun _ good => (step_good good).imp_left fun ⟨t, next, _⟩ => ⟨t, next⟩

/-! ### The encoder's commands, sent and taken -/

/-- A word that is decoded has no bit set that must be 0 (30 R112). -/
theorem wordOk_of_decodeCommand {lo hi : Byte} {rest : List Byte} {i : Instr}
    (decoded : decodeCommand (lo :: hi :: rest) = .ok i) : wordOk lo hi = true := by
  by_contra reserved
  simp [decodeCommand, reserved] at decoded

/-- A whole command that arrives at its own idle unit is run (30 R112, 60 R330). -/
theorem State.receive_run {s : State} {c : HostCommand} {i : Instr} {lo hi : Byte} {rest : List Byte}
    (bytes : c.bytes = lo :: hi :: rest) (decoded : decodeCommand (lo :: hi :: rest) = .ok i)
    (here : portOf (opOf lo) = c.port) (idle : s.busy c.port = false) : s.receive c = .run i s := by
  simp [State.receive, bytes, wordOk_of_decodeCommand decoded, here, idle, decoded]

/-- A command sent to its own idle unit, and decoded as it was encoded, is run by the next step (30 R112, log 4). -/
theorem step_sends {s : State} {port : Port} {i : Instr} {lo hi : Byte} {rest : List Byte}
    (bytes : encode i = lo :: hi :: rest) (decoded : decodeCommand (lo :: hi :: rest) = .ok i)
    (here : portOf (opOf lo) = port) (idle : s.busy port = false) :
    step (sends s port i) = exec i { s with inbox := [] } := by
  have due : HostCommand.due ⟨port, .whenIdle, encode i⟩ (sends s port i) = true :=
    congrArg Bool.not (show (sends s port i).busy port = false from idle)
  have taken : State.receive { sends s port i with inbox := [] } ⟨port, .whenIdle, encode i⟩ =
      .run i { s with inbox := [] } := State.receive_run bytes decoded here idle
  rw [step_receive rfl due, taken]

/-- An idle encoder that is sent ENC_INIT runs it (44 R271). -/
theorem step_sends_encInit {s : State} (p : Profile) (idle : s.enc.busy = false) :
    step (sends s .enc (.encInit p)) = execEncInit p { s with inbox := [] } :=
  step_sends (lo := if p.code then 0x04#8 else 0x00#8) (hi := 0x00#8) (rest := [])
    (by cases p <;> rfl) (by cases p <;> rfl) (by cases p <;> rfl) idle

/-- An idle encoder that is sent a chunk that fits `LEN` runs ENC_COMPRESS on it (30 R113, 44 R281). -/
theorem step_sends_encCompress {s : State} {chunk : List Byte} (fits : chunk.length < 2 ^ 32)
    (idle : s.enc.busy = false) :
    step (sends s .enc (.encCompress chunk)) = execEncCompress chunk { s with inbox := [] } := by
  have decoded : decodeCommand (0x01#8 :: 0x00#8 :: (le32 chunk.length ++ chunk)) = .ok (.encCompress chunk) := by
    have operands : decodeOperands 0x01#8 0x00#8 (le32 chunk.length ++ chunk) = some (.encCompress chunk) :=
      congrArg (Option.map Instr.encCompress) (payloadOf_le32 fits)
    simp only [decodeCommand, operands]
    rfl
  have word : le16 0x0001#16 = [0x01#8, 0x00#8] := by decide
  exact step_sends (congrArg (· ++ (le32 chunk.length ++ chunk)) word) decoded rfl idle

/-! ### What a machine left alone answers -/

/-- One step reaches its next state. -/
theorem reaches_of_step {s t : State} (h : step s = .next t) : Reaches s t :=
  ⟨1, 1, Nat.le_refl 1, run_succ h rfl⟩

/-- A state reached after one step is reached. -/
theorem reaches_after_step {s t u : State} (h : step s = .next t) (r : Reaches t u) : Reaches s u := by
  obtain ⟨n, k, _, run⟩ := r
  exact ⟨k + 1, k + 1, Nat.le_refl _, run_succ h run⟩

/-- The machine, left alone, reaches an idle encoder that has answered these bytes. -/
def State.Answers (s : State) (bytes : List Byte) : Prop :=
  ∃ t, Reaches s t ∧ t.enc.busy = false ∧ t.outbox = answered s .enc bytes

/-- The step that answers. -/
theorem State.Answers.of_step {s t : State} {bytes : List Byte} (h : step s = .next t) (idle : t.enc.busy = false)
    (out : t.outbox = answered s .enc bytes) : s.Answers bytes :=
  ⟨t, reaches_of_step h, idle, out⟩

/-- A step that answers nothing leaves the answer to the state after it. -/
theorem State.Answers.after_step {s t : State} {bytes : List Byte} (h : step s = .next t) (quiet : t.outbox = s.outbox)
    (a : t.Answers bytes) : s.Answers bytes := by
  obtain ⟨u, reached, idle, out⟩ := a
  refine ⟨u, reaches_after_step h reached, idle, ?_⟩
  rw [out, answered, answered, quiet]

/-- Two machines answer one byte string. -/
def State.AnswersAlike (s t : State) : Prop :=
  ∃ bytes, s.Answers bytes ∧ t.Answers bytes

/-! ### Encoders that no scan can tell apart -/

/-- The response that ends a scan: the fallback, or the compressed result (44 R279, R280). -/
def EncUnit.finalReply (e : EncUnit) : List Byte :=
  if ceil8 e.out.length ≥ e.chunk.length then compressReply (flagsOfFallback e.profile) e.chunk
  else compressReply (flagsOfCompressed e.atFront e.profile) (packBits e.out)

/-- The end of a scan answers its final response and leaves the encoder idle. -/
theorem State.encFinish_answers (s : State) :
    s.encFinish.enc.busy = false ∧ s.encFinish.outbox = answered s .enc s.enc.finalReply := by
  unfold State.encFinish EncUnit.finalReply
  split <;> exact ⟨rfl, rfl⟩

/-- Encoders that no scan can tell apart end with the same response. -/
theorem EncUnit.Alike.finalReply {e f : EncUnit} (h : e.Alike f) : f.finalReply = e.finalReply := by
  simp only [EncUnit.finalReply, h.out, h.chunk, h.profile, h.atFront]

/-- A History Buffer that was reset reads the bytes appended since, whatever it held before (40 R152, 20 R73). -/
@[simp] theorem HistBuf.read_reset_pushAll (h : HistBuf) (bytes : List Byte) (i : Nat) :
    (h.reset.pushAll bytes).read i = bytes[i]? := by
  rw [HistBuf.read, HistBuf.pushAll_cursor, HistBuf.pushAll_get, HistBuf.reset_cursor, Nat.zero_add]
  split
  case isTrue inside => rw [if_pos ⟨Nat.zero_le i, inside⟩, Nat.sub_zero]
  case isFalse outside => exact (List.getElem?_eq_none (Nat.le_of_not_lt outside)).symm

/-- After ENC_INIT the session is FRESH, so any chunk starts an epoch (44 R271, R275). -/
@[simp] theorem EncUnit.init_startsEpoch (e : EncUnit) (p : Profile) (chunk : List Byte) :
    (e.init p).startsEpoch chunk = true := rfl

/-- After ENC_INIT the load of a chunk leaves any two encoders alike (44 R271, R275, R297). -/
theorem EncUnit.load_init_alike (e f : EncUnit) (p : Profile) (chunk : List Byte) :
    ((e.init p).load chunk).Alike ((f.init p).load chunk) where
  ready := by simp
  profile := by simp
  session := rfl
  cursor := by simp
  reads i := by simp
  slots := by simp
  busy := rfl
  chunk := rfl
  atFront := rfl
  start := by simp
  stop := by simp
  pos := by simp
  out := rfl

/-! ### Two scans side by side -/

/-- Nothing is sent and the decoder is idle, so that a running encoder is what moves (log 20). -/
structure State.EncAlone (s : State) : Prop where
  noCommand : s.inbox = []
  decIdle : s.dec.busy = false
  running : s.enc.busy = true

/-- A turn of the scan is the step of a machine whose encoder moves alone (41 R181). -/
theorem State.EncAlone.step_turn {s : State} {e : EncUnit} (alone : s.EncAlone) (left : s.enc.pos < s.enc.stop)
    (scanned : s.enc.scanOne s.params = some e) : step s = .next { s with enc := e } := by
  rw [step_encAdvance alone.noCommand alone.decIdle alone.running, encAdvance, if_pos left, scanned]

/-- A scan with no position left answers its final response in one step (44 R278 to R280). -/
theorem State.EncAlone.answers_finalReply {s : State} (alone : s.EncAlone) (done : ¬ s.enc.pos < s.enc.stop) :
    s.Answers s.enc.finalReply := by
  obtain ⟨idle, out⟩ := s.encFinish_answers
  refine .of_step ?_ idle out
  rw [step_encAdvance alone.noCommand alone.decIdle alone.running, encAdvance, if_neg done]

/-- Two machines in the midst of scans of the reference finder that cannot be told apart. -/
structure State.SameScan (s t : State) : Prop where
  leftAlone : s.EncAlone
  rightAlone : t.EncAlone
  params : t.params = s.params
  finder : s.params.finder = .reference
  good : s.enc.Good
  alike : s.enc.Alike t.enc

/-- While positions are left, both machines take one turn, answer nothing, and their scans are still alike (41 R183). -/
theorem State.SameScan.turn {s t : State} (h : s.SameScan t) (left : s.enc.pos < s.enc.stop) :
    ∃ e f, step s = .next { s with enc := e } ∧ step t = .next { t with enc := f } ∧
      State.SameScan { s with enc := e } { t with enc := f } ∧ s.enc.pos < e.pos ∧ e.stop = s.enc.stop := by
  obtain ⟨aloneS, aloneT, params, finder, good, alike⟩ := h
  obtain ⟨e, scanS, same, _, goodE, further, _⟩ := EncUnit.scanOne_spec s.params good aloneS.running left
  have turns := EncUnit.scanOne_alike finder alike
  rw [scanS] at turns
  obtain ⟨dead, _⟩ | ⟨_, f, ⟨⟩, scanT, alike'⟩ := turns
  · cases dead
  have leftT : t.enc.pos < t.enc.stop := by rw [alike.pos, alike.stop]; exact left
  have running : e.busy = true := same.busy.trans aloneS.running
  exact ⟨e, f, aloneS.step_turn left scanS, aloneT.step_turn leftT (params ▸ scanT),
    ⟨{ aloneS with running }, { aloneT with running := alike'.busy.trans running }, params, finder, goodE, alike'⟩,
    further, same.stop⟩

/-- Scans that cannot be told apart answer the same bytes: by induction on the positions left. -/
theorem State.SameScan.answersAlike {s t : State} (h : s.SameScan t) : s.AnswersAlike t := by
  by_cases left : s.enc.pos < s.enc.stop
  · obtain ⟨e, f, stepS, stepT, h', further, sameStop⟩ := h.turn left
    obtain ⟨bytes, answersS, answersT⟩ := h'.answersAlike
    exact ⟨bytes, .after_step stepS rfl answersS, .after_step stepT rfl answersT⟩
  · have leftT : ¬ t.enc.pos < t.enc.stop := by rw [h.alike.pos, h.alike.stop]; exact left
    refine ⟨_, h.leftAlone.answers_finalReply left, ?_⟩
    rw [← h.alike.finalReply]
    exact h.rightAlone.answers_finalReply leftT
termination_by s.enc.stop - s.enc.pos

/-! ### From ENC_INIT to the answer -/

/-- The machine after ENC_INIT has been taken and answered (44 R271). -/
def State.encInitialised (s : State) (p : Profile) : State :=
  State.reply { s with inbox := [], enc := s.enc.init p } .enc [0x00#8]

/-- An idle encoder that is sent ENC_INIT takes and answers it in one step. -/
theorem reaches_encInitialised {s : State} (p : Profile) (idle : s.enc.busy = false) :
    Reaches (sends s .enc (.encInit p)) (s.encInitialised p) :=
  reaches_of_step (step_sends_encInit p idle)

/-- A chunk above CAPACITY is answered with the fallback in one step (44 R274). -/
theorem State.encInitialised_answers_oversize (s : State) (p : Profile) {chunk : List Byte}
    (fits : chunk.length < 2 ^ 32) (oversize : chunk.length > capacity p) :
    (sends (s.encInitialised p) .enc (.encCompress chunk)).Answers (compressReply (flagsOfFallback p) chunk) := by
  refine .of_step (t := State.encFallback { s.encInitialised p with inbox := [] } chunk) ?_ rfl rfl
  rw [step_sends_encCompress fits rfl]
  exact if_pos oversize

/-- The machine that has loaded a chunk after ENC_INIT (44 R275 to R278). -/
def State.encLoaded (s : State) (p : Profile) (chunk : List Byte) : State :=
  { s.encInitialised p with inbox := [], enc := (s.enc.init p).load chunk }

/-- A chunk that fits CAPACITY is loaded in one step (44 R274). -/
theorem State.step_encLoaded (s : State) (p : Profile) {chunk : List Byte} (fits : chunk.length < 2 ^ 32)
    (inside : ¬ chunk.length > capacity p) :
    step (sends (s.encInitialised p) .enc (.encCompress chunk)) = .next (s.encLoaded p chunk) := by
  rw [step_sends_encCompress fits rfl]
  exact if_neg inside

/-- Two machines that have loaded the same chunk after ENC_INIT scan it alike, whatever they held before. -/
theorem State.encLoaded_sameScan {s t : State} (p : Profile) {chunk : List Byte} (good : s.enc.Good)
    (params : t.params = s.params) (finder : s.params.finder = .reference) (decIdleS : s.dec.busy = false)
    (decIdleT : t.dec.busy = false) (inside : ¬ chunk.length > capacity p) :
    (s.encLoaded p chunk).SameScan (t.encLoaded p chunk) where
  leftAlone := ⟨rfl, decIdleS, rfl⟩
  rightAlone := ⟨rfl, decIdleT, rfl⟩
  params := params
  finder := finder
  good := (good.init p).load rfl (Nat.le_of_not_gt inside)
  alike := EncUnit.load_init_alike s.enc t.enc p chunk

/-- After ENC_INIT two machines with the same parameters answer any chunk alike (44 R297). -/
theorem State.encInitialised_answersAlike {s t : State} (p : Profile) {chunk : List Byte} (fits : chunk.length < 2 ^ 32)
    (good : s.enc.Good) (params : t.params = s.params) (finder : s.params.finder = .reference)
    (decIdleS : s.dec.busy = false) (decIdleT : t.dec.busy = false) :
    (sends (s.encInitialised p) .enc (.encCompress chunk)).AnswersAlike
      (sends (t.encInitialised p) .enc (.encCompress chunk)) := by
  by_cases oversize : chunk.length > capacity p
  · exact ⟨_, s.encInitialised_answers_oversize p fits oversize, t.encInitialised_answers_oversize p fits oversize⟩
  · obtain ⟨bytes, answersS, answersT⟩ :=
      (State.encLoaded_sameScan p good params finder decIdleS decIdleT oversize).answersAlike
    exact ⟨bytes, .after_step (s.step_encLoaded p fits oversize) rfl answersS,
      .after_step (t.step_encLoaded p fits oversize) rfl answersT⟩

/-- Settles O55: the machines after ENC_INIT, and the one answer that both then give to the chunk. -/
theorem freshEncodersAnswerAlike : Obligations.FreshEncodersAnswerAlike := by
  intro s₁ s₂ p chunk inv₁ _ params finder fits encIdle₁ decIdle₁ encIdle₂ decIdle₂
  obtain ⟨bytes, ⟨t₁, reached₁, idle₁, out₁⟩, ⟨t₂, reached₂, idle₂, out₂⟩⟩ :=
    State.encInitialised_answersAlike p fits inv₁.enc params.symm finder decIdle₁ decIdle₂
  exact ⟨s₁.encInitialised p, s₂.encInitialised p, t₁, t₂, bytes,
    reaches_encInitialised p encIdle₁, reaches_encInitialised p encIdle₂, rfl, rfl,
    reached₁, reached₂, idle₁, idle₂, out₁, out₂⟩

end Sys2Proof.Machine
end

section
/-! The token code: every part is read back from its own bits (O2), was written with no other bits (O4), and no head is
illegal (O5). With them, the words written out from the tables (O1). -/

namespace Sys2Proof

open Machine Claims

/-! ### A part read back from its own bits -/

/-- Ones below the limit, up to a zero-bit, are counted, and the zero-bit is consumed (43 R242). -/
theorem countOnes_replicate_false {limit c : Nat} (below : c < limit) (rest : Bits) :
    countOnes limit (List.replicate c true ++ false :: rest) = some (c, rest) := by
  induction limit generalizing c with
  | zero => exact absurd below (Nat.not_lt_zero c)
  | succ limit ih =>
    cases c with
    | zero => rfl
    | succ c => simp [List.replicate_succ, countOnes, ih (Nat.lt_of_succ_lt_succ below)]

/-- Ones up to the limit are counted, and nothing after them is consumed (43 R242). -/
theorem countOnes_replicate_limit (limit : Nat) (rest : Bits) :
    countOnes limit (List.replicate limit true ++ rest) = some (limit, rest) := by
  induction limit with
  | zero => rfl
  | succ limit ih => simp [List.replicate_succ, countOnes, ih]

/-- After the class code of class `c + 1` the value of that class is read (30 R103, 43 R242). -/
theorem decodeLom_classCode {c : Nat} (below : c < 15) (rest : Bits) :
    decodeLom (lomClassCode (c + 1) ++ rest) = decodeLomValue c rest := by
  have code : lomClassCode (c + 1) ++ rest = List.replicate c true ++ false :: rest := by simp [lomClassCode]
  rw [decodeLom, code, countOnes_replicate_false below, Option.bind_some]

/-- A field after its class code is read as its class's instruction, where the class's value is that field. -/
theorem decodeLom_classField {c w : Nat} {mk : BitVec w → Instr} (below : c < 15)
    (value : ∀ r, decodeLomValue c r = asInstr mk (getBits w r)) (v : BitVec w) (rest : Bits) :
    decodeLom (lomClassCode (c + 1) ++ field v ++ rest) = some (mk v, rest) := by
  rw [List.append_assoc, decodeLom_classCode below, value, asInstr_field]

/-- Fifteen one-bits are read as the reserved code (43 R243). -/
theorem decodeLom_reserved (rest : Bits) :
    decodeLom (List.replicate 15 true ++ rest) = some (.lomReserved, rest) := by
  rw [decodeLom, countOnes_replicate_limit]
  rfl

/-- Every token part is read back from its own bits, whatever bits follow (30 R101 to R105). -/
theorem decodePart_tokenBits {i : Instr} (part : i.context ≠ .command) (rest : Bits) :
    decodePart i.context (tokenBits i ++ rest) = some (i, rest) :=
  match i, part with
  | .litLo v, _ | .litHi v, _ | .matchO6 v, _ | .matchO8 v, _ | .matchO11 v, _ | .matchO16 v, _
  | .matchO6L v, _ | .matchO8L v, _ | .matchO13L v, _ => asInstr_field _ v rest
  | .lom3, _ => rfl
  | .lomC2 v, _ | .lomC3 v, _ | .lomC4 v, _ | .lomC5 v, _ | .lomC6 v, _ | .lomC7 v, _ | .lomC8 v, _ | .lomC9 v, _
  | .lomC10 v, _ | .lomC11 v, _ | .lomC12 v, _ | .lomC13 v, _ | .lomC14 v, _ | .lomC15 v, _ =>
    decodeLom_classField (by decide) (fun _ => rfl) v rest
  | .lomReserved, _ => decodeLom_reserved rest
  | .encInit _, part | .encCompress _, part | .decInit _, part | .decDecompress _ _, part => absurd rfl part

/-- A literal is read in both offset codes (30 R104, R105). -/
theorem decodeHead_literal {i : Instr} {n : Nat} (literal : LiteralMeans i n) (code : OffsetCode) (rest : Bits) :
    decodeHead code (tokenBits i ++ rest) = some (i, rest) :=
  match i, literal with
  | .litLo v, _ | .litHi v, _ => asInstr_field _ v rest

/-- Settles O2: the parts in the context each is read in, and the literals in either offset code. -/
theorem tokenPartsDecodeFromTheirBits : Obligations.TokenPartsDecodeFromTheirBits :=
  fun _ rest => ⟨fun part => decodePart_tokenBits part rest, fun _ literal code => decodeHead_literal literal code rest⟩

/-! ### The bits a part that was read was written with -/

/-- A token head that was read was written with the bits of its own encoding (30 R101, R102, R104, R105). -/
theorem decodeHead_exact {code : OffsetCode} {bs rest : Bits} {i : Instr} (h : decodeHead code bs = some (i, rest)) :
    bs = tokenBits i ++ rest := by
  match code, bs, h with
  | _, false :: r, h | _, true :: false :: r, h
  | .doc, true :: true :: false :: r, h | .doc, true :: true :: true :: false :: r, h
  | .doc, true :: true :: true :: true :: false :: r, h | .doc, true :: true :: true :: true :: true :: r, h
  | .rfc2118, true :: true :: false :: r, h | .rfc2118, true :: true :: true :: false :: r, h
  | .rfc2118, true :: true :: true :: true :: r, h =>
    obtain ⟨v, rfl, rfl⟩ := asInstr_exact h
    rfl

/-- The value of a class that was read, after its class code, is the encoding of the instruction read (30 R103). -/
theorem decodeLomValue_exact {c : Nat} {r rest : Bits} {i : Instr} (below : c < 15)
    (h : decodeLomValue c r = some (i, rest)) : lomClassCode (c + 1) ++ r = tokenBits i ++ rest := by
  match c, below, h with
  | 0, _, h => cases h; rfl
  | 1, _, h | 2, _, h | 3, _, h | 4, _, h | 5, _, h | 6, _, h | 7, _, h | 8, _, h | 9, _, h | 10, _, h | 11, _, h
  | 12, _, h | 13, _, h | 14, _, h =>
    obtain ⟨v, rfl, rfl⟩ := asInstr_exact h
    rfl

/-- A length-of-match part that was read was written with the bits of its own encoding (30 R103, 43 R242, R243). -/
theorem decodeLom_exact {bs rest : Bits} {i : Instr} (h : decodeLom bs = some (i, rest)) :
    bs = tokenBits i ++ rest := by
  simp only [decodeLom, Option.bind_eq_some_iff] at h
  obtain ⟨⟨c, r⟩, counted, value⟩ := h
  obtain ⟨below, rfl⟩ | ⟨rfl, rfl⟩ := countOnes_exact counted
  · rw [← decodeLomValue_exact below value]
    simp [lomClassCode]
  · cases value
    rfl

/-- Settles O4: a head, or a length-of-match part; the command port reads no part. -/
theorem decodedPartsComeFromOneBitString : Obligations.DecodedPartsComeFromOneBitString
  | .command, _, _, _, h => nomatch h
  | .head _, _, _, _, h => decodeHead_exact h
  | .lom, _, _, _, h => decodeLom_exact h

/-! ### The head code is complete -/

/-- A field is read where its bits remain. -/
theorem asInstr_getBits_of_le {w : Nat} (mk : BitVec w → Instr) {bs : Bits} (enough : w ≤ bs.length) :
    ∃ i rest, asInstr mk (getBits w bs) = some (i, rest) := by
  rw [getBits, if_neg (Nat.not_lt.mpr enough)]
  exact ⟨_, _, rfl⟩

/-- 19 bits always begin with a token head, in either offset code: whatever its first bits are, its field's bits
remain (30 R105). -/
theorem decodeHead_of_le {code : OffsetCode} {bs : Bits} (enough : 19 ≤ bs.length) :
    ∃ i rest, decodeHead code bs = some (i, rest) := by
  match code, bs, enough with
  | _, false :: r, enough | _, true :: false :: r, enough
  | .doc, true :: true :: false :: r, enough | .doc, true :: true :: true :: false :: r, enough
  | .doc, true :: true :: true :: true :: false :: r, enough | .doc, true :: true :: true :: true :: true :: r, enough
  | .rfc2118, true :: true :: false :: r, enough | .rfc2118, true :: true :: true :: false :: r, enough
  | .rfc2118, true :: true :: true :: true :: r, enough =>
    exact asInstr_getBits_of_le _ (by simp only [List.length_cons] at enough; omega)

/-- Settles O5: 19 bits are enough for the longest head. -/
theorem everyHeadIsLegal : Obligations.EveryHeadIsLegal :=
  fun _ _ => decodeHead_of_le

/-! ### Words written out -/

/-- Settles O1: the decoder evaluated on each of the words. -/
theorem writtenWordsDecode : Obligations.WrittenWordsDecode :=
  ⟨rfl, rfl, rfl, rfl, rfl, rfl, rfl, rfl⟩

end Sys2Proof
end

section
/-! The command ports: every command is read back from its serialised bytes (O3), a command that its unit takes is run
by the step (O13), and the others are refused in the order of 60 R330's table (O15). -/

namespace Sys2Proof

/-! ### A command read back from its bytes -/

/-- A word without reserved bits, and the operands its operation takes, are a command (30 R110, R113). -/
theorem decodeCommand_le16 {lo hi : Byte} {rest : List Byte} {i : Instr} (ok : wordOk lo hi = true)
    (operands : decodeOperands lo hi rest = some i) : decodeCommand (le16 (hi ++ lo) ++ rest) = .ok i := by
  simp [le16_append, decodeCommand, ok, operands]

/-- A well-formed command is read back from its serialised bytes (30 R110, R111, R113). -/
theorem decodeCommand_commandBytes {i : Instr} (fits : i.wellFormed = true) (command : i.context = .command) :
    decodeCommand (commandBytes i) = .ok i :=
  match i, command with
  | .encInit .legacy, _ | .encInit .standard, _ | .decInit .legacy, _ | .decInit .standard, _ => rfl
  | .encCompress _, _ =>
    decodeCommand_le16 (lo := 0x01#8) (hi := 0x00#8) rfl
      (congrArg (Option.map _) (payloadOf_le32 (of_decide_eq_true fits)))
  | .decDecompress _ _, _ =>
    decodeCommand_le16 rfl (congrArg (Option.map _) (payloadOf_le32 (of_decide_eq_true fits)))

/-- Settles O3: the encoder writes a command as its serialised bytes, which are read back. -/
theorem commandsDecodeFromTheirBytes : Obligations.CommandsDecodeFromTheirBytes := by
  intro i fits command
  rw [encode, command, decode, decodeCommand_commandBytes fits command]
  rfl

/-! ### What a decoded command's word says -/

/-- A command that was decoded has a word, and the operands its operation takes (30 R110). -/
theorem decodeCommand_operands {bytes : List Byte} {i : Instr} (h : decodeCommand bytes = .ok i) :
    ∃ lo hi rest, bytes = lo :: hi :: rest ∧ decodeOperands lo hi rest = some i := by
  unfold decodeCommand at h
  split at h
  case h_1 lo hi rest =>
    split at h
    case isFalse reserved => cases h
    case isTrue ok =>
      split at h <;> cases h
      exact ⟨lo, hi, rest, rfl, ‹_›⟩
  case h_2 short => cases h

/-- The unit that runs an instruction: the encoder its two commands, the decoder everything else (30 R111, 43 R234). -/
def Instr.unit : Instr → Port
  | .encInit _ | .encCompress _ => .enc
  | _ => .dec

/-- `OP[1]` splits the operations in the order of their codes (30 R110). -/
theorem portOf_eq : ∀ op : BitVec 2, portOf op = if op.toNat < 2 then .enc else .dec := by
  decide

/-- The word's `OP[1]` names the unit that runs the command (30 R110, R112). -/
theorem decodeOperands_unit {lo hi : Byte} {rest : List Byte} {i : Instr}
    (h : decodeOperands lo hi rest = some i) : portOf (opOf lo) = i.unit := by
  rw [portOf_eq]
  unfold decodeOperands at h
  split at h
  case h_1 op | h_3 op =>
    split at h <;> cases h
    rw [op]
    rfl
  case h_2 op =>
    obtain ⟨payload, _, rfl⟩ := Option.map_eq_some_iff.mp h
    rw [op]
    rfl
  case h_4 not0 not1 _ =>
    obtain ⟨payload, _, rfl⟩ := Option.map_eq_some_iff.mp h
    have notEncInit : (opOf lo).toNat ≠ 0 := not0
    have notEncCompress : (opOf lo).toNat ≠ 1 := not1
    rw [if_neg (by omega)]
    rfl

/-- No bit of the word is set that must be 0, or one of these is: a reserved bit, `PROF` outside INIT, `FLG` outside
DEC_DECOMPRESS (30 R110, R112). -/
theorem wordOk_eq_false_iff {lo hi : Byte} : wordOk lo hi = false ↔
    lo.toNat / 8 ≠ 0 ∨ (lo.getLsbD 2 = true ∧ lo.getLsbD 0 = true) ∨ (hi ≠ 0#8 ∧ lo.toNat % 4 ≠ 3) := by
  have reserved : lo.extractLsb' 3 5 = 0#5 ↔ lo.toNat / 8 = 0 := by
    have := lo.isLt
    rw [← BitVec.toNat_inj, BitVec.extractLsb'_toNat, Nat.shiftRight_eq_div_pow]
    simp only [BitVec.toNat_ofNat]
    omega
  have op : opOf lo = 3#2 ↔ lo.toNat % 4 = 3 := by
    rw [← BitVec.toNat_inj, opOf, BitVec.extractLsb'_toNat]
    rfl
  have payload : hasPayload (opOf lo) = lo.getLsbD 0 := by simp [hasPayload, opOf]
  simp only [wordOk, payload, profOf, Bool.and_eq_false_iff, Bool.or_eq_false_iff, beq_eq_false_iff_ne, ne_eq,
    reserved, op, Bool.not_eq_false', Bool.and_eq_true]
  tauto

namespace Machine

/-! ### What a port does with a transaction -/

/-- A word with a bit set that must be 0 is refused 0xE1 (30 R112, 60 R330). -/
theorem State.receive_reserved {s : State} {c : HostCommand} {lo hi : Byte} {more : List Byte}
    (bytes : c.bytes = lo :: hi :: more) (reserved : wordOk lo hi = false) :
    s.receive c = .settle (.next (s.refuse c.port 0xE1#8)) := by
  simp [State.receive, bytes, reserved]

/-- A command at the other unit's port is refused 0xE2 (30 R112, 60 R330). -/
theorem State.receive_wrongUnit {s : State} {c : HostCommand} {lo hi : Byte} {more : List Byte}
    (bytes : c.bytes = lo :: hi :: more) (ok : wordOk lo hi = true) (elsewhere : portOf (opOf lo) ≠ c.port) :
    s.receive c = .settle (.next (s.refuse c.port 0xE2#8)) := by
  simp [State.receive, bytes, ok, elsewhere]

/-- A command at a unit that runs one is refused 0xE3 (60 R330, 70 R370). -/
theorem State.receive_busy {s : State} {c : HostCommand} {lo hi : Byte} {more : List Byte}
    (bytes : c.bytes = lo :: hi :: more) (ok : wordOk lo hi = true) (here : portOf (opOf lo) = c.port)
    (busy : s.busy c.port = true) : s.receive c = .settle (.next (s.refuse c.port 0xE3#8)) := by
  simp [State.receive, bytes, ok, here, busy]

/-- A word names the other unit where its `OP[1]` does (30 R112). -/
theorem portOf_opOf_ne_iff (lo : Byte) (port : Port) :
    portOf (opOf lo) ≠ port ↔ (port = .enc ∧ lo.getLsbD 1 = true) ∨ (port = .dec ∧ lo.getLsbD 1 = false) := by
  have bit : (opOf lo).getLsbD 1 = lo.getLsbD 1 := by simp [opOf]
  rw [portOf, bit]
  cases port <;> cases lo.getLsbD 1 <;> decide

/-- The unit behind a port runs a command where its `busy` bit is set (70 R370). -/
theorem State.busy_iff (s : State) (port : Port) :
    s.busy port = true ↔ (port = .enc ∧ s.enc.busy = true) ∨ (port = .dec ∧ s.dec.busy = true) := by
  cases port <;> simp [State.busy]

/-- Settles O13: the word of a decoded command names its unit, which is idle, and runs it. -/
theorem stepRunsTheDecodedCommand : Obligations.StepRunsTheDecodedCommand := by
  intro s c rest i arrived due decoded taken
  obtain ⟨lo, hi, more, bytes, operands⟩ := decodeCommand_operands decoded
  have accepted : i.unit = c.port ∧ s.busy c.port = false := by
    obtain ⟨port, idle, ⟨_, rfl⟩ | ⟨_, rfl⟩⟩ | ⟨port, idle, ⟨_, rfl⟩ | ⟨_, _, rfl⟩⟩ := taken <;>
      exact port ▸ ⟨rfl, idle⟩
  obtain ⟨unit, idle⟩ := accepted
  have run : State.receive { s with inbox := rest } c = .run i { s with inbox := rest } :=
    State.receive_run bytes (bytes ▸ decoded) ((decodeOperands_unit operands).trans unit) idle
  rw [step_receive arrived due, run]

/-- A transaction that settles at once is what the step answers. -/
theorem step_settled {s : State} {c : HostCommand} {rest : List HostCommand} {o : Host.Outcome State Fault Refusal}
    (arrived : s.inbox = c :: rest) (due : c.due s = true)
    (settled : State.receive { s with inbox := rest } c = .settle o) : step s = o := by
  rw [step_receive arrived due, settled]

/-- Settles O15: each row of the table where the rows before it do not apply. -/
theorem refusalsInTheOrderOfTheTable : Obligations.RefusalsInTheOrderOfTheTable := by
  intro s c rest lo hi more arrived due bytes misplaced wrongUnit busy refused
  have word : wordOk lo hi = false ↔ misplaced := wordOk_eq_false_iff
  have elsewhere : portOf (opOf lo) ≠ c.port ↔ wrongUnit := portOf_opOf_ne_iff lo c.port
  have running : s.busy c.port = true ↔ busy := s.busy_iff c.port
  have ok : ¬ misplaced → wordOk lo hi = true := fun h => by simpa using mt word.mp h
  exact ⟨
    fun h => step_settled arrived due (State.receive_reserved bytes (word.mpr h)),
    fun h1 h2 => step_settled arrived due (State.receive_wrongUnit bytes (ok h1) (elsewhere.mpr h2)),
    fun h1 h2 h3 => step_settled arrived due
      (State.receive_busy bytes (ok h1) (not_not.mp (mt elsewhere.mp h2)) (running.mpr h3))⟩

end Machine

end Sys2Proof
end

section
/-! The decoder's tokens: a literal below CAPACITY (O30), the copy-offset parts (O32) and the errors of a match (O34);
with them, that every instruction completes (O49), and the encoder's FLAGS bytes (O11). -/

namespace Sys2Proof.Machine

open Claims

/-! ### Literals -/

/-- A low literal's byte is its field (30 R101, R114). -/
theorem loByte_eq : ∀ v : BitVec 7, loByte v = BitVec.ofNat 8 v.toNat := by
  decide

/-- A high literal's byte is its field above `0x80` (30 R101, R114). -/
theorem hiByte_eq : ∀ v : BitVec 7, hiByte v = BitVec.ofNat 8 (0x80 + v.toNat) := by
  decide

/-- A literal part decodes the byte it names (43 R235, R236). -/
theorem exec_literal {i : Instr} {n : Nat} (literal : LiteralMeans i n) (s : State) :
    exec i s = decodeLiteral (BitVec.ofNat 8 n) s :=
  match i, literal with
  | .litLo v, rfl => congrArg (decodeLiteral · s) (loByte_eq v)
  | .litHi v, rfl => congrArg (decodeLiteral · s) (hiByte_eq v)

/-- Settles O30: below CAPACITY a literal is one HB_APPEND. -/
theorem literalAppendsItsByte : Obligations.LiteralAppendsItsByte := by
  intro s i n literal room
  refine ⟨s.dec.hb.push (BitVec.ofNat 8 n), ?_, HistBuf.push_cursor .., fun a => ?_⟩
  · rw [exec_literal literal, decodeLiteral_eq, if_pos room]
  · rw [HistBuf.push_mem, tableGet_tablePut]

/-! ### The two parts of a match -/

/-- A copy-offset part takes the offset it names (43 R237 to R241, R244). -/
theorem exec_offsetPart {i : Instr} {off : Nat} (offset : OffsetMeans i off) (s : State) :
    exec i s = takeOffset off s :=
  match i, offset with
  | .matchO6 o, rfl | .matchO6L o, rfl => congrArg (takeOffset · s) (Nat.zero_add o.toNat)
  | .matchO8 _, rfl | .matchO11 _, rfl | .matchO16 _, rfl | .matchO8L _, rfl | .matchO13L _, rfl => rfl

/-- Settles O32: each copy-offset part takes its offset. -/
theorem offsetPartsWriteTheOffset : Obligations.OffsetPartsWriteTheOffset :=
  fun s _ _ offset => exec_offsetPart offset s

/-- A length-of-match part executes a match of the length it names (43 R242). -/
theorem exec_lengthPart {i : Instr} {len : Nat} (length : LengthMeans i len) (s : State) :
    exec i s = executeMatch len s :=
  match i, length with
  | .lom3, rfl | .lomC2 _, rfl | .lomC3 _, rfl | .lomC4 _, rfl | .lomC5 _, rfl | .lomC6 _, rfl | .lomC7 _, rfl
  | .lomC8 _, rfl | .lomC9 _, rfl | .lomC10 _, rfl | .lomC11 _, rfl | .lomC12 _, rfl | .lomC13 _, rfl
  | .lomC14 _, rfl | .lomC15 _, rfl => rfl

/-! ### The errors of a match, in the order of 43 R246 -/

/-- An offset of 0 (43 R246). -/
theorem State.matchError_zero {s : State} (len : Nat) (zero : s.dec.off = 0) :
    s.matchError len = some .offsetZero :=
  if_pos zero

/-- An offset that fails the check of 43 R247. -/
theorem State.matchError_beyond {s : State} (len : Nat) (nonzero : s.dec.off ≠ 0) (beyond : s.offsetBeyond = true) :
    s.matchError len = some .offsetBeyondCursor := by
  simp [State.matchError, nonzero, beyond]

/-- A match that would pass CAPACITY (43 R248). -/
theorem State.matchError_overflow {s : State} {len : Nat} (nonzero : s.dec.off ≠ 0)
    (inside : s.offsetBeyond = false) (full : capacity s.dec.profile < s.dec.hb.cursor + len) :
    s.matchError len = some .overflowMatch := by
  simp [State.matchError, nonzero, inside, full]

/-- An offset above 8191 is one on which two rules differ in the RFC2118 code alone (30 R104, log 27). -/
theorem State.offsetAbove8191_eq_false {s : State}
    (h : offsetCodeOf s.params s.dec.profile = .doc ∨ s.dec.off ≤ 8191) : s.offsetAbove8191 = false := by
  rcases h with doc | small
  · simp [State.offsetAbove8191, doc]
  · simp [State.offsetAbove8191, Nat.not_lt.mpr small]

/-- For an OFF13_L offset above 8191 that is not above the cursor the free value decides (30 R104, log 27). -/
theorem State.offsetBeyond_above8191 {s : State} (le : s.dec.off ≤ s.dec.hb.cursor)
    (code : offsetCodeOf s.params s.dec.profile = .rfc2118) (large : 8191 < s.dec.off) :
    s.offsetBeyond = Config.offsetAbove8191Fails := by
  simp [State.offsetBeyond, State.offsetAbove8191, Nat.not_lt.mpr le, code, large]

/-- A match's error ends the command, with the length written and no byte copied (43 R242, R246, 60 R325). -/
theorem executeMatch_tokenError {s : State} {len : Nat} {e : DecError} (error : s.matchError len = some e) :
    executeMatch len s = .next (tokenError { s with dec := { s.dec with len := len, part := .head } } e.status) :=
  executeMatch_error error

/-- Settles O34: the first check of 43 R246 that fails; the free value of log 27 decides between the last two. -/
theorem matchErrorsInOrder : Obligations.MatchErrorsInOrder := by
  intro s i len length t
  rw [exec_lengthPart length]
  refine ⟨fun zero => ?_, fun nonzero beyond => ?_, fun nonzero le full plain => ?_, fun le full code large => ?_⟩
  · exact executeMatch_tokenError (State.matchError_zero len zero)
  · exact executeMatch_tokenError (State.matchError_beyond len nonzero (State.offsetBeyond_of_lt beyond))
  · have inside := State.offsetBeyond_of_le le (State.offsetAbove8191_eq_false plain)
    exact executeMatch_tokenError (State.matchError_overflow nonzero inside full)
  · have nonzero : s.dec.off ≠ 0 := by omega
    have free := State.offsetBeyond_above8191 le code large
    cases fails : Config.offsetAbove8191Fails with
    | true => exact executeMatch_tokenError (State.matchError_beyond len nonzero (free.trans fails))
    | false => exact executeMatch_tokenError (State.matchError_overflow nonzero (free.trans fails) full)

/-! ### Every instruction -/

/-- Settles O49: `exec_inv`. -/
theorem everyInstructionCompletes : Obligations.EveryInstructionCompletes :=
  fun _ _ good wellFormed => exec_inv wellFormed good

/-- Settles O11: the layout of FLAGS evaluated for each result and profile. -/
theorem encoderFlagsBytes : Obligations.EncoderFlagsBytes :=
  ⟨rfl, rfl, rfl, rfl, rfl, rfl⟩

end Sys2Proof.Machine
end

section
/-! A copy at distance 1 repeats the last byte over the whole match (O36). -/

namespace Sys2Proof.Machine

open Claims

/-- Below the cursor a read gives the byte held there (40 R153). -/
theorem HistBuf.read_of_lt {h : HistBuf} {i : Nat} (below : i < h.cursor) : h.read i = tableGet h.mem i :=
  if_pos below

/-- A copy leaves every byte that was below the cursor (40 R154). -/
theorem HistBuf.read_copy_old {h h' : HistBuf} {off n i : Nat} (low : 1 ≤ off) (high : off ≤ h.cursor)
    (copied : h.copy off n = some h') (old : i < h.cursor) : h'.read i = h.read i := by
  obtain ⟨cursor, frame, -⟩ := HistBuf.copy_some low high copied
  rw [HistBuf.read_of_lt old, HistBuf.read_of_lt (by omega), frame i (.inl old)]

/-- After a copy at distance 1 the last byte stands at its own index and at each index copied to: a new byte is the one
before it, so the byte spreads from index to index (40 R154). -/
theorem HistBuf.read_copy_one {h h' : HistBuf} {n : Nat} {b : Byte} (last : h.read (h.cursor - 1) = some b)
    (copied : h.copy 1 n = some h') : ∀ k, k ≤ n → h'.read (h.cursor - 1 + k) = some b := by
  have nonempty : h.cursor - 1 < h.cursor := HistBuf.read_lt last
  have above : 1 ≤ h.cursor := by omega
  obtain ⟨-, -, repeats⟩ := HistBuf.copy_some (Nat.le_refl 1) above copied
  intro k
  induction k with
  | zero => exact fun _ => (HistBuf.read_copy_old (Nat.le_refl 1) above copied nonempty).trans last
  | succ k ih =>
    intro hk
    calc h'.read (h.cursor - 1 + (k + 1))
        = h'.read (h.cursor + k) := congrArg h'.read (by omega)
      _ = h'.read (h.cursor + k - 1) := repeats k hk
      _ = h'.read (h.cursor - 1 + k) := congrArg h'.read (by omega)
      _ = some b := ih (Nat.le_of_succ_le hk)

/-- A nonzero offset that passes the check of 43 R247 raises nothing where the match fits CAPACITY (43 R246). -/
theorem State.matchError_of_inside {s : State} {len : Nat} (nonzero : s.dec.off ≠ 0) (inside : s.offsetBeyond = false)
    (fits : s.dec.hb.cursor + len ≤ capacity s.dec.profile) : s.matchError len = none := by
  simp [State.matchError, nonzero, inside, fits]

/-- Settles O36: a distance of 1 passes the checks of 43 R246, the copy succeeds, and `HistBuf.read_copy_one` gives every
byte of it. -/
theorem distanceOneRepeatsTheLastByte : Obligations.DistanceOneRepeatsTheLastByte := by
  intro s i len b length good one above last fits
  have inside : s.offsetBeyond = false :=
    State.offsetBeyond_of_le (one ▸ above) (State.offsetAbove8191_eq_false (.inr (by omega)))
  have noError : s.matchError len = none := State.matchError_of_inside (by omega) inside fits
  obtain ⟨hb, copied, -⟩ := HistBuf.copy_good good (Nat.le_refl 1) above fits (capacity_le _)
  obtain ⟨cursor, -, -⟩ := HistBuf.copy_some (Nat.le_refl 1) above copied
  refine ⟨_, (exec_lengthPart length s).trans (executeMatch_copy noError (one ▸ copied)), fun k hk => ?_⟩
  show tableGet hb.mem (s.dec.hb.cursor + k) = some b
  have lastRead : s.dec.hb.read (s.dec.hb.cursor - 1) = some b := (HistBuf.read_of_lt (by omega)).trans last
  calc tableGet hb.mem (s.dec.hb.cursor + k)
      = hb.read (s.dec.hb.cursor + k) := (HistBuf.read_of_lt (by omega)).symm
    _ = hb.read (s.dec.hb.cursor - 1 + (k + 1)) := congrArg hb.read (by omega)
    _ = some b := HistBuf.read_copy_one lastRead copied (k + 1) hk

end Sys2Proof.Machine
end

section
/-! The match finder, one turn at a time: what a turn of any finder may do (O24), the reference finder's literal and match
turns (O25, O26), the tail (O27), and with it the chunks too short to hold a match (O29). First the default HASH16 and its
table (O8, O9). -/

namespace Sys2Proof.Machine

open Claims

/-! ### HASH16 (41 R170 to R172) -/

/-- Settles O8: each triple evaluated. -/
theorem defaultHashValues : Obligations.DefaultHashValues :=
  ⟨rfl, rfl, rfl, rfl, rfl, rfl⟩

/-- Settles O9: the 256 entries, evaluated and compared by the kernel. -/
theorem defaultCrcTable : Obligations.DefaultCrcTable := by
  unfold Obligations.DefaultCrcTable
  decide +kernel

/-! ### Any finder (41 R181, R182, R184) -/

/-- Where the encoder's next scan position is what the machine does next, the encoder moves alone (log 20). -/
theorem State.EncAlone.of_scanNext {s : State} (next : ScanNext s) : s.EncAlone :=
  ⟨next.noCommand, next.decIdle, next.encBusy⟩

/-- Settles O24: `EncUnit.scanOne_spec` gives the token and what stays, `EncUnit.scanOne_finds` the finder's own registers;
the bounds of a match follow from `END = CURSOR ≤ CAPACITY`. -/
theorem scanTurnEmitsALiteralOrAVerifiedMatch : Obligations.ScanTurnEmitsALiteralOrAVerifiedMatch := by
  intro s next
  have good := next.inv.enc
  have atEnd := (good.scan next.encBusy).atEnd
  have fits := good.hist.fits
  obtain ⟨e, scanned, same, emits, -⟩ := EncUnit.scanOne_spec s.params good next.encBusy next.left
  have finds := EncUnit.scanOne_finds good next.encBusy scanned
  refine ⟨e, (State.EncAlone.of_scanNext next).step_turn next.left scanned, same.hb, same.chunk, same.start, same.stop,
    same.atFront, same.session, same.profile, same.ready, same.status, same.busy.trans next.encBusy, finds.untouched,
    finds.looked, fun slot unhashed => finds.slots slot ?_, finds.draws, ?_⟩
  · rintro ⟨q, g, low, high, room, hashed, hit⟩
    exact unhashed q g low high room hashed hit
  · cases emits with
    | literal c byte out pos regs => exact .inl ⟨c, byte, pos, regs.1, regs.2, out⟩
    | copy off len late low high long inside out pos regs verified =>
      exact .inr ⟨off, len, late, low, high, by omega, long, by omega, by omega, pos, regs.1, regs.2, out, verified⟩

/-! ### The tail (41 R180) -/

/-- A literal at a position that holds a byte (41 R175, R176, R180). -/
theorem EncUnit.literalHere_of_read {e : EncUnit} {c : Byte} (byte : e.hb.read e.pos = some c) :
    e.literalHere = some { e with pos := e.pos + 1, out := e.out ++ tokenBits (literalForm c) } :=
  congrArg (Option.map _) byte

/-- A position with fewer than three bytes left is no finder's to decide (41 R180). -/
theorem EncUnit.scanOne_tail (params : Params) {e : EncUnit} (tail : e.stop < e.pos + 3) :
    e.scanOne params = e.literalHere :=
  if_pos tail

/-- A machine whose encoder moves alone takes a tail position in one step (41 R180). -/
theorem State.EncAlone.step_tail {s : State} {c : Byte} (alone : s.EncAlone) (left : s.enc.pos < s.enc.stop)
    (tail : s.enc.stop < s.enc.pos + 3) (byte : s.enc.hb.read s.enc.pos = some c) :
    step s = .next { s with
      enc := { s.enc with pos := s.enc.pos + 1, out := s.enc.out ++ tokenBits (literalForm c) } } :=
  alone.step_turn left ((EncUnit.scanOne_tail s.params tail).trans (EncUnit.literalHere_of_read byte))

/-- Settles O27: `State.EncAlone.step_tail`. -/
theorem tailPositionIsALiteral : Obligations.TailPositionIsALiteral :=
  fun _ _ next tail byte => (State.EncAlone.of_scanNext next).step_tail next.left tail byte

/-! ### The reference finder's decision (41 R174 to R176) -/

/-- The encoder after MF_LOOKUP of a position with this hash: the slot's content is in `CAND`, and the slot holds the
position (41 R174). -/
def EncUnit.lookedUp (e : EncUnit) (hv : BitVec 16) : EncUnit :=
  { e with hv := hv, cand := tableGet e.slots hv.toNat, slots := tablePut e.slots hv.toNat e.pos }

/-- With three bytes left the reference finder decides from the looked-up slot (41 R174, R181). -/
theorem EncUnit.scanOne_reference {params : Params} {e : EncUnit} {hv : BitVec 16} (finder : params.finder = .reference)
    (room : e.pos + 3 ≤ e.stop) (hashed : e.hb.hashAt params.hash e.pos = some hv) :
    e.scanOne params = (e.lookedUp hv).choose params := by
  rw [EncUnit.scanOne, if_neg (Nat.not_lt.mpr room), finder]
  show ((e.hb.hashAt params.hash e.pos).map e.lookedUp).bind (fun e => e.choose params) = _
  rw [hashed]
  rfl

/-- The first two positions of an epoch become literals, whatever the slot held (41 R175). -/
theorem EncUnit.choose_early (params : Params) {e : EncUnit} (early : e.pos < 2) : e.choose params = e.literalHere := by
  unfold EncUnit.choose
  split
  case h_1 => rfl
  case h_2 => exact if_pos early

/-- A position whose slot was EMPTY becomes a literal (41 R175). -/
theorem EncUnit.choose_empty (params : Params) {e : EncUnit} (empty : e.cand = none) :
    e.choose params = e.literalHere := by
  rw [EncUnit.choose, empty]

/-- From position 2 on MF_VERIFY decides between a literal and a match with the candidate (41 R176). -/
theorem EncUnit.choose_verified (params : Params) {e : EncUnit} {p : Nat} {same : Bool} (late : 2 ≤ e.pos)
    (cand : e.cand = some p) (verified : e.hb.agree p e.pos 3 = some same) :
    e.choose params = if same then e.matchHere params p else e.literalHere := by
  rw [EncUnit.choose, cand]
  simp only [if_neg (Nat.not_lt.mpr late), verified]
  cases same <;> rfl

/-- A slot names an earlier position of a running scan (41 R174). -/
theorem EncUnit.Scanning.slot_earlier {e : EncUnit} (scan : e.Scanning) {slot p : Nat}
    (held : tableGet e.slots slot = some p) : p < e.pos :=
  scan.earlier _ (mem_of_tableGet held)

/-- The three causes of a literal at a hashable position (41 R175, R176). -/
theorem EncUnit.Good.choose_literal {e : EncUnit} (params : Params) (good : e.Good) (running : e.busy = true)
    (room : e.pos + 3 ≤ e.stop) {hv : BitVec 16}
    (cause : e.pos < 2 ∨ tableGet e.slots hv.toNat = none ∨
      ∃ p, tableGet e.slots hv.toNat = some p ∧ ∃ k, k < 3 ∧ e.hb.read (p + k) ≠ e.hb.read (e.pos + k)) :
    (e.lookedUp hv).choose params = (e.lookedUp hv).literalHere := by
  obtain early | empty | ⟨p, held, k, inside, differs⟩ := cause
  · exact EncUnit.choose_early params early
  · exact EncUnit.choose_empty params empty
  · by_cases early : e.pos < 2
    · exact EncUnit.choose_early params early
    · have scan := good.scan running
      have atEnd := scan.atEnd
      have earlier := scan.slot_earlier held
      have refuted : e.hb.agree p e.pos 3 = some false :=
        (good.hist.agree_iff (by omega) (by omega) false).mpr ⟨nofun, fun agree => absurd (agree k inside) differs⟩
      exact EncUnit.choose_verified params (e := e.lookedUp hv) (Nat.le_of_not_lt early) held refuted

/-- Settles O25: the lookup, then one of the three causes of a literal. -/
theorem referenceFinderLiteralTurn : Obligations.ReferenceFinderLiteralTurn := by
  intro s a b c next finder room readA readB readC hv cause
  have hashed : s.enc.hb.hashAt s.params.hash s.enc.pos = some hv := HistBuf.hashAt_eq _ readA readB readC
  refine ⟨tablePut s.enc.slots hv.toNat s.enc.pos, ?_, fun h => tableGet_tablePut _ _ h _⟩
  refine (State.EncAlone.of_scanNext next).step_turn next.left ?_
  calc s.enc.scanOne s.params
      = (s.enc.lookedUp hv).choose s.params := EncUnit.scanOne_reference finder room hashed
    _ = (s.enc.lookedUp hv).literalHere := next.inv.enc.choose_literal s.params next.encBusy room cause
    _ = _ := EncUnit.literalHere_of_read readA

/-! ### The reference finder's match (41 R177 to R179) -/

/-- MF_LOOKUP's write and then MF_INSERT_INTERIOR are one insertion of every position of the match (41 R174, R179). -/
theorem HistBuf.insertInterior_lookup {h : HistBuf} {hash : HashParams} {stop pos len : Nat} {hv : BitVec 16}
    (slots : SlotTable) (room : pos + 3 ≤ stop) (hashed : h.hashAt hash pos = some hv) (nonempty : 1 ≤ len) :
    h.insertInterior hash stop (len - 1) (pos + 1) (tablePut slots hv.toNat pos) =
      h.insertInterior hash stop len pos slots := by
  obtain ⟨n, rfl⟩ := Nat.exists_eq_add_of_le' nonempty
  simp [HistBuf.insertInterior, room, hashed]

/-- A match turn, from the length and the slots that MF_EXTEND and MF_INSERT_INTERIOR answer (41 R177 to R179). -/
theorem EncUnit.matchHere_eq {params : Params} {e : EncUnit} {p len : Nat} {slots : SlotTable}
    (extended : e.hb.extend e.stop p e.pos (e.stop - e.pos) 3 = some len)
    (inserted : e.hb.insertInterior params.hash e.stop (len - 1) (e.pos + 1) e.slots = some slots) :
    e.matchHere params p = some { e.takeMatch (offsetCodeOf params e.profile) p len with slots := slots } := by
  rw [EncUnit.matchHere, extended]
  exact congrArg (Option.map _) inserted

/-- Settles O26: MF_VERIFY passes, MF_EXTEND is maximal, and the slots are those of one insertion of the whole match. -/
theorem referenceFinderMatchTurn : Obligations.ReferenceFinderMatchTurn := by
  intro s hv p next finder late room hashed held agree
  have good := next.inv.enc
  have scan := good.scan next.encBusy
  have atEnd := scan.atEnd
  have earlier := scan.slot_earlier held
  have verified : s.enc.hb.agree p s.enc.pos 3 = some true :=
    (good.hist.agree_iff (by omega) (by omega) true).mpr (iff_of_true rfl agree)
  obtain ⟨len, extended, long, inside, agreeAll, maximal⟩ :=
    good.hist.extend_maximal (Nat.le_of_eq atEnd) earlier (s.enc.stop - s.enc.pos) 3 room (by omega) agree
  obtain ⟨slots, inserted, stands, frame⟩ :=
    good.hist.insertInterior_exact s.params.hash (Nat.le_of_eq atEnd) len s.enc.pos s.enc.slots
  refine ⟨len, slots, (State.EncAlone.of_scanNext next).step_turn next.left ?_, long, inside, agreeAll, maximal, stands,
    frame⟩
  calc s.enc.scanOne s.params
      = (s.enc.lookedUp hv).choose s.params := EncUnit.scanOne_reference finder room hashed
    _ = (s.enc.lookedUp hv).matchHere s.params p :=
      EncUnit.choose_verified s.params (e := s.enc.lookedUp hv) late held verified
    _ = _ := EncUnit.matchHere_eq extended
      ((HistBuf.insertInterior_lookup s.enc.slots room hashed (by omega)).trans inserted)
    _ = _ := by simp only [EncUnit.lookedUp, held]; rfl

/-! ### Chunks too short for a match (44 R281, R295) -/

/-- A literal has at least eight bits (42 R202). -/
theorem literalForm_width_ge (c : Byte) : 8 ≤ (literalForm c).width := by
  unfold literalForm
  split <;> simp [Instr.width]

/-- One step, then a bounded run. -/
theorem reachesWithin_after_step {n : Nat} {s t u : State} (h : step s = .next t) (r : ReachesWithin n t u) :
    ReachesWithin (n + 1) s u := by
  obtain ⟨k, bound, run⟩ := r
  exact ⟨k + 1, Nat.succ_le_succ bound, run_succ h run⟩

/-- A machine whose encoder moves alone, over the last positions of a chunk that has been written as literals only: each
byte has cost at least eight bits. -/
structure State.LiteralTail (s : State) : Prop where
  alone : s.EncAlone
  good : s.enc.Good
  tail : s.enc.stop < s.enc.pos + 3
  cost : 8 * (s.enc.pos - s.enc.start) ≤ s.enc.out.length

/-- While positions are left, one more becomes a literal, and the tail is still one of literals (41 R180). -/
theorem State.LiteralTail.turn {s : State} (h : s.LiteralTail) (left : s.enc.pos < s.enc.stop) :
    ∃ e, step s = .next { s with enc := e } ∧ State.LiteralTail { s with enc := e } ∧ s.enc.SameCommand e ∧
      e.pos = s.enc.pos + 1 := by
  obtain ⟨alone, good, tail, cost⟩ := h
  obtain ⟨e, scanned, same, emits, goodE, -⟩ := EncUnit.scanOne_spec s.params good alone.running left
  cases emits with
  | literal c _ out pos _ =>
    have bits := literalForm_width_ge c
    have running : e.busy = true := same.busy.trans alone.running
    refine ⟨e, alone.step_turn left scanned, ⟨{ alone with running }, goodE, ?_, ?_⟩, same, pos⟩
    · show e.stop < e.pos + 3
      rw [same.stop, pos]
      omega
    · show 8 * (e.pos - e.start) ≤ e.out.length
      rw [same.start, pos, out, List.length_append, tokenBits_length]
      omega
  | copy _ _ _ _ _ long inside => omega

/-- From a tail of literals the command ends with the expansion fallback: eight bits for each byte save nothing
(44 R279). -/
theorem State.LiteralTail.fallsBack {s : State} (h : s.LiteralTail) :
    ∃ e, e.profile = s.enc.profile ∧
      ReachesWithin (s.enc.stop - s.enc.pos + 1) s (State.encFallback { s with enc := e } s.enc.chunk) := by
  by_cases left : s.enc.pos < s.enc.stop
  · obtain ⟨e, stepped, h', same, pos⟩ := h.turn left
    have shorter : s.enc.stop - s.enc.pos = e.stop - e.pos + 1 := by
      rw [same.stop, pos]
      omega
    obtain ⟨f, profile, reached⟩ := h'.fallsBack
    refine ⟨f, profile.trans same.profile, ?_⟩
    rw [shorter, ← same.chunk]
    exact reachesWithin_after_step stepped reached
  · obtain ⟨alone, good, -, cost⟩ := h
    have loaded := (good.scan alone.running).loaded
    have expands : ceil8 s.enc.out.length ≥ s.enc.chunk.length := by
      unfold ceil8
      omega
    have ends : step s = .next (s.encFallback s.enc.chunk) := by
      rw [step_encAdvance alone.noCommand alone.decIdle alone.running, encAdvance, if_neg left, State.encFinish,
        if_pos expands]
    exact ⟨s.enc, rfl, 1, Nat.le_add_left 1 _, run_succ ends rfl⟩
termination_by s.enc.stop - s.enc.pos

/-- A chunk of at most two bytes is a tail of literals from the start (41 R180). -/
theorem State.LiteralTail.of_load {s : State} {chunk : List Byte} (noCommand : s.inbox = [])
    (decIdle : s.dec.busy = false) (good : s.enc.Good) (ready : s.enc.ready = true)
    (fits : chunk.length ≤ capacity s.enc.profile) (short : chunk.length ≤ 2) :
    State.LiteralTail { s with enc := s.enc.load chunk } where
  alone := ⟨noCommand, decIdle, rfl⟩
  good := good.load ready fits
  tail := by
    rw [EncUnit.load_stop, EncUnit.load_pos]
    omega
  cost := by simp

/-- The FLAGS byte of the fallback in each profile (30 R108). -/
theorem flagsOfFallback_eq (p : Profile) : flagsOfFallback p = if p = .standard then 0x81#8 else 0x80#8 := by
  cases p <;> rfl

/-- Settles O29: one step loads the chunk, at most two make it literals, and one falls back. -/
theorem shortChunksFallBack : Obligations.ShortChunksFallBack := by
  intro s chunk inv ready encIdle decIdle short
  have fits : chunk.length ≤ capacity s.enc.profile := by
    have := capacity_ge s.enc.profile
    omega
  have loads : step (sends s .enc (.encCompress chunk)) =
      .next { s with inbox := [], enc := s.enc.load chunk } := by
    rw [step_sends_encCompress (by omega) encIdle, execEncCompress, ready]
    exact if_neg (Nat.not_lt.mpr fits)
  have tail := State.LiteralTail.of_load (s := { s with inbox := [] }) rfl decIdle inv.enc ready fits short
  obtain ⟨e, profile, k, bound, run⟩ := tail.fallsBack
  refine ⟨_, ⟨k + 1, ?_, run_succ loads run⟩, rfl, rfl, rfl, rfl, rfl, ?_⟩
  · rw [EncUnit.load_stop, EncUnit.load_pos] at bound
    omega
  · rw [State.encFallback_outbox, profile, flagsOfFallback_eq, EncUnit.load_profile]
    rfl

end Sys2Proof.Machine
end

section
/-! What the emitters write: the bits of each chosen form are those of its rule's pseudocode (O6), and FINISH packs them into
bytes padded with 0-bits (O7). -/

namespace Sys2Proof

open Machine

/-! ### Bits of a number -/

/-- `PutBits(v, w)` writes the low `w` bits of `v` only (42 R200). -/
theorem natBits_mod (w v : Nat) : natBits w (v % 2 ^ w) = natBits w v := by
  rw [← natBits_add_mul w w (v / 2 ^ w) (v % 2 ^ w) le_rfl, Nat.div_add_mod']

/-- The low bits of a word, in wire order, are what `PutBits` writes of its number. -/
theorem field_extractLsb'_zero {n : Nat} (w : Nat) (c : BitVec n) : field (c.extractLsb' 0 w) = natBits w c.toNat := by
  rw [field, BitVec.extractLsb'_toNat, Nat.shiftRight_zero, natBits_mod]

theorem bitsNat_replicate_true (n : Nat) : bitsNat (List.replicate n true) = 2 ^ n - 1 := by
  induction n with
  | zero => rfl
  | succ n ih =>
    rw [List.replicate_succ, bitsNat_cons, ih, List.length_replicate, Bool.toNat_true, pow_succ]
    have := Nat.two_pow_pos n
    omega

/-- The class code of class `n` is the number `2 ^ n - 2` in `n` bits (30 R103, 42 R206). -/
theorem lomClassCode_eq_natBits {n : Nat} (positive : 1 ≤ n) : lomClassCode n = natBits n (2 ^ n - 2) := by
  obtain ⟨m, rfl⟩ := Nat.exists_eq_add_of_le' positive
  have value : bitsNat (lomClassCode (m + 1)) = 2 ^ (m + 1) - 2 := by
    rw [lomClassCode, bitsNat_append, Nat.add_sub_cancel, bitsNat_replicate_true, pow_succ]
    simp only [List.length_singleton, bitsNat, List.foldl_cons, List.foldl_nil, Bool.toNat_false]
    omega
  have length : (lomClassCode (m + 1)).length = m + 1 := by simp [lomClassCode]
  have code := natBits_bitsNat (lomClassCode (m + 1))
  rw [value, length] at code
  exact code.symm

/-! ### EMIT_LITERAL -/

/-- A literal is its 8 raw bits below `0x80`, and otherwise the bits `10` and its low 7 bits (42 R202). -/
theorem tokenBits_literalForm (c : Byte) : tokenBits (literalForm c) =
    if c.toNat < 0x80 then natBits 8 c.toNat else [true, false] ++ natBits 7 (c.toNat % 0x80) := by
  rw [literalForm]
  split
  next low =>
    have top : c.toNat.testBit 7 = false := Nat.testBit_lt_two_pow low
    have raw : natBits 8 c.toNat = [false] ++ natBits 7 c.toNat := congrArg (· :: natBits 7 c.toNat) top
    rw [raw, tokenBits, field_extractLsb'_zero]
  next => exact congrArg ([true, false] ++ ·) ((field_extractLsb'_zero 7 c).trans (natBits_mod 7 c.toNat).symm)

/-! ### EMIT_OFFSET -/

/-- An offset in the document's code is the code of its range and its distance from the range's base (42 R205). -/
theorem tokenBits_offsetForm_doc {off : Nat} (inRange : off ≤ 65533) : tokenBits (offsetForm .doc off) =
    if off ≤ 63 then [true, true, true, true, true] ++ natBits 6 off
    else if off ≤ 319 then [true, true, true, true, false] ++ natBits 8 (off - 64)
    else if off ≤ 2367 then [true, true, true, false] ++ natBits 11 (off - 320)
    else [true, true, false] ++ natBits 16 (off - 2368) := by
  rw [offsetForm, offsetFormDoc]
  split_ifs <;> rw [tokenBits, field_ofNat (by omega)]

/-- An offset in RFC2118's code, likewise (42 R205). -/
theorem tokenBits_offsetForm_rfc2118 {off : Nat} (inRange : off ≤ 8191) : tokenBits (offsetForm .rfc2118 off) =
    if off ≤ 63 then [true, true, true, true] ++ natBits 6 off
    else if off ≤ 319 then [true, true, true, false] ++ natBits 8 (off - 64)
    else [true, true, false] ++ natBits 13 (off - 320) := by
  rw [offsetForm, offsetFormLegacy]
  split_ifs <;> rw [tokenBits, field_ofNat (by omega)]

/-! ### EMIT_LOM -/

/-- The class code and the value field of a class, for a length of that class, are two numbers in `n` bits each
(42 R206). -/
theorem lomClassCode_append_field {n len : Nat} (positive : 1 ≤ n) (inClass : len < 2 ^ (n + 1)) :
    lomClassCode n ++ field (BitVec.ofNat n (len - 2 ^ n)) = natBits n (2 ^ n - 2) ++ natBits n (len - 2 ^ n) := by
  have fits : len - 2 ^ n < 2 ^ n := by
    rw [pow_succ] at inClass
    have := Nat.two_pow_pos n
    omega
  rw [lomClassCode_eq_natBits positive, field_ofNat fits]

/-- A length of 3 is one 0-bit, and a longer one its class `floor_log2(L)` and its distance from `2 ^ floor_log2(L)`
(42 R206). -/
theorem tokenBits_lengthForm {len : Nat} (least : 3 ≤ len) (greatest : len ≤ 65535) : tokenBits (lengthForm len) =
    if len = 3 then [false]
    else natBits (Nat.log2 len) (2 ^ Nat.log2 len - 2) ++ natBits (Nat.log2 len) (len - 2 ^ Nat.log2 len) := by
  obtain ⟨classLeast, classGreatest, -, below⟩ := log2_range least greatest
  split
  next three => rw [three]; rfl
  next notThree =>
    rw [lengthForm]
    generalize len.log2 = n at *
    interval_cases n
    · omega
    all_goals exact lomClassCode_append_field (by decide) below

/-- Settles O6: each emitter's form, written in bits. -/
theorem emittedBitsFollowThePseudocode : Obligations.EmittedBitsFollowThePseudocode :=
  ⟨tokenBits_literalForm, fun _ _ => tokenBits_offsetForm_doc, fun _ _ => tokenBits_offsetForm_rfc2118,
    fun _ => tokenBits_lengthForm⟩

/-! ### FINISH -/

/-- Settles O7: `packBits_length`, and the padding of `bytesBits_packBits`. -/
theorem finishPadsWithZeroBits : Obligations.FinishPadsWithZeroBits := by
  intro bs
  obtain ⟨pad, holds, short⟩ := bytesBits_packBits bs
  exact ⟨packBits_length bs, pad, short, holds⟩

end Sys2Proof
end

section
/-! A running DEC_DECOMPRESS, step by step: the part that the bits at `BITPOS` decode to is run (O14), a part that was cut
off raises TRUNCATED (O38), fewer than eight bits end the stream (O39), and, since each part moves `BITPOS` on, every
packet ends (O52). -/

namespace Sys2Proof.Machine

open Claims

/-! ### Parts with more bits behind them, and parts cut off -/

/-- A token head that was read is read alike with more bits behind it (30 R105). -/
theorem decodeHead_append {code : OffsetCode} {bs rest : Bits} {i : Instr} (more : Bits)
    (h : decodeHead code bs = some (i, rest)) : decodeHead code (bs ++ more) = some (i, rest ++ more) := by
  match code, bs, h with
  | _, false :: r, h | _, true :: false :: r, h
  | .doc, true :: true :: false :: r, h | .doc, true :: true :: true :: false :: r, h
  | .doc, true :: true :: true :: true :: false :: r, h | .doc, true :: true :: true :: true :: true :: r, h
  | .rfc2118, true :: true :: false :: r, h | .rfc2118, true :: true :: true :: false :: r, h
  | .rfc2118, true :: true :: true :: true :: r, h =>
    obtain ⟨v, rfl, rfl⟩ := asInstr_exact h
    simp only [List.cons_append, List.append_assoc]
    exact asInstr_field _ v (rest ++ more)

/-- A length-of-match part that was read is read alike with more bits behind it (43 R242). -/
theorem decodeLom_append {bs rest : Bits} {i : Instr} (more : Bits) (h : decodeLom bs = some (i, rest)) :
    decodeLom (bs ++ more) = some (i, rest ++ more) := by
  have lom : i.context = .lom := (decodeLom_some h).2
  have read := decodePart_tokenBits (i := i) (by simp [lom]) (rest ++ more)
  rw [lom] at read
  rw [decodeLom_exact h, List.append_assoc]
  exact read

/-- A strict beginning of a part's bits holds no part: it would be read, with bits left, from the whole part's bits too
(43 R233). -/
theorem decodePart_cut {c : Context} {i : Instr} {bs missing : Bits} (whole : decodePart c (tokenBits i) = some (i, []))
    (cut : tokenBits i = bs ++ missing) (lacking : missing ≠ []) : decodePart c bs = none := by
  by_contra read
  obtain ⟨⟨j, rest⟩, read⟩ := Option.ne_none_iff_exists'.mp read
  have again : decodePart c (bs ++ missing) = some (j, rest ++ missing) :=
    match c, read with
    | .head _, read => decodeHead_append missing read
    | .lom, read => decodeLom_append missing read
  rw [← cut, whole] at again
  have left : [] = rest ++ missing := congrArg Prod.snd (Option.some.inj again)
  exact lacking (List.append_eq_nil_iff.mp left.symm).2

/-! ### What a running decoder fetches -/

/-- A token head is read while 8 or more bits remain (43 R232, R234). -/
theorem State.fetchPart_head {s : State} (head : s.dec.part = .head) (enough : s.dec.bitPos + 8 ≤ 8 * s.dec.input.length) :
    s.fetchPart = s.startToken.runPart (decodeHead (offsetCodeOf s.params s.dec.profile) s.dec.bitsLeft) := by
  simp only [State.fetchPart, head, if_neg (Nat.not_lt.mpr enough)]

/-- Where fewer than 8 bits remain the stream ends (43 R232). -/
theorem State.fetchPart_end {s : State} (head : s.dec.part = .head) (few : 8 * s.dec.input.length < s.dec.bitPos + 8) :
    s.fetchPart = .settle (decFinish s) := by
  simp only [State.fetchPart, head, if_pos few]

/-- After a copy-offset part the length-of-match part is read (43 R234). -/
theorem State.fetchPart_lom {s : State} (lom : s.dec.part = .lom) : s.fetchPart = s.runPart (decodeLom s.dec.bitsLeft) := by
  simp only [State.fetchPart, lom]

/-- With nothing sent, a running decoder's next part is what the machine fetches (log 20). -/
theorem State.fetch_running {s : State} (noCommand : s.inbox = []) (running : s.dec.busy = true) :
    s.fetch = s.fetchPart := by
  simp [State.fetch, noCommand, State.advance, running]

/-- While no transaction arrives, a running decoder's next part is what the machine fetches (log 4, log 20). -/
theorem State.fetch_waiting {s : State} {later : List HostCommand} (running : s.dec.busy = true)
    (waiting : s.inbox = [] ∧ later = [] ∨ ∃ c cs, s.inbox = c :: cs ∧ c.due s = false ∧ later = c.tick :: cs) :
    s.fetch = State.fetchPart { s with inbox := later } := by
  obtain ⟨empty, rfl⟩ | ⟨c, cs, sent, notDue, rfl⟩ := waiting
  · have same : { s with inbox := [] } = s := by rw [← empty]
    rw [same, State.fetch_running empty running]
  · simp [State.fetch, sent, notDue, State.advance, running]

/-- What was fetched to be run is run. -/
theorem step_of_fetch_run {s t : State} {i : Instr} (h : s.fetch = .run i t) : step s = exec i t := by
  rw [step, h]

/-- What was fetched settled is the step's outcome. -/
theorem step_of_fetch_settle {s : State} {o : Host.Outcome State Fault Refusal} (h : s.fetch = .settle o) : step s = o := by
  rw [step, h]

/-- Settles O14: the fetched part is the one read at `BITPOS`, which is then run. -/
theorem stepRunsTheDecodedTokenPart : Obligations.StepRunsTheDecodedTokenPart := by
  intro s later i rest running waiting
  have fetched := State.fetch_waiting running waiting
  refine ⟨fun head enough decoded => ?_, fun lom decoded => ?_⟩
  · apply step_of_fetch_run
    rw [fetched, State.fetchPart_head (s := { s with inbox := later }) head enough]
    exact congrArg (State.runPart _) decoded
  · apply step_of_fetch_run
    rw [fetched, State.fetchPart_lom (s := { s with inbox := later }) lom]
    exact congrArg (State.runPart _) decoded

/-! ### The bits run out -/

/-- Settles O38: a part that was cut off is not read, so TRUNCATED is raised. -/
theorem truncatedTokenRaises : Obligations.TruncatedTokenRaises := by
  intro s i missing next lacking cut
  refine ⟨fun head enough reads => ?_, fun lom context => ?_⟩
  · have whole : decodeHead (offsetCodeOf s.params s.dec.profile) (tokenBits i ++ []) = some (i, []) := by
      obtain ⟨n, literal⟩ | context := reads
      · exact decodeHead_literal literal _ []
      · have read := decodePart_tokenBits (i := i) (by simp [context]) []
        rwa [context] at read
    rw [List.append_nil] at whole
    have unread : decodeHead _ _ = none := decodePart_cut (c := .head _) whole cut lacking
    apply step_of_fetch_settle
    rw [State.fetch_running next.noCommand next.decBusy, State.fetchPart_head head enough, DecUnit.bitsLeft, unread]
    rfl
  · have whole := decodePart_tokenBits (i := i) (by simp [context]) []
    rw [context, List.append_nil] at whole
    have unread : decodeLom _ = none := decodePart_cut whole cut lacking
    apply step_of_fetch_settle
    rw [State.fetch_running next.noCommand next.decBusy, State.fetchPart_lom lom, DecUnit.bitsLeft, unread]
    rfl

/-! ### The stream ends -/

/-- The end of a stream answers the bytes from `OUTSTART` to the cursor (43 R250, R251). -/
theorem decFinish_of_readRange {s : State} {out : List Byte}
    (read : s.dec.hb.readRange s.dec.outStart (s.dec.hb.cursor - s.dec.outStart) = some out) :
    decFinish s = .next { s with
      dec := { s.dec with busy := false }
      outbox := answered s .dec (decompressReply out) } := by
  rw [decFinish, read]
  rfl

/-- Settles O39: a good buffer has every byte from `OUTSTART` to the cursor, and these are the answer. -/
theorem streamEndsInsideTheLastByte : Obligations.StreamEndsInsideTheLastByte := by
  intro s inv next head few
  have below : s.dec.outStart ≤ s.dec.hb.cursor := (inv.dec.stream next.decBusy).outputStart
  obtain ⟨out, read⟩ := inv.dec.hist.readRange (i := s.dec.outStart) (n := s.dec.hb.cursor - s.dec.outStart) (by omega)
  obtain ⟨length, bytes⟩ := (HistBuf.readRange_iff _ _ _ _).mp read
  refine ⟨out, ?_, length, fun k hk => ?_⟩
  · have fetched := (State.fetch_running next.noCommand next.decBusy).trans (State.fetchPart_end head few)
    exact (step_of_fetch_settle fetched).trans (decFinish_of_readRange read)
  · rw [← HistBuf.read_of_lt (by omega), bytes k (by omega)]

/-! ### Every packet ends -/

/-- What one step of a running packet does: it ends the packet with one answer, or answers nothing and moves `BITPOS` on in
the same payload (43 R231, R232). The encoder and the host's queue are as they were. -/
structure State.PacketTurn (s t : State) : Prop where
  enc : t.enc = s.enc
  inbox : t.inbox = s.inbox
  ends : (t.dec.busy = false ∧ ∃ bytes, t.outbox = answered s .dec bytes) ∨
    (t.dec.busy = s.dec.busy ∧ t.outbox = s.outbox ∧ t.dec.input = s.dec.input ∧ s.dec.bitPos < t.dec.bitPos)

/-- The end of the stream is a turn. -/
theorem decFinish_packetTurn {s t : State} (h : decFinish s = .next t) : s.PacketTurn t := by
  unfold decFinish at h
  split at h <;> cases h
  exact ⟨rfl, rfl, .inl ⟨rfl, _, rfl⟩⟩

/-- A part that was read, of at least one bit, is a turn (43 R231). -/
theorem State.PacketTurn.of_part {s t : State} {i : Instr} (part : i.context ≠ .command) (bits : 1 ≤ i.width)
    (h : exec i (s.passBits i.width) = .next t) : s.PacketTurn t := by
  obtain ⟨enc, -, inbox, ends⟩ := exec_part_effect part h
  refine ⟨enc, inbox, ends.imp_right fun ⟨running, quiet, input, bitPos⟩ => ⟨running, quiet, input, ?_⟩⟩
  rw [bitPos, State.passBits_dec]
  exact Nat.lt_add_of_pos_right bits

/-- A fetched part is a turn where it is read with at least one bit: it runs, or TRUNCATED ends the packet (43 R233). -/
theorem step_packetTurn_of_runPart {s u : State} {r : Option (Instr × Bits)} (fetched : s.fetch = u.runPart r)
    (good : (u.runPart r).Good) (read : ∀ i rest, r = some (i, rest) → i.context ≠ .command ∧ 1 ≤ i.width) :
    ∃ t, step s = .next t ∧ Inv t ∧ u.PacketTurn t := by
  cases r with
  | none =>
    obtain ⟨t, next, inv⟩ | refused := good
    · cases next
      exact ⟨_, step_of_fetch_settle fetched, inv, rfl, rfl, .inl ⟨rfl, _, rfl⟩⟩
    · cases refused
  | some p =>
    obtain ⟨part, bits⟩ := read p.1 p.2 rfl
    obtain ⟨t, next, inv⟩ := exec_part_inv part good.2
    exact ⟨t, (step_of_fetch_run fetched).trans next, inv, .of_part part bits next⟩

/-- Every step of a running packet, from a good state, is a turn that leaves a good state. -/
theorem step_packetTurn {s : State} (inv : Inv s) (noCommand : s.inbox = []) (running : s.dec.busy = true) :
    ∃ t, step s = .next t ∧ Inv t ∧ s.PacketTurn t := by
  have good := State.fetchPart_good inv running
  have fetched := State.fetch_running noCommand running
  cases part : s.dec.part with
  | head =>
    by_cases few : 8 * s.dec.input.length < s.dec.bitPos + 8
    · rw [State.fetchPart_end part few] at fetched
      obtain ⟨t, next, inv'⟩ := decFinish_inv inv running
      exact ⟨t, (step_of_fetch_settle fetched).trans next, inv', decFinish_packetTurn next⟩
    · rw [State.fetchPart_head part (Nat.not_lt.mp few)] at fetched good
      obtain ⟨t, next, inv', turn⟩ := step_packetTurn_of_runPart fetched good fun i rest decoded => by
        obtain ⟨⟨-, -, bits⟩, code, context⟩ := decodeHead_some decoded
        exact ⟨by simp [context], Nat.le_trans (by decide) bits⟩
      exact ⟨t, next, inv', turn.enc, turn.inbox, turn.ends⟩
  | lom =>
    rw [State.fetchPart_lom part] at fetched good
    exact step_packetTurn_of_runPart fetched good fun i rest decoded => by
      obtain ⟨⟨-, -, bits⟩, context⟩ := decodeLom_some decoded
      exact ⟨by simp [context], bits⟩

/-- Settles O52: a turn that does not end the packet leaves fewer bits, and with none left the next turn ends it. -/
theorem everyPacketEnds : Obligations.EveryPacketEnds := by
  intro s inv noCommand running
  obtain ⟨t, stepped, inv', enc, inbox, ⟨idle, bytes, out⟩ | ⟨still, quiet, input, moved⟩⟩ :=
    step_packetTurn inv noCommand running
  · exact ⟨t, bytes, ⟨1, Nat.le_add_left 1 _, run_succ stepped rfl⟩, idle, enc, out⟩
  · have inside : t.dec.bitPos ≤ 8 * t.dec.input.length := (inv'.dec.stream (still.trans running)).bitPos
    have fewer : 8 * t.dec.input.length - t.dec.bitPos + 1 ≤ 8 * s.dec.input.length - s.dec.bitPos := by
      rw [input] at inside ⊢
      omega
    obtain ⟨u, bytes, ⟨k, bound, run⟩, idle, enc', out⟩ :=
      everyPacketEnds t inv' (inbox.trans noCommand) (still.trans running)
    refine ⟨u, bytes, ⟨k + 1, by omega, run_succ stepped run⟩, idle, enc'.trans enc, ?_⟩
    rw [out, answered, answered, quiet]
termination_by s => 8 * s.dec.input.length - s.dec.bitPos

end Sys2Proof.Machine
end

section
/-! The decoder's tokens, at their limits and in range: a literal at CAPACITY (O31) and the reserved length code (O37) raise
their errors, and a match with its operands in range copies its bytes (O33, O35). -/

namespace Sys2Proof.Machine

open Claims

/-- Settles O31: at CAPACITY a literal raises instead of appending. -/
theorem literalAtCapacityOverflows : Obligations.LiteralAtCapacityOverflows := by
  intro s i n literal full
  rw [exec_literal literal, decodeLiteral_eq, if_neg (Nat.not_lt.mpr full)]
  rfl

/-- Settles O37: the reserved code's meaning is its error. -/
theorem reservedLengthCodeRaises : Obligations.ReservedLengthCodeRaises :=
  fun _ => rfl

/-- A match has at least one byte (30 R103). -/
theorem lengthMeans_pos {i : Instr} {len : Nat} (length : LengthMeans i len) : 1 ≤ len :=
  match i, length with
  | .lom3, rfl => Nat.le_add_left 1 2
  | .lomC2 _, rfl | .lomC3 _, rfl | .lomC4 _, rfl | .lomC5 _, rfl | .lomC6 _, rfl | .lomC7 _, rfl | .lomC8 _, rfl
  | .lomC9 _, rfl | .lomC10 _, rfl | .lomC11 _, rfl | .lomC12 _, rfl | .lomC13 _, rfl | .lomC14 _, rfl
  | .lomC15 _, rfl => Nat.le_add_right_of_le (by decide)

/-- A copy into a good buffer leaves, at each index it writes, the byte `off` before it (40 R154). -/
theorem HistBuf.copy_byte {off n k cap : Nat} {h h' : HistBuf} (low : 1 ≤ off) (high : off ≤ h.cursor)
    (copied : h.copy off n = some h') (good : h'.Good cap) (written : k < n) :
    ∃ b, tableGet h'.mem (h.cursor + k) = some b ∧ tableGet h'.mem (h.cursor + k - off) = some b := by
  obtain ⟨cursor, -, repeats⟩ := HistBuf.copy_some low high copied
  obtain ⟨b, byte⟩ := good.read (i := h.cursor + k) (by omega)
  refine ⟨b, ?_, ?_⟩
  · rw [← HistBuf.read_of_lt (by omega), byte]
  · rw [← HistBuf.read_of_lt (by omega), ← repeats k written, byte]

/-- Settles O33: operands in range pass the checks of 43 R246, and the copy succeeds. -/
theorem lengthPartsCopyTheMatch : Obligations.LengthPartsCopyTheMatch := by
  intro s i len length good low high fits
  have noError : s.matchError len = none := State.matchError_of_fits (lengthMeans_pos length) low high fits
  obtain ⟨hb, copied, goodAfter⟩ := HistBuf.copy_good good low high fits (capacity_le _)
  obtain ⟨cursor, frame, -⟩ := HistBuf.copy_some low high copied
  exact ⟨hb, (exec_lengthPart length s).trans (executeMatch_copy noError copied), cursor,
    fun _ written => HistBuf.copy_byte low high copied goodAfter written, frame⟩

/-- Settles O35: the copy-offset part writes `OFF`, and from there the length-of-match part copies (O33). -/
theorem matchTokenCopiesFromItsOffset : Obligations.MatchTokenCopiesFromItsOffset := by
  intro s i j off len offset length good low high fits
  obtain ⟨hb, matched, copied⟩ := lengthPartsCopyTheMatch
    { s with dec := { s.dec with off := off, part := .lom } } j len length good low high fits
  exact ⟨_, hb, exec_offsetPart offset s, matched, copied⟩

end Sys2Proof.Machine
end

section
/-! The FLAGS byte as a number, field by field, and with it the packet that starts a token stream (O45). -/

namespace Sys2Proof.Machine

open Claims

/-! ### The fields of FLAGS, as digits of its value (30 R107) -/

theorem flagCompressed_eq (f : Byte) : flagCompressed f = decide (f.toNat / 32 % 2 = 1) :=
  Nat.testBit_eq_decide_div_mod_eq

theorem flagAtFront_eq (f : Byte) : flagAtFront f = decide (f.toNat / 64 % 2 = 1) :=
  Nat.testBit_eq_decide_div_mod_eq

theorem flagFlushed_eq (f : Byte) : flagFlushed f = decide (f.toNat / 128 % 2 = 1) :=
  Nat.testBit_eq_decide_div_mod_eq

/-- A packet's TYPE is a profile's code (10 R33, 44 R283). -/
theorem flagsType_eq_typeOf_iff (f : Byte) (p : Profile) :
    flagsType f = typeOf p ↔ f.toNat % 16 = if p = .standard then 1 else 0 := by
  have value : (flagsType f).toNat = f.toNat % 16 := by
    rw [flagsType, BitVec.extractLsb'_toNat, Nat.shiftRight_zero]
  rw [← BitVec.toNat_inj, value]
  cases p <;> exact Iff.rfl

/-! ### A packet taken in -/

/-- A packet that is not plain, at a unit that is ready and has no fault, and of the unit's TYPE, is taken in
(44 R282 to R288). -/
theorem execDecDecompress_taken {s : State} {flags : Byte} (payload : List Byte) (ready : s.dec.ready = true)
    (noFault : statusCode s.dec.status = 0#2)
    (notPlain : (flagCompressed flags || flagAtFront flags || flagFlushed flags) = true)
    (type : flagsType flags = typeOf s.dec.profile) :
    execDecDecompress flags payload s = .next (s.decPacket flags payload) := by
  have plain : (!flagCompressed flags && !flagAtFront flags && !flagFlushed flags) = false := by
    rw [← Bool.not_or, ← Bool.not_or, notPlain]
    rfl
  simp [execDecDecompress, ready, noFault, plain, type]

/-- A COMPRESSED packet that is not FLUSHED starts a stream, after the packet's reset (44 R285, R288). -/
theorem State.decPacket_compressed {s : State} {flags : Byte} (payload : List Byte)
    (compressed : flagCompressed flags = true) (notFlushed : flagFlushed flags = false) :
    s.decPacket flags payload = { s with dec := (s.dec.openPacket flags).startStream payload } := by
  simp [State.decPacket, compressed, notFlushed]

/-- A packet that is not FLUSHED resets the history where AT_FRONT is set, and its output starts at the cursor (44 R285). -/
theorem DecUnit.openPacket_notFlushed {flags : Byte} (d : DecUnit) (notFlushed : flagFlushed flags = false) :
    d.openPacket flags =
      { d with
        hb := { cursor := if flagAtFront flags then 0 else d.hb.cursor, mem := d.hb.mem }
        outStart := if flagAtFront flags then 0 else d.hb.cursor } := by
  simp only [DecUnit.openPacket, notFlushed, Bool.or_false]
  cases flagAtFront flags <;> rfl

/-- Settles O45: COMPRESSED without FLUSHED starts the stream, and AT_FRONT decides the reset. -/
theorem compressedPacketStartsTheStream : Obligations.CompressedPacketStartsTheStream := by
  intro s flags payload ready noFault kind type cursor
  have compressed : flagCompressed flags = true := by
    rw [flagCompressed_eq]
    exact decide_eq_true (by omega)
  have notFlushed : flagFlushed flags = false := by
    rw [flagFlushed_eq]
    exact decide_eq_false (by omega)
  have front : flagAtFront flags = true ↔ flags.toNat / 32 = 3 := by
    rw [flagAtFront_eq, decide_eq_true_iff]
    omega
  have cursor_eq : cursor = if flagAtFront flags then 0 else s.dec.hb.cursor := if_congr front.symm rfl rfl
  have taken := execDecDecompress_taken payload ready noFault (by simp [compressed])
    ((flagsType_eq_typeOf_iff flags s.dec.profile).mpr type)
  refine taken.trans (congrArg _ ?_)
  rw [State.decPacket_compressed payload compressed notFlushed, DecUnit.openPacket_notFlushed _ notFlushed, cursor_eq]
  rfl

end Sys2Proof.Machine
end

section
/-! The commands of both units in one step: the two INITs (O18, O19), ENC_COMPRESS up to the scan (O20, O21, O22), and
DEC_DECOMPRESS where it starts no stream (O40, O42, O43, O44). -/

namespace Sys2Proof.Machine

open Claims

/-! ### INIT -/

/-- Settles O18: HB_RESET and the registers of 44 R271. -/
theorem encInitInitialises : Obligations.EncInitInitialises :=
  fun _ _ => rfl

/-- Settles O19: HB_RESET and the registers of 44 R272, whatever STATUS was. -/
theorem decInitInitialises : Obligations.DecInitInitialises :=
  fun _ _ => rfl

/-! ### ENC_COMPRESS up to the scan (44 R274 to R278) -/

/-- A chunk longer than CAPACITY is answered with the fallback at once (44 R274). -/
theorem execEncCompress_oversize {s : State} {chunk : List Byte} (ready : s.enc.ready = true)
    (oversize : capacity s.enc.profile < chunk.length) :
    execEncCompress chunk s = .next (s.encFallback chunk) := by
  simp [execEncCompress, ready, oversize]

/-- A chunk that fits CAPACITY is loaded (44 R274, R277). -/
theorem execEncCompress_fits {s : State} {chunk : List Byte} (ready : s.enc.ready = true)
    (fits : chunk.length ≤ capacity s.enc.profile) :
    execEncCompress chunk s = .next { s with enc := s.enc.load chunk } := by
  simp [execEncCompress, ready, Nat.not_lt.mpr fits]

/-- Settles O20: the fallback, with its FLAGS byte in each profile. -/
theorem oversizeChunkFallsBack : Obligations.OversizeChunkFallsBack := by
  intro s chunk ready oversize
  rw [← flagsOfFallback_eq]
  exact execEncCompress_oversize ready oversize

/-- The Fresh start and the capacity check as one condition (44 R275, R276). -/
theorem EncUnit.startsEpoch_eq (e : EncUnit) (chunk : List Byte) :
    e.startsEpoch chunk = decide (e.session = .fresh ∨ capacity e.profile < e.hb.cursor + chunk.length) :=
  (Bool.decide_or _ _).symm

/-- The load of a chunk, register by register (44 R275 to R278). -/
theorem EncUnit.load_eq (e : EncUnit) (chunk : List Byte) :
    let start := if e.startsEpoch chunk then 0 else e.hb.cursor
    e.load chunk =
      { e with
        session := .active, busy := true, chunk := chunk, atFront := e.startsEpoch chunk, start := start, pos := start
        stop := start + chunk.length, out := [], slots := if e.startsEpoch chunk then [] else e.slots
        hb := (if e.startsEpoch chunk then e.hb.reset else e.hb).pushAll chunk } := by
  unfold EncUnit.load
  cases e.startsEpoch chunk <;> rfl

/-- The buffer a chunk is loaded into: emptied where the chunk starts an epoch (44 R275, R276). -/
theorem EncUnit.load_base_cursor (e : EncUnit) (chunk : List Byte) :
    (if e.startsEpoch chunk then e.hb.reset else e.hb).cursor = if e.startsEpoch chunk then 0 else e.hb.cursor :=
  apply_ite HistBuf.cursor _ _ _

/-- Settles O21: the registers of `EncUnit.load_eq`, and the bytes of `HistBuf.pushAll_get`. -/
theorem chunkIsLoadedBeforeTheScan : Obligations.ChunkIsLoadedBeforeTheScan := by
  intro s chunk ready fits
  rw [← EncUnit.startsEpoch_eq]
  intro atf start
  have base : (if atf then s.enc.hb.reset else s.enc.hb).cursor = start := s.enc.load_base_cursor chunk
  have mem : (if atf then s.enc.hb.reset else s.enc.hb).mem = s.enc.hb.mem :=
    (apply_ite HistBuf.mem _ _ _).trans (ite_self _)
  have held := HistBuf.pushAll_get (if atf then s.enc.hb.reset else s.enc.hb) chunk
  rw [base, mem] at held
  refine ⟨(if atf then s.enc.hb.reset else s.enc.hb).pushAll chunk, ?_, ?_, fun k inside => ?_, fun a outside => ?_⟩
  · exact (execEncCompress_fits ready fits).trans
      (congrArg (fun e => Host.Outcome.next { s with enc := e }) (s.enc.load_eq chunk))
  · rw [HistBuf.pushAll_cursor, base]
  · rw [held, if_pos (by omega), Nat.add_sub_cancel_left]
  · rw [held, if_neg (by omega)]

/-- Settles O22: the two sides of the strict comparison, and the load on each. -/
theorem capacityCheckIsStrict : Obligations.CapacityCheckIsStrict := by
  intro s chunk ready active fits
  have loads := execEncCompress_fits ready fits
  refine ⟨fun full => ⟨_, loads, ?_⟩, fun above => ⟨_, loads, ?_⟩⟩
  · have continues : s.enc.startsEpoch chunk = false := by
      rw [EncUnit.startsEpoch_eq, active, full]
      simp
    simp [continues, full]
  · have starts : s.enc.startsEpoch chunk = true := by
      rw [EncUnit.startsEpoch_eq, above]
      simp
    simp [starts]

/-! ### DEC_DECOMPRESS where it starts no stream (44 R283 to R287) -/

/-- A packet is plain where its FLAGS byte is below `0x20` (30 R107, 44 R284). -/
theorem plain_iff (f : Byte) :
    (flagCompressed f || flagAtFront f || flagFlushed f) = false ↔ f.toNat < 0x20 := by
  have := f.isLt
  simp only [flagCompressed_eq, flagAtFront_eq, flagFlushed_eq, Bool.or_eq_false_iff, decide_eq_false_iff_not]
  omega

/-- A plain packet at a unit that is ready and has no fault is passed through (44 R284). -/
theorem execDecDecompress_plain {s : State} {flags : Byte} (payload : List Byte) (ready : s.dec.ready = true)
    (noFault : statusCode s.dec.status = 0#2)
    (plain : (flagCompressed flags || flagAtFront flags || flagFlushed flags) = false) :
    execDecDecompress flags payload s = .next (s.reply .dec (decompressReply payload)) := by
  simp only [Bool.or_eq_false_iff] at plain
  simp [execDecDecompress, ready, noFault, plain]

/-- Settles O40: `execDecDecompress_plain`. -/
theorem plainPacketPassesThrough : Obligations.PlainPacketPassesThrough :=
  fun _ flags payload ready noFault low => execDecDecompress_plain payload ready noFault ((plain_iff flags).mpr low)

/-- A packet that is not plain and not of the unit's TYPE raises (44 R283). -/
theorem execDecDecompress_mismatch {s : State} {flags : Byte} (payload : List Byte) (ready : s.dec.ready = true)
    (noFault : statusCode s.dec.status = 0#2)
    (notPlain : (flagCompressed flags || flagAtFront flags || flagFlushed flags) = true)
    (type : flagsType flags ≠ typeOf s.dec.profile) :
    execDecDecompress flags payload s = .next (s.raise (mismatchOf flags) 0) := by
  simp [execDecDecompress, ready, noFault, ← Bool.not_or, notPlain, type]

/-- TYPE is the low four bits of FLAGS (30 R107). -/
theorem flagsType_toNat (f : Byte) : (flagsType f).toNat = f.toNat % 16 := by
  rw [flagsType, BitVec.extractLsb'_toNat, Nat.shiftRight_zero]

/-- The STATUS byte of a wrong TYPE (60 R320, R323). -/
theorem mismatchOf_status (f : Byte) : (mismatchOf f).status = if f.toNat % 16 < 2 then 0x07#8 else 0x0B#8 := by
  rw [mismatchOf, flagsType_toNat, apply_ite DecError.status]
  rfl

/-- Settles O42: the packet is not plain, and its TYPE is not the unit's. -/
theorem wrongTypeRaisesProfileMismatch : Obligations.WrongTypeRaisesProfileMismatch := by
  intro s flags payload ready noFault high type
  have notPlain : (flagCompressed flags || flagAtFront flags || flagFlushed flags) = true := by
    rw [← Bool.not_eq_false, plain_iff]
    exact Nat.not_lt.mpr high
  rw [← mismatchOf_status]
  exact execDecDecompress_mismatch payload ready noFault notPlain
    (mt (flagsType_eq_typeOf_iff flags s.dec.profile).mp type)

/-- A packet with AT_FRONT or FLUSHED set resets the history (44 R285). -/
theorem DecUnit.openPacket_reset {flags : Byte} (d : DecUnit) (reset : (flagAtFront flags || flagFlushed flags) = true) :
    d.openPacket flags = { d with hb := d.hb.reset, outStart := 0 } := by
  simp only [DecUnit.openPacket, reset]
  rfl

/-- A FLUSHED packet resets the history and appends its payload where it fits (44 R285, R286). -/
theorem State.decPacket_flushed {s : State} {flags : Byte} (payload : List Byte) (flushed : flagFlushed flags = true) :
    s.decPacket flags payload = State.reply
      { s with dec := { s.dec with
          hb := if payload.length ≤ capacity s.dec.profile then s.dec.hb.reset.pushAll payload else s.dec.hb.reset
          outStart := 0 } }
      .dec (decompressReply payload) := by
  simp only [State.decPacket, flushed, DecUnit.openPacket_reset s.dec (flags := flags) (by simp [flushed]),
    DecUnit.appendRaw]
  by_cases fits : payload.length ≤ capacity s.dec.profile <;> simp [fits]

/-- AT_FRONT alone resets the history and passes the payload through (44 R285, R287). -/
theorem State.decPacket_atFront {s : State} {flags : Byte} (payload : List Byte) (front : flagAtFront flags = true)
    (notFlushed : flagFlushed flags = false) (notCompressed : flagCompressed flags = false) :
    s.decPacket flags payload = State.reply
      { s with dec := { s.dec with hb := s.dec.hb.reset, outStart := 0 } } .dec (decompressReply payload) := by
  simp [State.decPacket, notFlushed, notCompressed, DecUnit.openPacket_reset s.dec (flags := flags) (by simp [front])]

/-- Settles O43: the packet is taken in, and the payload is appended to the emptied history where it fits. -/
theorem flushedPacketIsFoldedIntoHistory : Obligations.FlushedPacketIsFoldedIntoHistory := by
  intro s flags payload ready noFault high type
  have flushed : flagFlushed flags = true := by
    have := flags.isLt
    rw [flagFlushed_eq]
    exact decide_eq_true (by omega)
  have taken := execDecDecompress_taken payload ready noFault (by simp [flushed])
    ((flagsType_eq_typeOf_iff flags s.dec.profile).mpr type)
  refine ⟨_, taken.trans (congrArg _ (State.decPacket_flushed payload flushed)), fun fits => ?_, fun above => ?_⟩
  · rw [if_pos fits]
    have held := HistBuf.pushAll_get s.dec.hb.reset payload
    simp only [HistBuf.reset_cursor, HistBuf.reset_mem, Nat.zero_add, Nat.zero_le, true_and, Nat.sub_zero] at held
    refine ⟨by simp, fun k inside => ?_, fun a outside => ?_⟩
    · rw [held, if_pos inside]
    · rw [held, if_neg (Nat.not_lt.mpr outside)]
  · rw [if_neg (Nat.not_le.mpr above)]
    exact ⟨rfl, rfl⟩

/-- Settles O44: the packet is taken in, with AT_FRONT alone set. -/
theorem atFrontAlonePassesThrough : Obligations.AtFrontAlonePassesThrough := by
  intro s flags payload ready noFault kind type
  have front : flagAtFront flags = true := by
    rw [flagAtFront_eq]
    exact decide_eq_true (by omega)
  have notFlushed : flagFlushed flags = false := by
    rw [flagFlushed_eq]
    exact decide_eq_false (by omega)
  have notCompressed : flagCompressed flags = false := by
    rw [flagCompressed_eq]
    exact decide_eq_false (by omega)
  have taken := execDecDecompress_taken payload ready noFault (by simp [front])
    ((flagsType_eq_typeOf_iff flags s.dec.profile).mpr type)
  exact taken.trans (congrArg _ (State.decPacket_atFront payload front notFlushed notCompressed))

end Sys2Proof.Machine
end

section
/-! The end of an ENC_COMPRESS: the expansion check (O23), and that every scan reaches it, having written a token stream that
copies the chunk (O53). -/

namespace Sys2Proof.Machine

open Claims

/-! ### The expansion check (44 R279, R280) -/

/-- The FLAGS byte of the compressed result in each case (30 R108). -/
theorem flagsOfCompressed_eq (atFront : Bool) (p : Profile) :
    flagsOfCompressed atFront p =
      if atFront then 0x60#8 ||| (if p = .standard then 0x01#8 else 0x00#8)
      else 0x20#8 ||| (if p = .standard then 0x01#8 else 0x00#8) := by
  cases atFront <;> cases p <;> rfl

/-- The end of a scan whose output is smaller than its chunk (44 R280). -/
theorem State.encFinish_smaller {s : State} (smaller : ceil8 s.enc.out.length < s.enc.chunk.length) :
    s.encFinish = s.encResult :=
  if_neg (Nat.not_le.mpr smaller)

/-- The end of a scan whose output is not smaller than its chunk (44 R279). -/
theorem State.encFinish_expands {s : State} (expands : s.enc.chunk.length ≤ ceil8 s.enc.out.length) :
    s.encFinish = s.encFallback s.enc.chunk :=
  if_pos expands

/-- A machine whose encoder moves alone ends its scan in one step when no position is left (44 R278). -/
theorem State.EncAlone.step_finish {s : State} (alone : s.EncAlone) (done : s.enc.pos = s.enc.stop) :
    step s = .next s.encFinish := by
  rw [step_encAdvance alone.noCommand alone.decIdle alone.running, encAdvance, if_neg (Nat.not_lt.mpr done.ge)]

/-- Settles O23: the end of the scan, on each side of the check. -/
theorem expansionCheckAnswers : Obligations.ExpansionCheckAnswers := by
  intro s noCommand decIdle running done t
  have finishes := State.EncAlone.step_finish ⟨noCommand, decIdle, running⟩ done
  refine ⟨fun smaller => ?_, fun expands => ?_⟩
  · rw [finishes, State.encFinish_smaller smaller, ← flagsOfCompressed_eq, ceil8, ← packBits_length]
    rfl
  · have flags : 0x80#8 ||| t = flagsOfFallback s.enc.profile := by
      show 0x80#8 ||| (if s.enc.profile = .standard then 0x01#8 else 0x00#8) = _
      cases s.enc.profile <;> rfl
    rw [finishes, State.encFinish_expands expands, flags]
    rfl

/-! ### What a whole scan writes -/

/-- The bits are a token stream of the positions from the first number to the second: each token is the literal at its
position, or a verified match with the bounds of 41 R182 (30 R100, 41 R181). -/
inductive HistBuf.TokenStream (code : OffsetCode) (h : HistBuf) : Nat → Nat → Bits → Prop
  | done (p : Nat) : TokenStream code h p p []
  | literal {p q : Nat} {bits : Bits} (c : Byte) (byte : h.read p = some c) (rest : TokenStream code h (p + 1) q bits) :
      TokenStream code h p q (tokenBits (literalForm c) ++ bits)
  | copy {p q : Nat} {bits : Bits} (off len : Nat) (low : 1 ≤ off) (high : off ≤ p) (long : 3 ≤ len)
      (verified : ∀ k, k < len → ∃ b, h.read (p + k - off) = some b ∧ h.read (p + k) = some b)
      (rest : TokenStream code h (p + len) q bits) :
      TokenStream code h p q (tokenBits (offsetForm code off) ++ (tokenBits (lengthForm len) ++ bits))

/-- A token stream goes forward. -/
theorem HistBuf.TokenStream.le {code : OffsetCode} {h : HistBuf} {p q : Nat} {bits : Bits}
    (stream : h.TokenStream code p q bits) : p ≤ q := by
  induction stream with
  | done => exact Nat.le_refl _
  | literal _ _ _ ih => omega
  | copy _ _ _ _ _ _ _ ih => omega

/-- The token of a turn, before a stream of the positions after it, is a stream of the positions from this one. -/
theorem EncUnit.Emits.prepend {params : Params} {e e' : EncUnit} {q : Nat} {bits : Bits} (emits : e.Emits params e')
    (rest : e.hb.TokenStream (offsetCodeOf params e.profile) e'.pos q bits) :
    ∃ token, e'.out = e.out ++ token ∧
      e.hb.TokenStream (offsetCodeOf params e.profile) e.pos q (token ++ bits) := by
  cases emits with
  | literal c byte out pos _ => exact ⟨_, out, .literal c byte (pos ▸ rest)⟩
  | copy off len _ low high long _ out pos _ verified =>
    refine ⟨_, out.trans (List.append_assoc ..), ?_⟩
    rw [List.append_assoc]
    exact .copy off len low high long verified (pos ▸ rest)

/-- What stays over two turns of a scan. -/
theorem EncUnit.SameCommand.trans {e f g : EncUnit} (h₁ : e.SameCommand f) (h₂ : f.SameCommand g) : e.SameCommand g where
  ready := h₂.ready.trans h₁.ready
  profile := h₂.profile.trans h₁.profile
  session := h₂.session.trans h₁.session
  hb := h₂.hb.trans h₁.hb
  status := h₂.status.trans h₁.status
  busy := h₂.busy.trans h₁.busy
  chunk := h₂.chunk.trans h₁.chunk
  atFront := h₂.atFront.trans h₁.atFront
  start := h₂.start.trans h₁.start
  stop := h₂.stop.trans h₁.stop

/-- An encoder that has been scanned to its end from this one: the command's registers are as they were, and the output has
grown by a token stream of the positions that were left (41 R181). -/
structure EncUnit.ScannedTo (params : Params) (e e' : EncUnit) : Prop where
  same : e.SameCommand e'
  done : e'.pos = e'.stop
  written : ∃ bits, e'.out = e.out ++ bits ∧
    e.hb.TokenStream (offsetCodeOf params e.profile) e.pos e.stop bits

/-- A turn, and then a scan to the end, are a scan to the end. -/
theorem EncUnit.ScannedTo.after_turn {params : Params} {e f g : EncUnit} (same : e.SameCommand f)
    (emits : e.Emits params f) (scanned : f.ScannedTo params g) : e.ScannedTo params g := by
  obtain ⟨same', done, bits, out, stream⟩ := scanned
  rw [same.hb, same.profile, same.stop] at stream
  obtain ⟨token, out', stream'⟩ := emits.prepend stream
  exact ⟨same.trans same', done, token ++ bits, by rw [out, out', List.append_assoc], stream'⟩

/-- A machine whose encoder moves alone scans its chunk to the end, in a step for each position or fewer (41 R181). -/
theorem State.EncAlone.reaches_scanEnd {s : State} (alone : s.EncAlone) (good : s.enc.Good) :
    ∃ e, s.enc.ScannedTo s.params e ∧ ReachesWithin (s.enc.stop - s.enc.pos) s { s with enc := e } := by
  by_cases left : s.enc.pos < s.enc.stop
  · obtain ⟨f, turned, same, emits, goodF, further, inside⟩ := EncUnit.scanOne_spec s.params good alone.running left
    have sameStop := same.stop
    obtain ⟨e, scanned, k, bound, run⟩ :=
      State.EncAlone.reaches_scanEnd (s := { s with enc := f }) { alone with running := same.busy.trans alone.running } goodF
    refine ⟨e, scanned.after_turn same emits, k + 1, ?_, run_succ (alone.step_turn left turned) run⟩
    have bound : k ≤ f.stop - f.pos := bound
    omega
  · have done : s.enc.pos = s.enc.stop := Nat.le_antisymm (good.scan alone.running).high (Nat.not_lt.mp left)
    refine ⟨s.enc, ⟨by constructor <;> rfl, done, [], (List.append_nil _).symm, ?_⟩, 0, Nat.zero_le _, rfl⟩
    rw [done]
    exact .done _
termination_by s.enc.stop - s.enc.pos

/-- A bounded run, and then one step. -/
theorem reachesWithin_then_step {n : Nat} {s t u : State} (r : ReachesWithin n s t) (h : step t = .next u) :
    ReachesWithin (n + 1) s u := by
  obtain ⟨k, bound, run⟩ := r
  exact ⟨k + 1, Nat.succ_le_succ bound, (run_add k 1 s t run).trans (run_succ h rfl)⟩

/-- A machine whose encoder moves alone ends its ENC_COMPRESS from an encoder scanned to the end. -/
theorem State.EncAlone.reaches_encFinish {s : State} (alone : s.EncAlone) (good : s.enc.Good) :
    ∃ e, s.enc.ScannedTo s.params e ∧
      ReachesWithin (s.enc.chunk.length + 1) s (State.encFinish { s with enc := e }) := by
  obtain ⟨e, scanned, k, bound, run⟩ := alone.reaches_scanEnd good
  have scan := good.scan alone.running
  have low := scan.low
  have loaded := scan.loaded
  have alone' : State.EncAlone { s with enc := e } := { alone with running := scanned.same.busy.trans alone.running }
  exact ⟨e, scanned, reachesWithin_then_step ⟨k, by omega, run⟩ (alone'.step_finish scanned.done)⟩

/-- Settles O53: the scan reaches its end, and the expansion check answers one way or the other. -/
theorem everyChunkEnds : Obligations.EveryChunkEnds := by
  intro s inv noCommand decIdle running
  obtain ⟨e, scanned, reached⟩ := State.EncAlone.reaches_encFinish ⟨noCommand, decIdle, running⟩ inv.enc
  have same := scanned.same
  rw [← same.chunk] at reached
  rw [← same.chunk, ← same.profile, ← same.atFront, ← same.hb]
  by_cases smaller : ceil8 e.out.length < e.chunk.length
  · rw [State.encFinish_smaller smaller] at reached
    refine ⟨_, reached, rfl, rfl, .inr ⟨packBits e.out, ?_, rfl, ?_, rfl⟩⟩
    · rw [packBits_length]
      exact smaller
    · exact same.session.trans (inv.enc.scan running).active
  · rw [State.encFinish_expands (Nat.not_lt.mp smaller)] at reached
    exact ⟨_, reached, rfl, rfl, .inl ⟨rfl, rfl, rfl, rfl⟩⟩

end Sys2Proof.Machine
end

section
/-! The lock-step round trip (O54): the token stream that a scan wrote, decoded against the same epoch, gives the encoder's
buffer byte by byte, and a FLUSHED packet gives its payload; either way the two ends are in lock-step again (44 R291). -/

namespace Sys2Proof.Machine

open Claims

/-! ### Runs of the machine -/

/-- A well-formed command sent to its own idle unit is run by the next step (30 R112, log 4). -/
theorem step_sends_command {s : State} {i : Instr} (fits : i.wellFormed = true) (command : i.context = .command)
    (idle : s.busy i.unit = false) : step (sends s i.unit i) = exec i { s with inbox := [] } := by
  have decoded : decodeCommand (encode i) = .ok i := by
    rw [encode, command]
    exact decodeCommand_commandBytes fits command
  obtain ⟨lo, hi, rest, bytes, operands⟩ := decodeCommand_operands decoded
  exact step_sends bytes (bytes ▸ decoded) (decodeOperands_unit operands) idle

/-- A run keeps the invariant, since every step does. -/
theorem run_inv {k : Nat} {s t : State} (inv : Inv s) (run : Host.Core.run core k s = .next t) : Inv t := by
  induction k generalizing s with
  | zero =>
    cases run
    exact inv
  | succ k ih =>
    obtain ⟨u, next, invU⟩ | refused := step_good inv
    · have next : core.step s = .next u := next
      simp only [Host.Core.run, next] at run
      exact ih invU run
    · have refused : core.step s = .refused .brokenTransaction := refused
      simp only [Host.Core.run, refused] at run
      cases run

/-- A state that is reached from a good one is good. -/
theorem inv_of_reaches {s t : State} (inv : Inv s) (r : Reaches s t) : Inv t := by
  obtain ⟨_, _, _, run⟩ := r
  exact run_inv inv run

/-- A state reached from a reached state is reached. -/
theorem reaches_trans {s t u : State} (r₁ : Reaches s t) (r₂ : Reaches t u) : Reaches s u := by
  obtain ⟨_, k, _, run₁⟩ := r₁
  obtain ⟨_, m, _, run₂⟩ := r₂
  exact ⟨k + m, k + m, Nat.le_refl _, (run_add k m s t run₁).trans run₂⟩

/-! ### A decoder that follows a token stream -/

/-- A running decoder whose bytes are those of the buffer `g`, and whose bits left are these and then fewer than 8 bits of
padding, with a token head to be read next (43 R232, 42 R207). -/
structure State.Follows (g : HistBuf) (bits : Bits) (s : State) : Prop where
  noCommand : s.inbox = []
  running : s.dec.busy = true
  head : s.dec.part = .head
  bytes : ∀ i, i < s.dec.hb.cursor → s.dec.hb.read i = g.read i
  padded : ∃ pad : Bits, s.dec.bitsLeft = bits ++ pad ∧ pad.length < 8

/-- What stays while a packet's tokens are decoded. -/
structure State.SamePacket (s t : State) : Prop where
  params : t.params = s.params
  enc : t.enc = s.enc
  outbox : t.outbox = s.outbox
  ready : t.dec.ready = s.dec.ready
  profile : t.dec.profile = s.dec.profile
  status : t.dec.status = s.dec.status
  outStart : t.dec.outStart = s.dec.outStart

theorem State.SamePacket.refl (s : State) : s.SamePacket s := by
  constructor <;> rfl

theorem State.SamePacket.trans {s t u : State} (h₁ : s.SamePacket t) (h₂ : t.SamePacket u) : s.SamePacket u where
  params := h₂.params.trans h₁.params
  enc := h₂.enc.trans h₁.enc
  outbox := h₂.outbox.trans h₁.outbox
  ready := h₂.ready.trans h₁.ready
  profile := h₂.profile.trans h₁.profile
  status := h₂.status.trans h₁.status
  outStart := h₂.outStart.trans h₁.outStart

/-- Past a part, the bits that stood behind it are left (43 R231). -/
theorem DecUnit.bitsLeft_pass {d : DecUnit} {i : Instr} {more : Bits} (left : d.bitsLeft = tokenBits i ++ more) :
    (bytesBits d.input).drop (d.bitPos + i.width) = more := by
  have dropped : d.bitsLeft.drop i.width = more := by rw [left, ← tokenBits_length, List.drop_left]
  rw [← List.drop_drop]
  exact dropped

/-- The number of bits left (43 R230). -/
theorem DecUnit.bitsLeft_length (d : DecUnit) : d.bitsLeft.length = 8 * d.input.length - d.bitPos := by
  simp [DecUnit.bitsLeft]

/-- A running decoder whose bits left begin with a token head runs that head (43 R232, R234). -/
theorem step_head {s : State} {i : Instr} {more : Bits} (noCommand : s.inbox = []) (running : s.dec.busy = true)
    (head : s.dec.part = .head) (left : s.dec.bitsLeft = tokenBits i ++ more)
    (read : decodeHead (offsetCodeOf s.params s.dec.profile) (tokenBits i ++ more) = some (i, more)) :
    step s = exec i { s with
      inbox := []
      dec := { s.dec with tokStart := s.dec.bitPos, bitPos := s.dec.bitPos + i.width } } := by
  obtain ⟨⟨inside, -, wide⟩, -⟩ := decodeHead_some read
  rw [← left, DecUnit.bitsLeft_length] at inside
  rw [← left] at read
  exact (stepRunsTheDecodedTokenPart s [] i more running (.inl ⟨noCommand, rfl⟩)).1 head (by omega) read

/-- A running decoder whose bits left begin with a length-of-match part that is due runs that part (43 R234). -/
theorem step_lom {s : State} {i : Instr} {more : Bits} (noCommand : s.inbox = []) (running : s.dec.busy = true)
    (lom : s.dec.part = .lom) (context : i.context = .lom) (left : s.dec.bitsLeft = tokenBits i ++ more) :
    step s = exec i { s with inbox := [], dec := { s.dec with bitPos := s.dec.bitPos + i.width } } := by
  have read := decodePart_tokenBits (i := i) (by simp [context]) more
  rw [context, ← left] at read
  exact (stepRunsTheDecodedTokenPart s [] i more running (.inl ⟨noCommand, rfl⟩)).2 lom read

/-- The literal form of a byte is a literal (42 R202). -/
theorem literalForm_means (c : Byte) : ∃ n, LiteralMeans (literalForm c) n := by
  unfold literalForm
  split <;> exact ⟨_, rfl⟩

/-- A copy-offset form is a token head of its code (42 R205). -/
theorem offsetForm_context (code : OffsetCode) (off : Nat) : (offsetForm code off).context = .head code := by
  cases code
  case doc =>
    show (offsetFormDoc off).context = _
    unfold offsetFormDoc
    split_ifs <;> rfl
  case rfc2118 =>
    show (offsetFormLegacy off).context = _
    unfold offsetFormLegacy
    split_ifs <;> rfl

/-- A length-of-match form is a length-of-match part (42 R206). -/
theorem lengthForm_context (len : Nat) : (lengthForm len).context = .lom := by
  unfold lengthForm
  split <;> rfl

/-- A literal of the followed buffer is appended, and the rest is followed (43 R235, R236). -/
theorem State.Follows.literal {g : HistBuf} {bits : Bits} {c : Byte} {s : State}
    (follows : s.Follows g (tokenBits (literalForm c) ++ bits)) (byte : g.read s.dec.hb.cursor = some c)
    (room : s.dec.hb.cursor < capacity s.dec.profile) :
    ∃ t, Reaches s t ∧ t.Follows g bits ∧ t.dec.hb.cursor = s.dec.hb.cursor + 1 ∧ s.SamePacket t := by
  obtain ⟨noCommand, running, head, bytes, pad, left, short⟩ := follows
  rw [List.append_assoc] at left
  obtain ⟨n, literal⟩ := literalForm_means c
  have stepped := step_head noCommand running head left (decodeHead_literal literal _ _)
  rw [exec_literalForm, decodeLiteral_eq, if_pos room] at stepped
  refine ⟨_, reaches_of_step stepped, ⟨rfl, running, head, fun i below => ?_, pad, DecUnit.bitsLeft_pass left, short⟩,
    rfl, by constructor <;> rfl⟩
  have below : i < s.dec.hb.cursor + 1 := below
  show (s.dec.hb.push c).read i = g.read i
  rw [HistBuf.read_push]
  split
  case isTrue here => rw [here, byte]
  case isFalse elsewhere => exact bytes i (by omega)

/-- RFC2118's code is a LEGACY unit's (30 R104), whose CAPACITY is 8192. -/
theorem capacity_of_rfc2118 {params : Params} {p : Profile} (code : offsetCodeOf params p = .rfc2118) :
    capacity p = 8192 := by
  cases p
  case legacy => rfl
  case standard => cases code

/-- The decoder after a copy-offset part of this many bits (43 R234, R241). -/
def State.offsetRead (s : State) (off width : Nat) : State :=
  { s with
    inbox := []
    dec := { s.dec with tokStart := s.dec.bitPos, bitPos := s.dec.bitPos + width, off := off, part := .lom } }

/-- A copy-offset form of an offset in range is read in one step (42 R205, 43 R241). -/
theorem step_offsetForm {s : State} {off : Nat} {more : Bits} (noCommand : s.inbox = []) (running : s.dec.busy = true)
    (head : s.dec.part = .head) (fits : off + 3 ≤ capacity s.dec.profile)
    (left : s.dec.bitsLeft = tokenBits (offsetForm (offsetCodeOf s.params s.dec.profile) off) ++ more) :
    step s = .next (s.offsetRead off (offsetForm (offsetCodeOf s.params s.dec.profile) off).width) := by
  have cap := capacity_le s.dec.profile
  have legacy (code : offsetCodeOf s.params s.dec.profile = .rfc2118) : off ≤ 8191 := by
    have := capacity_of_rfc2118 code
    omega
  have context := offsetForm_context (offsetCodeOf s.params s.dec.profile) off
  have read := decodePart_tokenBits (by rw [context]; exact nofun) more
  rw [context] at read
  exact (step_head noCommand running head left read).trans (exec_offsetForm _ (by omega) legacy _)

/-- A length-of-match form whose match is in range copies it in one step (42 R206, 43 R246, R249). -/
theorem step_lengthForm {s : State} {len : Nat} {more : Bits} {hb : HistBuf} (noCommand : s.inbox = [])
    (running : s.dec.busy = true) (lom : s.dec.part = .lom) (left : s.dec.bitsLeft = tokenBits (lengthForm len) ++ more)
    (low : 1 ≤ s.dec.off) (high : s.dec.off ≤ s.dec.hb.cursor) (long : 3 ≤ len)
    (fits : s.dec.hb.cursor + len ≤ capacity s.dec.profile) (copied : s.dec.hb.copy s.dec.off len = some hb) :
    step s = .next { s with
      inbox := []
      dec := { s.dec with
        bitPos := s.dec.bitPos + (lengthForm len).width, len := len, part := .head, hb := hb } } := by
  have cap := capacity_le s.dec.profile
  refine (step_lom noCommand running lom (lengthForm_context len) left).trans ?_
  rw [exec_lengthForm long (by omega)]
  exact executeMatch_copy (State.matchError_of_fits (by omega) low high fits) copied

/-- A match that the followed buffer verifies is copied, and the rest is followed (43 R246, R249, 44 R291 item 2). -/
theorem State.Follows.copy {g : HistBuf} {bits : Bits} {off len : Nat} {s : State}
    (follows : s.Follows g (tokenBits (offsetForm (offsetCodeOf s.params s.dec.profile) off) ++
      (tokenBits (lengthForm len) ++ bits)))
    (low : 1 ≤ off) (high : off ≤ s.dec.hb.cursor) (long : 3 ≤ len)
    (fits : s.dec.hb.cursor + len ≤ capacity s.dec.profile)
    (verified : ∀ k, k < len →
      ∃ b, g.read (s.dec.hb.cursor + k - off) = some b ∧ g.read (s.dec.hb.cursor + k) = some b) :
    ∃ t, Reaches s t ∧ t.Follows g bits ∧ t.dec.hb.cursor = s.dec.hb.cursor + len ∧ s.SamePacket t := by
  obtain ⟨noCommand, running, head, bytes, pad, left, short⟩ := follows
  rw [List.append_assoc, List.append_assoc] at left
  obtain ⟨hb, copied, cursor, agrees⟩ := HistBuf.copy_follows low high bytes verified
  have offsetStep := step_offsetForm noCommand running head (by omega) left
  have leftLom : (s.offsetRead off _).dec.bitsLeft = tokenBits (lengthForm len) ++ (bits ++ pad) :=
    DecUnit.bitsLeft_pass left
  have lengthStep := step_lengthForm (s := s.offsetRead off _) rfl running rfl leftLom low high long fits copied
  exact ⟨_, reaches_after_step offsetStep (reaches_of_step lengthStep),
    ⟨rfl, running, rfl, agrees, pad, DecUnit.bitsLeft_pass leftLom, short⟩, cursor, by constructor <;> rfl⟩

/-- A decoder that follows a whole token stream comes to its end, with the bytes of the followed buffer (44 R291). -/
theorem HistBuf.TokenStream.followed {code : OffsetCode} {g : HistBuf} {p q : Nat} {bits : Bits}
    (stream : g.TokenStream code p q bits) {s : State} (follows : s.Follows g bits) (cursor : s.dec.hb.cursor = p)
    (sameCode : offsetCodeOf s.params s.dec.profile = code) (fits : q ≤ capacity s.dec.profile) :
    ∃ t, Reaches s t ∧ t.Follows g [] ∧ t.dec.hb.cursor = q ∧ s.SamePacket t := by
  induction stream generalizing s with
  | done p => exact ⟨s, ⟨0, 0, Nat.le_refl 0, rfl⟩, follows, cursor, .refl s⟩
  | literal c byte rest ih =>
    have inside := rest.le
    obtain ⟨t, reached, follows', moved, same⟩ := follows.literal (cursor ▸ byte) (by omega)
    obtain ⟨u, reached', ended, atEnd, same'⟩ := ih follows' (by omega)
      (by rw [same.params, same.profile, sameCode]) (same.profile ▸ fits)
    exact ⟨u, reaches_trans reached reached', ended, atEnd, same.trans same'⟩
  | copy off len low high long verified rest ih =>
    have inside := rest.le
    subst sameCode cursor
    obtain ⟨t, reached, follows', moved, same⟩ := follows.copy low high long (by omega) verified
    obtain ⟨u, reached', ended, atEnd, same'⟩ := ih follows' moved
      (by rw [same.params, same.profile]) (same.profile ▸ fits)
    exact ⟨u, reaches_trans reached reached', ended, atEnd, same.trans same'⟩

/-- Where a buffer's bytes below its cursor are those of another with the same cursor, the two hold the same epoch. -/
theorem HistBuf.SameEpoch.of_below {g h : HistBuf} (cursor : h.cursor = g.cursor)
    (bytes : ∀ i, i < h.cursor → h.read i = g.read i) : g.SameEpoch h := by
  refine ⟨cursor.symm, fun i => ?_⟩
  by_cases below : i < h.cursor
  · exact (bytes i below).symm
  · rw [HistBuf.read, HistBuf.read, if_neg below, if_neg (cursor ▸ below)]

/-- A decoder that has followed a stream to its end answers the bytes of this packet (43 R232, R250, R251). -/
theorem State.Follows.step_end {g : HistBuf} {s : State} {out : List Byte} (follows : s.Follows g [])
    (cursor : s.dec.hb.cursor = g.cursor) (length : s.dec.outStart + out.length = g.cursor)
    (read : g.readRange s.dec.outStart out.length = some out) :
    step s = .next { s with
      dec := { s.dec with busy := false }
      outbox := answered s .dec (decompressReply out) } := by
  obtain ⟨noCommand, running, head, bytes, pad, left, short⟩ := follows
  have few : 8 * s.dec.input.length < s.dec.bitPos + 8 := by
    have := s.dec.bitsLeft_length
    rw [left, List.nil_append] at this
    omega
  have epoch := HistBuf.SameEpoch.of_below cursor bytes
  rw [HistBuf.readRange_congr fun k _ => epoch.2 _, ← Nat.sub_eq_of_eq_add' length.symm, ← cursor] at read
  exact (step_of_fetch_settle ((State.fetch_running noCommand running).trans (State.fetchPart_end head few))).trans
    (decFinish_of_readRange read)

/-! ### What the encoder's answer holds -/

/-- These bits carry the chunk from a decoder whose buffer is `h` to one whose buffer is `g`: they are a token stream of the
positions from the cursor of `h` to that of `g`, where the chunk stands, and below them the buffers agree. -/
structure HistBuf.Carries (code : OffsetCode) (g h : HistBuf) (chunk : List Byte) (bits : Bits) : Prop where
  stream : g.TokenStream code h.cursor g.cursor bits
  length : h.cursor + chunk.length = g.cursor
  bytes : g.readRange h.cursor chunk.length = some chunk
  agrees : ∀ i, i < h.cursor → h.read i = g.read i

/-- Both ends are initialised with one profile, without a fault, and idle: what lock-step asks besides equal histories. -/
structure State.EndsReady (s : State) : Prop where
  encReady : s.enc.ready = true
  decReady : s.dec.ready = true
  profile : s.dec.profile = s.enc.profile
  noFault : s.dec.status = 0#8
  encIdle : s.enc.busy = false
  decIdle : s.dec.busy = false

/-- The encoder has answered the chunk with these FLAGS and this payload, and the decoder has yet to take the packet. -/
inductive State.Pending (s : State) (chunk : List Byte) : Byte → List Byte → Prop
  | flushed (fresh : s.enc.session = .fresh) : Pending s chunk (flagsOfFallback s.dec.profile) chunk
  | stream (atFront : Bool) (bits : Bits) (shorter : (packBits bits).length < chunk.length)
      (carries : s.enc.hb.Carries (offsetCodeOf s.params s.dec.profile)
        (if atFront then s.dec.hb.reset else s.dec.hb) chunk bits) :
      Pending s chunk (flagsOfCompressed atFront s.dec.profile) (packBits bits)

theorem LockStep.endsReady {s : State} (lock : LockStep s) : s.EndsReady where
  encReady := lock.encReady
  decReady := lock.decReady
  profile := lock.profile
  noFault := lock.noFault
  encIdle := lock.encIdle
  decIdle := lock.decIdle

/-- Ends that are ready are in lock-step where the histories are equal as far as the session asks it (44 R291, 70 R364). -/
theorem State.EndsReady.lockStep {s : State} (ready : s.EndsReady)
    (epoch : s.enc.session = .active → s.enc.hb.SameEpoch s.dec.hb) : LockStep s where
  encReady := ready.encReady
  decReady := ready.decReady
  profile := ready.profile
  noFault := ready.noFault
  encIdle := ready.encIdle
  decIdle := ready.decIdle
  epoch := epoch

/-! ### The encoder's end -/

/-- An append leaves the reads below the old cursor (40 R151). -/
theorem HistBuf.read_pushAll_of_lt {h : HistBuf} {i : Nat} (bytes : List Byte) (below : i < h.cursor) :
    (h.pushAll bytes).read i = h.read i := by
  rw [HistBuf.read_of_lt below, HistBuf.read_of_lt (by rw [HistBuf.pushAll_cursor]; omega), HistBuf.pushAll_get,
    if_neg (by omega)]

/-- In lock-step the decoder's buffer, reset as the encoder's was, agrees with the loaded one below START (44 R275 to R277,
R285, R291). -/
theorem LockStep.agrees_load {s : State} (lock : LockStep s) (chunk : List Byte) :
    let h := if s.enc.startsEpoch chunk then s.dec.hb.reset else s.dec.hb
    h.cursor = (s.enc.load chunk).start ∧ ∀ i, i < h.cursor → h.read i = (s.enc.load chunk).hb.read i := by
  cases starts : s.enc.startsEpoch chunk with
  | true => simp [starts]
  | false =>
    have active : s.enc.session = .active := by
      cases session : s.enc.session with
      | active => rfl
      | fresh => simp [EncUnit.startsEpoch_eq, session] at starts
    obtain ⟨cursor, reads⟩ := lock.epoch active
    simp only [EncUnit.load_start, EncUnit.load_hb, starts, Bool.false_eq_true, if_false]
    refine ⟨cursor.symm, fun i below => ?_⟩
    rw [HistBuf.read_pushAll_of_lt chunk (cursor ▸ below), reads]

/-- What a scan of the loaded chunk wrote carries the chunk to a decoder in lock-step (44 R291). -/
theorem LockStep.carries {s : State} {chunk : List Byte} {e : EncUnit} (lock : LockStep s)
    (good : (s.enc.load chunk).Good) (scanned : (s.enc.load chunk).ScannedTo s.params e) :
    e.hb.Carries (offsetCodeOf s.params s.dec.profile)
      (if s.enc.startsEpoch chunk then s.dec.hb.reset else s.dec.hb) chunk e.out := by
  have scan := good.scan rfl
  obtain ⟨cursor, agrees⟩ := lock.agrees_load chunk
  obtain ⟨same, -, bits, out, stream⟩ := scanned
  have start : (s.enc.load chunk).pos = (s.enc.load chunk).start := by simp
  rw [EncUnit.load_profile, ← lock.profile, start, scan.atEnd] at stream
  rw [same.hb, show e.out = bits from out]
  exact ⟨cursor ▸ stream, by rw [cursor, ← scan.atEnd]; exact scan.loaded, cursor ▸ scan.chunkBytes, agrees⟩

/-- Whichever way the expansion check goes, the answer to a scanned chunk is a packet that the decoder has yet to take
(44 R279, R280). -/
theorem LockStep.pending_encFinish {s : State} {chunk : List Byte} {e : EncUnit} (lock : LockStep s)
    (good : (s.enc.load chunk).Good) (scanned : (s.enc.load chunk).ScannedTo s.params e) :
    let t := State.encFinish { s with inbox := [], enc := e }
    ∃ flags payload, t.outbox = answered s .enc (compressReply flags payload) ∧ t.EndsReady ∧
      t.Pending chunk flags payload := by
  have same := scanned.same
  have ends := lock.endsReady
  have ready : e.ready = true := same.ready.trans ((s.enc.load_ready chunk).trans lock.encReady)
  have profile : s.dec.profile = e.profile := lock.profile.trans ((s.enc.load_profile chunk).symm.trans same.profile.symm)
  have held : e.chunk = chunk := same.chunk
  by_cases smaller : ceil8 e.out.length < e.chunk.length
  · rw [State.encFinish_smaller smaller]
    refine ⟨flagsOfCompressed (s.enc.startsEpoch chunk) s.dec.profile, packBits e.out, ?_,
      { ends with encReady := ready, profile := profile, encIdle := rfl },
      .stream _ e.out ?_ (lock.carries (e := e) good scanned)⟩
    · rw [State.encResult_outbox, profile, same.atFront]
      rfl
    · rw [packBits_length, ← held]
      exact smaller
  · rw [State.encFinish_expands (Nat.not_lt.mp smaller)]
    refine ⟨flagsOfFallback s.dec.profile, chunk, ?_,
      { ends with encReady := ready, profile := profile, encIdle := rfl }, .flushed rfl⟩
    rw [State.encFallback_outbox, profile, held]
    rfl

/-- From lock-step the encoder answers a chunk with a packet that the decoder has yet to take (44 R281). -/
theorem LockStep.encodes {s : State} {chunk : List Byte} (lock : LockStep s) (inv : Inv s) (short : chunk.length < 2 ^ 32) :
    ∃ (t : State) (flags : Byte) (payload : List Byte), Reaches (sends s .enc (.encCompress chunk)) t ∧
      t.outbox = answered s .enc (compressReply flags payload) ∧ t.EndsReady ∧ t.Pending chunk flags payload := by
  have taken := step_sends_encCompress short lock.encIdle
  by_cases fits : chunk.length ≤ capacity s.enc.profile
  · rw [execEncCompress_fits (s := { s with inbox := [] }) lock.encReady fits] at taken
    have good : (s.enc.load chunk).Good := inv.enc.load lock.encReady fits
    obtain ⟨e, scanned, reached⟩ := State.EncAlone.reaches_encFinish
      (s := { s with inbox := [], enc := s.enc.load chunk }) ⟨rfl, lock.decIdle, rfl⟩ good
    obtain ⟨flags, payload, answer⟩ := lock.pending_encFinish good scanned
    exact ⟨_, flags, payload, reaches_after_step taken ⟨_, reached⟩, answer⟩
  · rw [execEncCompress_oversize (s := { s with inbox := [] }) lock.encReady (Nat.not_le.mp fits)] at taken
    refine ⟨_, flagsOfFallback s.dec.profile, chunk, reaches_of_step taken, ?_, { lock.endsReady with encIdle := rfl },
      .flushed rfl⟩
    rw [State.encFallback_outbox, lock.profile]
    rfl

/-! ### The decoder's end -/

/-- The FLAGS byte of the fallback, field by field (30 R108). -/
theorem flagsOfFallback_fields : ∀ p : Profile,
    flagFlushed (flagsOfFallback p) = true ∧ flagsType (flagsOfFallback p) = typeOf p
  | .legacy | .standard => ⟨rfl, rfl⟩

/-- The FLAGS byte of the compressed result, field by field (30 R108). -/
theorem flagsOfCompressed_fields : ∀ (atFront : Bool) (p : Profile),
    flagCompressed (flagsOfCompressed atFront p) = true ∧ flagAtFront (flagsOfCompressed atFront p) = atFront ∧
      flagFlushed (flagsOfCompressed atFront p) = false ∧ flagsType (flagsOfCompressed atFront p) = typeOf p
  | false, .legacy | false, .standard | true, .legacy | true, .standard => ⟨rfl, rfl, rfl, rfl⟩

/-- An idle decoder that is sent a packet with a payload that fits `LEN` runs DEC_DECOMPRESS on it (30 R113, 44 R289). -/
theorem step_sends_decDecompress {s : State} {payload : List Byte} (flags : Byte) (short : payload.length < 2 ^ 32)
    (idle : s.dec.busy = false) :
    step (sends s .dec (.decDecompress flags payload)) = execDecDecompress flags payload { s with inbox := [] } :=
  step_sends_command (i := .decDecompress flags payload) (decide_eq_true short) rfl idle

/-- A FLUSHED packet is answered with its payload in one step, and the encoder stays FRESH, so the ends are in lock-step
(44 R286, 70 R364). -/
theorem State.EndsReady.decodes_flushed {s : State} {chunk : List Byte} (ready : s.EndsReady)
    (fresh : s.enc.session = .fresh) (short : chunk.length < 2 ^ 32) :
    ∃ u, Reaches (sends s .dec (.decDecompress (flagsOfFallback s.dec.profile) chunk)) u ∧
      u.outbox = answered s .dec (decompressReply chunk) ∧ u.inbox = [] ∧ LockStep u := by
  obtain ⟨flushed, type⟩ := flagsOfFallback_fields s.dec.profile
  have taken := step_sends_decDecompress (flagsOfFallback s.dec.profile) short ready.decIdle
  rw [execDecDecompress_taken (s := { s with inbox := [] }) chunk ready.decReady (by rw [ready.noFault]; rfl)
    (by simp [flushed]) type, State.decPacket_flushed chunk flushed] at taken
  exact ⟨_, reaches_of_step taken, rfl, rfl, State.EndsReady.lockStep { ready with } fun active =>
    nomatch fresh.symm.trans active⟩

/-- The machine whose decoder has opened a packet of the encoder's and started its stream (44 R285, R288). -/
def State.streamOpened (s : State) (atFront : Bool) (payload : List Byte) : State :=
  { s with
    inbox := []
    dec := (s.dec.openPacket (flagsOfCompressed atFront s.dec.profile)).startStream payload }

/-- A compressed packet opens its stream in one step (44 R288). -/
theorem State.EndsReady.step_streamOpened {s : State} {payload : List Byte} (ready : s.EndsReady) (atFront : Bool)
    (short : payload.length < 2 ^ 32) :
    step (sends s .dec (.decDecompress (flagsOfCompressed atFront s.dec.profile) payload)) =
      .next (s.streamOpened atFront payload) := by
  obtain ⟨compressed, -, notFlushed, type⟩ := flagsOfCompressed_fields atFront s.dec.profile
  rw [step_sends_decDecompress _ short ready.decIdle, execDecDecompress_taken (s := { s with inbox := [] }) payload
    ready.decReady (by rw [ready.noFault]; rfl) (by simp [compressed]) type,
    State.decPacket_compressed payload compressed notFlushed]
  rfl

/-- The buffer that an opened stream is decoded against (44 R285). -/
theorem State.streamOpened_hb (s : State) (atFront : Bool) (payload : List Byte) :
    (s.streamOpened atFront payload).dec.hb = if atFront then s.dec.hb.reset else s.dec.hb := by
  obtain ⟨-, front, notFlushed, -⟩ := flagsOfCompressed_fields atFront s.dec.profile
  simp [State.streamOpened, front, notFlushed]

/-- A decoder that has opened a stream follows its bits, where its buffer agrees with the one that wrote them (42 R207,
43 R250). -/
theorem State.streamOpened_follows {s : State} {atFront : Bool} {g : HistBuf} {bits : Bits}
    (agrees : ∀ i, i < (s.streamOpened atFront (packBits bits)).dec.hb.cursor →
      (s.streamOpened atFront (packBits bits)).dec.hb.read i = g.read i) :
    (s.streamOpened atFront (packBits bits)).Follows g bits := by
  obtain ⟨pad, packed, short⟩ := bytesBits_packBits bits
  exact ⟨rfl, rfl, rfl, agrees, List.replicate pad false, packed, by rw [List.length_replicate]; exact short⟩

/-- A compressed packet whose bits carry the chunk is answered with the chunk, and the ends then hold the same epoch
(44 R291). -/
theorem State.EndsReady.decodes_stream {s : State} {chunk : List Byte} {atFront : Bool} {bits : Bits}
    (ready : s.EndsReady) (inv : Inv s) (short : (packBits bits).length < 2 ^ 32)
    (carries : s.enc.hb.Carries (offsetCodeOf s.params s.dec.profile)
      (if atFront then s.dec.hb.reset else s.dec.hb) chunk bits) :
    ∃ u, Reaches (sends s .dec (.decDecompress (flagsOfCompressed atFront s.dec.profile) (packBits bits))) u ∧
      u.outbox = answered s .dec (decompressReply chunk) ∧ u.inbox = [] ∧ LockStep u := by
  have opens := ready.step_streamOpened atFront short
  rw [← s.streamOpened_hb atFront (packBits bits)] at carries
  obtain ⟨stream, length, bytes, agrees⟩ := carries
  have profile : (s.streamOpened atFront (packBits bits)).dec.profile = s.dec.profile := DecUnit.openPacket_profile ..
  have outStart : (s.streamOpened atFront (packBits bits)).dec.outStart =
    (s.streamOpened atFront (packBits bits)).dec.hb.cursor := DecUnit.openPacket_outStart_eq ..
  obtain ⟨t, decoded, ended, atEnd, same⟩ := stream.followed (State.streamOpened_follows agrees) rfl
    (congrArg _ profile) (by rw [profile, ready.profile]; exact inv.enc.hist.fits)
  have ends := ended.step_end atEnd (by rw [same.outStart, outStart, length]) (by rw [same.outStart, outStart, bytes])
  have enc : t.enc = s.enc := same.enc
  refine ⟨_, reaches_after_step opens (reaches_trans decoded (reaches_of_step ends)),
    congrArg (· ++ _) same.outbox, ended.noCommand, ?_⟩
  exact {
    encReady := enc ▸ ready.encReady
    decReady := same.ready.trans ((DecUnit.openPacket_ready ..).trans ready.decReady)
    profile := same.profile.trans (profile.trans (enc ▸ ready.profile))
    noFault := same.status.trans ((DecUnit.openPacket_status ..).trans ready.noFault)
    encIdle := enc ▸ ready.encIdle
    decIdle := rfl
    epoch := fun _ => .of_below (enc ▸ atEnd) (enc ▸ ended.bytes) }

/-- The decoder answers the packet with the chunk, and the ends are in lock-step again (44 R291). -/
theorem State.Pending.decodes {s : State} {chunk payload : List Byte} {flags : Byte}
    (pending : s.Pending chunk flags payload) (ready : s.EndsReady) (inv : Inv s) (short : chunk.length < 2 ^ 32) :
    ∃ u, Reaches (sends s .dec (.decDecompress flags payload)) u ∧
      u.outbox = answered s .dec (decompressReply chunk) ∧ u.inbox = [] ∧ LockStep u := by
  cases pending with
  | flushed fresh => exact ready.decodes_flushed fresh short
  | stream atFront bits shorter carries => exact ready.decodes_stream inv (by omega) carries

/-- Settles O54: the encoder answers with a packet that the decoder has yet to take, and takes; the invariant holds along
both runs. -/
theorem lockStepRoundTrip : Obligations.LockStepRoundTrip := by
  intro s chunk inv lock short
  obtain ⟨t, flags, payload, encoded, answer, ready, pending⟩ := lock.encodes inv short
  have invT : Inv t := inv_of_reaches (s := sends s _ _) ⟨inv.enc, inv.dec⟩ encoded
  obtain ⟨u, decoded, output, noCommand, lock'⟩ := pending.decodes ready invT short
  exact ⟨t, u, flags, payload, encoded, answer, decoded, output, noCommand,
    inv_of_reaches (s := sends t _ _) ⟨invT.enc, invT.dec⟩ decoded, lock'⟩

end Sys2Proof.Machine
end

section
/-! Errors, refusals and idle time: the STATUS byte of each error (O10), the answers of a unit that is not ready (O16) or
faulted (O41), an idle machine's step (O17), and that a faulted decoder waits for DEC_INIT (O51). -/

namespace Sys2Proof.Machine

open Claims

/-! ### STATUS (60 R320) -/

/-- Settles O10: the layout of STATUS evaluated for each error. -/
theorem statusByteOfEachError : Obligations.StatusByteOfEachError :=
  ⟨rfl, rfl, rfl, rfl, rfl, rfl, rfl, rfl⟩

/-- STATUS has three zero bits above CAUSE and CODE (10 R39). -/
theorem DecError.status_highBits (e : DecError) : e.status.toNat / 32 = 0 := by
  cases e <;> rfl

/-- No legal STATUS has one of its three high bits set (10 R39, 60 R320). -/
theorem StatusLegal.highBits {st : Byte} (legal : StatusLegal st) : st.toNat / 32 = 0 := by
  obtain rfl | ⟨e, rfl⟩ := legal
  · rfl
  · exact e.status_highBits

/-! ### A unit that is not ready or faulted -/

/-- ENC_COMPRESS at a unit that is not ready is refused (60 R329). -/
theorem execEncCompress_unready {s : State} (chunk : List Byte) (unready : s.enc.ready = false) :
    execEncCompress chunk s = .next (s.refuse .enc 0xE0#8) := by
  simp [execEncCompress, unready]

/-- DEC_DECOMPRESS at a unit that is not ready is refused (60 R329). -/
theorem execDecDecompress_unready {s : State} (flags : Byte) (payload : List Byte) (unready : s.dec.ready = false) :
    execDecDecompress flags payload s = .next (s.refuse .dec 0xE0#8) := by
  simp [execDecDecompress, unready]

/-- A packet at a ready unit that is faulted is answered with STATUS (60 R325). -/
theorem execDecDecompress_faulted {s : State} (flags : Byte) (payload : List Byte) (ready : s.dec.ready = true)
    (fault : statusCode s.dec.status ≠ 0#2) :
    execDecDecompress flags payload s = .next (s.reply .dec [s.dec.status]) := by
  simp [execDecDecompress, ready, fault]

/-- Settles O16: the READY test of each command, and the high bits of a legal STATUS. -/
theorem unreadyUnitsRefuse : Obligations.UnreadyUnitsRefuse :=
  ⟨fun _ chunk unready => execEncCompress_unready chunk unready,
    fun _ flags payload unready => execDecDecompress_unready flags payload unready, rfl, fun _ legal => legal.highBits⟩

/-- Settles O41: `execDecDecompress_faulted`. -/
theorem faultedDecoderAnswersItsStatus : Obligations.FaultedDecoderAnswersItsStatus :=
  fun _ flags payload ready fault => execDecDecompress_faulted flags payload ready fault

/-! ### Idle units -/

/-- With the decoder idle, the encoder's command moves on, if one runs (60 R340, log 20). -/
theorem State.advance_decIdle {s : State} (idle : s.dec.busy = false) :
    s.advance = .settle (if s.enc.busy then encAdvance s else .next s) := by
  simp only [State.advance, idle, Bool.false_eq_true, if_false, apply_ite Action.settle]

/-- Settles O17: nothing is fetched from an empty inbox, and neither unit moves on. -/
theorem idleMachineKeepsItsState : Obligations.IdleMachineKeepsItsState := by
  intro s noCommand encIdle decIdle
  apply step_of_fetch_settle
  rw [State.fetch, noCommand]
  show s.advance = _
  rw [State.advance_decIdle decIdle, encIdle]
  rfl

/-! ### A faulted decoder and its one return (60 R325, R332) -/

/-- The end of an ENC_COMPRESS leaves the decoder as it was, with the fallback or with the result (60 R338). -/
theorem State.encFinish_dec (s : State) : s.encFinish.dec = s.dec := by
  unfold State.encFinish
  split
  · exact s.encFallback_dec _
  · exact s.encResult_dec

/-- A running encoder's move leaves the decoder as it was (60 R338). -/
theorem encAdvance_dec {s t : State} (h : encAdvance s = .next t) : t.dec = s.dec := by
  unfold encAdvance at h
  split at h
  case isTrue left => split at h <;> cases h; rfl
  case isFalse done =>
    cases h
    exact s.encFinish_dec

/-- An action that leaves this decoder as it is, unless a host command that it runs changes it. -/
def Action.KeepsDec (d : DecUnit) : Action → Prop
  | .run i u => i.context = .command ∧ u.dec = d
  | .settle o => ∀ t, o = .next t → t.dec = d

/-- A machine that is left alone with an idle decoder leaves it as it is. -/
theorem State.advance_keepsDec {s : State} (idle : s.dec.busy = false) : s.advance.KeepsDec s.dec := by
  rw [State.advance_decIdle idle]
  intro t moved
  split at moved
  case isTrue running => exact encAdvance_dec moved
  case isFalse encIdle =>
    cases moved
    rfl

/-- A transaction is refused, stops the machine, or is a host command to be run (30 R112, 60 R330). -/
theorem State.receive_keepsDec (s : State) (c : HostCommand) : (s.receive c).KeepsDec s.dec := by
  have refused (code : Byte) : Action.KeepsDec s.dec (.settle (.next (s.refuse c.port code))) := by
    intro t h
    cases h
    exact s.refuse_dec ..
  have broken : Action.KeepsDec s.dec (.settle (.refused .brokenTransaction)) :=
    fun _ h => by cases h
  unfold State.receive
  split
  case h_1 =>
    split_ifs with reserved elsewhere busy
    · exact refused 0xE1#8
    · exact refused 0xE2#8
    · exact refused 0xE3#8
    · split
      case h_1 decoded => exact ⟨(decodeCommand_wellFormed decoded).2, rfl⟩
      case h_2 => exact broken
  case h_2 short => exact broken

/-- What the machine does next leaves an idle decoder as it is, unless it is a host command. -/
theorem State.fetch_keepsDec {s : State} (idle : s.dec.busy = false) : s.fetch.KeepsDec s.dec := by
  unfold State.fetch
  split
  case h_1 c rest sent =>
    split
    case isTrue due => exact State.receive_keepsDec { s with inbox := rest } c
    case isFalse waiting => exact State.advance_keepsDec (s := { s with inbox := c.tick :: rest }) idle
  case h_2 empty => exact State.advance_keepsDec idle

/-- A faulted decoder answers a packet with STATUS, or with 0xE0 while it is not ready, and stays as it was
(60 R325, R329). -/
theorem execDecDecompress_faulted_dec {flags : Byte} {payload : List Byte} {s t : State}
    (fault : statusCode s.dec.status ≠ 0#2) (h : execDecDecompress flags payload s = .next t) : t.dec = s.dec := by
  cases ready : s.dec.ready with
  | false =>
    rw [execDecDecompress_unready flags payload ready] at h
    cases h
    exact s.refuse_dec ..
  | true =>
    rw [execDecDecompress_faulted flags payload ready fault] at h
    cases h
    exact s.reply_dec ..

/-- Of the host commands only DEC_INIT changes a faulted decoder (60 R325, R332, R338). -/
theorem exec_command_faulted {s t : State} {i : Instr} (command : i.context = .command)
    (fault : statusCode s.dec.status ≠ 0#2) (h : exec i s = .next t) : t.dec = s.dec ∨ ∃ p, i = .decInit p :=
  match i, command with
  | .encInit p, _ => .inl (exec_enc_dec (.inl ⟨p, rfl⟩) h)
  | .encCompress chunk, _ => .inl (exec_enc_dec (.inr ⟨chunk, rfl⟩) h)
  | .decInit p, _ => .inr ⟨p, rfl⟩
  | .decDecompress _ _, _ => .inl (execDecDecompress_faulted_dec fault h)

/-- Settles O51: an idle decoder is changed by a host command alone, and a faulted one by DEC_INIT alone. -/
theorem onlyDecInitClearsAFault : Obligations.OnlyDecInitClearsAFault := by
  intro s t idle fault stepped
  have keeps := State.fetch_keepsDec idle
  cases fetched : s.fetch with
  | settle o =>
    rw [fetched] at keeps
    rw [step_of_fetch_settle fetched] at stepped
    exact .inl (keeps t stepped)
  | run i u =>
    rw [fetched] at keeps
    rw [step_of_fetch_run fetched] at stepped
    obtain ⟨command, same⟩ := keeps
    obtain kept | ⟨p, rfl⟩ := exec_command_faulted command (same ▸ fault) stepped
    · exact .inl (kept.trans same)
    · cases stepped
      exact .inr ⟨u, p, rfl, rfl, rfl⟩

end Sys2Proof.Machine
end
